-- ==== Sys2Proof/Word.lean ====
section
/-! DEFINITION. The word types of the controller and the byte-list arithmetic of spec 00_scope.md R11. -/

namespace Sys2Proof

/-- One byte on the 8-bit data bus (20_memory.md R58). -/
abbrev Byte := BitVec 8

/-- `fill(n, b)`: the list of `n` copies of `b` (00_scope.md R11). -/
def fill (n : Nat) (b : Byte) : List Byte := List.replicate n b

/-- `&` on equal-length byte lists, bytewise (00_scope.md R11). -/
def andBytes (xs ys : List Byte) : List Byte := List.zipWith (fun x y => x &&& y) xs ys

end Sys2Proof
end

