-- ==== Sys2Proof/Config.lean ====
section
/-! DEFINITION. The implementation parameters (00_scope.md R6, R9) and the model's free values. -/

namespace Sys2Proof

/-- The bound of a ready wait, `READY_TIMEOUT` (00_scope.md R9, 92 D15). `polls 0` is not legal (R10). -/
inductive ReadyBound where
  /-- `INF`: the unbounded original behaviour. -/
  | inf
  /-- A positive bound; its unit is not modelled (42_phases.md R167). -/
  | polls (n : Nat)
  deriving DecidableEq, Repr

/-- Which device answers the phases (20_memory.md R55). -/
inductive DeviceKind where
  /-- The file-backed simulator made phase-exact (R56 to R77). -/
  | reference
  /-- Real hardware, which answers with draws under the laws of R78. -/
  | general
  deriving DecidableEq, Repr

/-- The kind of an `INJECT` entry (20_memory.md R74). -/
inductive OpKind where
  | program
  | erase
  deriving DecidableEq, Repr

/-- One triple of `INJECT` (20_memory.md R74). -/
structure Injection where
  cs : Nat
  block : Nat
  kind : OpKind
  deriving DecidableEq, Repr

/-- The eight command bytes (30_encoding.md R100). -/
structure CommandBytes where
  readId : Byte
  readSetup : Byte
  readConfirm : Byte
  programSetup : Byte
  programConfirm : Byte
  eraseSetup : Byte
  eraseConfirm : Byte
  readStatus : Byte
  deriving DecidableEq, Repr

/-- The default command bytes of 30_encoding.md R100.
PRESUMED (unsafe): general knowledge, not in the source (93 K1); log 33. -/
def CommandBytes.default : CommandBytes where
  readId := 0x90
  readSetup := 0x00
  readConfirm := 0x30
  programSetup := 0x80
  programConfirm := 0x10
  eraseSetup := 0x60
  eraseConfirm := 0xD0
  readStatus := 0x70

/-- `NandConfig` with the parameters of 00_scope.md R6 and R9: fixed for the machine, changed by no request. -/
structure Config where
  pageDataSize : Nat
  spareSize : Nat
  pagesPerBlock : Nat
  blocksPerCs : Nat
  numCs : Nat
  expectedId : List Byte
  idAddr : Byte
  colCycles : Nat
  rowCycles : Nat
  cmds : CommandBytes
  statusFailMask : Byte
  readyTimeout : ReadyBound
  /-- `IMAGE0[cs]` as the cells that differ from 0xFF (20_memory.md R61); a missing entry is an image of 0xFF. -/
  image0 : List (List Host.Cell)
  inject : List Injection
  /-- The device, "a parameter" of the model (20_memory.md R55). -/
  device : DeviceKind
  deriving DecidableEq, Repr

/-- The default of `ROW_CYCLES` (00_scope.md R9). -/
def Config.defaultRowCycles (blocksPerCs pagesPerBlock : Nat) : Nat :=
  if blocksPerCs * pagesPerBlock ≤ 65536 then 2 else 3

/-- The spec's own test configuration TCFG (95_test_vectors.md section 1, 92 D31). -/
def Config.tcfg : Config where
  pageDataSize := 4
  spareSize := 2
  pagesPerBlock := 4
  blocksPerCs := 4
  numCs := 2
  expectedId := [0x01, 0x23, 0x45, 0x67, 0x89]
  idAddr := 0x00
  colCycles := 2
  rowCycles := Config.defaultRowCycles 4 4
  cmds := CommandBytes.default
  statusFailMask := 0x01
  readyTimeout := .polls 8
  image0 := []
  inject := []
  device := .reference

/-- A byte the spec leaves unspecified or calls a draw, for each value of the counter `State.draws`: nothing can be
proved of its value (log 11). -/
opaque Config.freeByte : Nat → Byte

/-- Whether a busy die of the general device becomes ready within the bound: a draw (42_phases.md R167; log 11). -/
opaque Config.freeReady : Nat → Bool

/-- A number the spec leaves open, for each value of the counter (93 U26; log 11, log 14). -/
opaque Config.freeNat : Nat → Nat

/-- A byte list, of any length, that the spec leaves open, for each value of the counter (93 U26; log 11, log 14). -/
opaque Config.freeList : Nat → List Byte

end Sys2Proof
end

