-- ==== Sys2Proof/Syntax.lean ====
section
/-! DEFINITION. The four formats of 30_encoding.md as syntax: request operations, driver phases, NAND command cycles
(the rows of spec/opcode_table.json), and the response with its fault codes. -/

namespace Sys2Proof

/-- A driver phase with its argument (30_encoding.md R95, 42_phases.md). -/
inductive Phase where
  | select (cs : BitVec 4)
  | deselect
  | setWp (v : Bool)
  | cmd (b : Byte)
  | addr (bytes : List Byte)
  | dout (bytes : List Byte)
  | din (n : Nat)
  | waitRdy (bound : ReadyBound)
  deriving DecidableEq, Repr

/-- The eight command cycles by name (30_encoding.md R100). -/
inductive NandCmd where
  | readId
  | readSetup
  | readConfirm
  | programSetup
  | programConfirm
  | eraseSetup
  | eraseConfirm
  | readStatus
  deriving DecidableEq, Repr

/-- The instructions: one constructor per row of spec/opcode_table.json. A request's payload and its length travel
beside the word (30_encoding.md R90) and are state, not syntax. -/
inductive Instr where
  /-- `IDENTIFY cs` (40_operations.md R121). -/
  | identify (cs : BitVec 4)
  /-- `ERASE_BLOCK cs, block` (40_operations.md R124). -/
  | eraseBlock (cs : BitVec 4) (block : BitVec 16)
  /-- `PROGRAM_PAGE cs, block, page, <payload>` (40_operations.md R127). -/
  | programPage (cs : BitVec 4) (block : BitVec 16) (page : BitVec 8)
  /-- `READ_PAGE cs, block, page` (40_operations.md R130). -/
  | readPage (cs : BitVec 4) (block : BitVec 16) (page : BitVec 8)
  /-- `SELECT c` (42_phases.md R160). -/
  | select (cs : BitVec 4)
  /-- `DESELECT` (42_phases.md R161). -/
  | deselect
  /-- `SET_WP v` (42_phases.md R162). -/
  | setWp (v : Bool)
  /-- `CMD b` (42_phases.md R163). -/
  | cmd (b : Byte)
  /-- `ADDR a0 a1 ...` (42_phases.md R164). -/
  | addr (bytes : List Byte)
  /-- `DOUT d0 d1 ...` (42_phases.md R165). -/
  | dout (bytes : List Byte)
  /-- `DIN n` (42_phases.md R166). -/
  | din (n : Nat)
  /-- `WAIT_RDY` with its bound (42_phases.md R167). -/
  | waitRdy (bound : ReadyBound)
  /-- The command cycle `CMD_READ_ID` (30_encoding.md R100, 20_memory.md R63). -/
  | cmdReadId
  /-- The command cycle `CMD_READ_SETUP` (20_memory.md R64). -/
  | cmdReadSetup
  /-- The command cycle `CMD_READ_CONFIRM` (20_memory.md R66). -/
  | cmdReadConfirm
  /-- The command cycle `CMD_PROGRAM_SETUP` (20_memory.md R64). -/
  | cmdProgramSetup
  /-- The command cycle `CMD_PROGRAM_CONFIRM` (20_memory.md R68). -/
  | cmdProgramConfirm
  /-- The command cycle `CMD_ERASE_SETUP` (20_memory.md R64). -/
  | cmdEraseSetup
  /-- The command cycle `CMD_ERASE_CONFIRM` (20_memory.md R69). -/
  | cmdEraseConfirm
  /-- The command cycle `CMD_READ_STATUS` (20_memory.md R70). -/
  | cmdReadStatus
  deriving DecidableEq, Repr

/-- The instruction of a driver phase. -/
def Instr.ofPhase : Phase → Instr
  | .select c => .select c
  | .deselect => .deselect
  | .setWp v => .setWp v
  | .cmd b => .cmd b
  | .addr l => .addr l
  | .dout l => .dout l
  | .din n => .din n
  | .waitRdy t => .waitRdy t

/-- The instruction of a command cycle. -/
def Instr.ofNandCmd : NandCmd → Instr
  | .readId => .cmdReadId
  | .readSetup => .cmdReadSetup
  | .readConfirm => .cmdReadConfirm
  | .programSetup => .cmdProgramSetup
  | .programConfirm => .cmdProgramConfirm
  | .eraseSetup => .cmdEraseSetup
  | .eraseConfirm => .cmdEraseConfirm
  | .readStatus => .cmdReadStatus

/-- The faults a response can carry (60_exceptions.md R190). -/
inductive FaultCode where
  | outOfRangeAddress
  | badLength
  | deviceTimeout
  | reservedRequest
  deriving DecidableEq, Repr

/-- A response record (10_state.md R27, 30_encoding.md R94). -/
inductive Resp where
  | none
  | id (bytes : List Byte)
  | ok (pass : Bool)
  | page (bytes : List Byte)
  | absent
  | fault (code : FaultCode)
  deriving DecidableEq, Repr

/-- What a completed phase hands back over the driver port (30_encoding.md R96). -/
inductive Completion where
  /-- Nothing: kinds 0x1 to 0x6. -/
  | unit
  /-- The bytes of a `DIN`. -/
  | bytes (l : List Byte)
  /-- `WAIT_RDY` answered READY. -/
  | ready
  /-- `WAIT_RDY` answered TIMEOUT. -/
  | timeout
  deriving DecidableEq, Repr

/-- One request as the host holds it on the request port: `req_word` and `req_data` (10_state.md R32). -/
structure Request where
  word : BitVec 32
  data : List Byte
  deriving DecidableEq, Repr

end Sys2Proof
end

