-- ==== Sys2Proof/WellFormed.lean ====
section
/-! DEFINITION. Which instructions are well formed for a configuration: the operand limits of 42_phases.md and of the
phase record (30_encoding.md R95, R97). A request's range is no matter of its encoding (R93), so every request is well
formed. -/

namespace Sys2Proof

/-- `FULL_PAGE_SIZE = PAGE_DATA_SIZE + SPARE_SIZE` (00_scope.md R7). -/
def Config.fullPageSize (cfg : Config) : Nat := cfg.pageDataSize + cfg.spareSize

/-- `ID_LEN = len(EXPECTED_ID)` (00_scope.md R9). -/
def Config.idLen (cfg : Config) : Nat := cfg.expectedId.length

/-- The command byte of each command cycle in a configuration (30_encoding.md R100). -/
def Config.commandByte (cfg : Config) : NandCmd → Byte
  | .readId => cfg.cmds.readId
  | .readSetup => cfg.cmds.readSetup
  | .readConfirm => cfg.cmds.readConfirm
  | .programSetup => cfg.cmds.programSetup
  | .programConfirm => cfg.cmds.programConfirm
  | .eraseSetup => cfg.cmds.eraseSetup
  | .eraseConfirm => cfg.cmds.eraseConfirm
  | .readStatus => cfg.cmds.readStatus

/-- The eight command cycles in the order of 30_encoding.md R100. -/
def NandCmd.all : List NandCmd :=
  [.readId, .readSetup, .readConfirm, .programSetup, .programConfirm, .eraseSetup, .eraseConfirm, .readStatus]

/-- The eight command bytes of a configuration. -/
def Config.commandList (cfg : Config) : List Byte := NandCmd.all.map cfg.commandByte

/-- A ready bound is positive or INF (00_scope.md R10). -/
def ReadyBound.wf : ReadyBound → Bool
  | .inf => true
  | .polls n => decide (1 ≤ n)

/-- A phase's operand is one the spec gives it (42_phases.md R160 to R167). -/
def Phase.wf (cfg : Config) : Phase → Bool
  | .select c => decide (c.toNat < cfg.numCs)
  | .deselect => true
  | .setWp _ => true
  | .cmd b => decide (b ∈ cfg.commandList)
  | .addr l => decide (1 ≤ l.length) && decide (l.length ≤ 5)
  | .dout l => decide (l.length = cfg.fullPageSize)
  | .din n => decide (1 ≤ n)
  | .waitRdy t => t.wf

/-- An instruction is well formed for a configuration. -/
def Instr.wf (cfg : Config) : Instr → Bool
  | .identify _ => true
  | .eraseBlock _ _ => true
  | .programPage _ _ _ => true
  | .readPage _ _ _ => true
  | .select c => Phase.wf cfg (.select c)
  | .deselect => true
  | .setWp v => Phase.wf cfg (.setWp v)
  | .cmd b => Phase.wf cfg (.cmd b)
  | .addr l => Phase.wf cfg (.addr l)
  | .dout l => Phase.wf cfg (.dout l)
  | .din n => Phase.wf cfg (.din n)
  | .waitRdy t => Phase.wf cfg (.waitRdy t)
  | .cmdReadId => true
  | .cmdReadSetup => true
  | .cmdReadConfirm => true
  | .cmdProgramSetup => true
  | .cmdProgramConfirm => true
  | .cmdEraseSetup => true
  | .cmdEraseConfirm => true
  | .cmdReadStatus => true

end Sys2Proof
end

