-- ==== Sys2Proof/Decode.lean ====
section
/-! DEFINITION. The decoders of the four formats (30_encoding.md R90 to R100), total and rejecting by name, and after
them the encoders, written from the same tables. -/

namespace Sys2Proof

/-! ### The words of each format -/

/-- The argument of a phase record (30_encoding.md R95). -/
inductive PhaseArg where
  | none
  | cs (c : BitVec 4)
  | level (v : Bool)
  | byte (b : Byte)
  | bytes (l : List Byte)
  | count (n : Nat)
  | bound (t : ReadyBound)
  deriving DecidableEq, Repr

/-- A phase record: "a 4-bit kind and an argument" (30_encoding.md R95). -/
structure PhaseRecord where
  kind : BitVec 4
  arg : PhaseArg
  deriving DecidableEq, Repr

/-- The words an instruction can be encoded in: a request word, a phase record or a command byte on the NAND bus. -/
inductive Encoded where
  | request (w : BitVec 32)
  | phase (r : PhaseRecord)
  | command (b : Byte)
  deriving DecidableEq, Repr

/-- Why a word is no instruction. -/
inductive DecodeError where
  /-- `OP` is 0x0 or 0x5 to 0xF (30_encoding.md R91, 93 U1). -/
  | reservedOpcode
  /-- A field the operation does not use is not zero (30_encoding.md R92, 93 U2). -/
  | reservedField
  /-- A phase kind that is never emitted (30_encoding.md R95, 93 U3). -/
  | reservedPhaseKind
  /-- A phase record whose argument is not of its kind's form (30_encoding.md R95). -/
  | phaseArgument
  /-- A command byte that is none of the eight (20_memory.md R70, 93 U27). -/
  | unknownCommand
  /-- A bit count no row of the opcode table has. -/
  | noSuchWidth
  deriving DecidableEq, Repr

/-! ### The request word (R90 to R93) -/

/-- `OP = req_word[31:28]` (30_encoding.md R90). -/
def wordOp (w : BitVec 32) : BitVec 4 := w.extractLsb' 28 4

/-- `CS = req_word[27:24]` (30_encoding.md R90). -/
def wordCs (w : BitVec 32) : BitVec 4 := w.extractLsb' 24 4

/-- `BLOCK = req_word[23:8]` (30_encoding.md R90). -/
def wordBlock (w : BitVec 32) : BitVec 16 := w.extractLsb' 8 16

/-- `PAGE = req_word[7:0]` (30_encoding.md R90). -/
def wordPage (w : BitVec 32) : BitVec 8 := w.extractLsb' 0 8

/-- The request a set of fields stands for: operation codes R91, reserved fields R92. -/
def decodeFields (op cs : BitVec 4) (block : BitVec 16) (page : BitVec 8) : Except DecodeError Instr :=
  match op.toNat with
  | 1 => if block = 0 ∧ page = 0 then .ok (.identify cs) else .error .reservedField
  | 2 => if page = 0 then .ok (.eraseBlock cs block) else .error .reservedField
  | 3 => .ok (.programPage cs block page)
  | 4 => .ok (.readPage cs block page)
  | _ => .error .reservedOpcode

/-- Decoding a request word (30_encoding.md R90 to R93). -/
def decodeRequest (w : BitVec 32) : Except DecodeError Instr :=
  decodeFields (wordOp w) (wordCs w) (wordBlock w) (wordPage w)

/-! ### The phase record (R95) -/

/-- The phase a record stands for (30_encoding.md R95). -/
def decodePhaseRecord (r : PhaseRecord) : Except DecodeError Phase :=
  match r.kind.toNat with
  | 1 => match r.arg with
    | .cs c => .ok (.select c)
    | _ => .error .phaseArgument
  | 2 => match r.arg with
    | .none => .ok .deselect
    | _ => .error .phaseArgument
  | 3 => match r.arg with
    | .level v => .ok (.setWp v)
    | _ => .error .phaseArgument
  | 4 => match r.arg with
    | .byte b => .ok (.cmd b)
    | _ => .error .phaseArgument
  | 5 => match r.arg with
    | .bytes l => .ok (.addr l)
    | _ => .error .phaseArgument
  | 6 => match r.arg with
    | .bytes l => .ok (.dout l)
    | _ => .error .phaseArgument
  | 7 => match r.arg with
    | .count n => .ok (.din n)
    | _ => .error .phaseArgument
  | 8 => match r.arg with
    | .bound t => .ok (.waitRdy t)
    | _ => .error .phaseArgument
  | _ => .error .reservedPhaseKind

/-- Decoding a phase record to its instruction. -/
def decodePhase (r : PhaseRecord) : Except DecodeError Instr :=
  match decodePhaseRecord r with
  | .ok p => .ok (Instr.ofPhase p)
  | .error e => .error e

/-! ### The command byte (R100) -/

/-- The command cycle a byte on the NAND bus stands for in a configuration (30_encoding.md R100). -/
def nandCmdOf (cfg : Config) (b : Byte) : Option NandCmd :=
  NandCmd.all.find? (fun k => decide (cfg.commandByte k = b))

/-- Decoding a command byte to its instruction. -/
def decodeCommand (cfg : Config) (b : Byte) : Except DecodeError Instr :=
  match nandCmdOf cfg b with
  | some k => .ok (Instr.ofNandCmd k)
  | none => .error .unknownCommand

/-- Decoding any word of any format. -/
def decode (cfg : Config) : Encoded → Except DecodeError Instr
  | .request w => decodeRequest w
  | .phase r => decodePhase r
  | .command b => decodeCommand cfg b

/-! ### The encoders -/

/-- The word of a request's fields (30_encoding.md R90). -/
def packWord (op cs : BitVec 4) (block : BitVec 16) (page : BitVec 8) : BitVec 32 :=
  op ++ cs ++ block ++ page

/-- The record of a phase (30_encoding.md R95). -/
def encodePhase : Phase → PhaseRecord
  | .select c => ⟨1, .cs c⟩
  | .deselect => ⟨2, .none⟩
  | .setWp v => ⟨3, .level v⟩
  | .cmd b => ⟨4, .byte b⟩
  | .addr l => ⟨5, .bytes l⟩
  | .dout l => ⟨6, .bytes l⟩
  | .din n => ⟨7, .count n⟩
  | .waitRdy t => ⟨8, .bound t⟩

/-- The word of an instruction (30_encoding.md R90 to R92, R95, R100): unused request fields are zero. -/
def encode (cfg : Config) : Instr → Encoded
  | .identify cs => .request (packWord 1 cs 0 0)
  | .eraseBlock cs block => .request (packWord 2 cs block 0)
  | .programPage cs block page => .request (packWord 3 cs block page)
  | .readPage cs block page => .request (packWord 4 cs block page)
  | .select c => .phase (encodePhase (.select c))
  | .deselect => .phase (encodePhase .deselect)
  | .setWp v => .phase (encodePhase (.setWp v))
  | .cmd b => .phase (encodePhase (.cmd b))
  | .addr l => .phase (encodePhase (.addr l))
  | .dout l => .phase (encodePhase (.dout l))
  | .din n => .phase (encodePhase (.din n))
  | .waitRdy t => .phase (encodePhase (.waitRdy t))
  | .cmdReadId => .command (cfg.commandByte .readId)
  | .cmdReadSetup => .command (cfg.commandByte .readSetup)
  | .cmdReadConfirm => .command (cfg.commandByte .readConfirm)
  | .cmdProgramSetup => .command (cfg.commandByte .programSetup)
  | .cmdProgramConfirm => .command (cfg.commandByte .programConfirm)
  | .cmdEraseSetup => .command (cfg.commandByte .eraseSetup)
  | .cmdEraseConfirm => .command (cfg.commandByte .eraseConfirm)
  | .cmdReadStatus => .command (cfg.commandByte .readStatus)

/-! ### The response record (R94) and the completion codes (R96) -/

/-- The 8-bit fault code (60_exceptions.md R190). -/
def FaultCode.code : FaultCode → BitVec 8
  | .outOfRangeAddress => 0x01
  | .badLength => 0x02
  | .deviceTimeout => 0x03
  | .reservedRequest => 0x04

/-- The fault of a code; every other code is never produced (60_exceptions.md R190, 93 U3). -/
def FaultCode.ofCode (c : BitVec 8) : Option FaultCode :=
  match c.toNat with
  | 1 => some .outOfRangeAddress
  | 2 => some .badLength
  | 3 => some .deviceTimeout
  | 4 => some .reservedRequest
  | _ => none

/-- The payload of a response record (30_encoding.md R94). -/
inductive RespPayload where
  | none
  | bytes (l : List Byte)
  | bit (b : Bool)
  | code (c : BitVec 8)
  deriving DecidableEq, Repr

/-- A response record on the port: "a kind code and a payload" (30_encoding.md R94).
DEDUCED (safe): three bits, because codes 6 and 7 are said to be never produced; log 30. -/
structure RespRecord where
  kind : BitVec 3
  payload : RespPayload
  deriving DecidableEq, Repr

/-- The record of a response (30_encoding.md R94). -/
def encodeResp : Resp → RespRecord
  | .none => ⟨0, .none⟩
  | .id l => ⟨1, .bytes l⟩
  | .ok b => ⟨2, .bit b⟩
  | .page l => ⟨3, .bytes l⟩
  | .absent => ⟨4, .none⟩
  | .fault c => ⟨5, .code c.code⟩

/-- The response of a record; kinds 6 and 7 and unused fault codes are refused (93 U3). -/
def decodeResp (r : RespRecord) : Option Resp :=
  match r.kind.toNat, r.payload with
  | 0, .none => some .none
  | 1, .bytes l => some (.id l)
  | 2, .bit b => some (.ok b)
  | 3, .bytes l => some (.page l)
  | 4, .none => some .absent
  | 5, .code c => (FaultCode.ofCode c).map .fault
  | _, _ => none

/-- The code of a ready wait's completion: READY 0, TIMEOUT 1 (30_encoding.md R96). R96 gives the code no width; that it is
one bit is the model's choice (DESIGN CHOICE, log 30). -/
def Completion.waitCode : Completion → Option (BitVec 1)
  | .ready => some 0
  | .timeout => some 1
  | .unit => none
  | .bytes _ => none

/-! ### The opcode table's words, for the host -/

/-- The phase record of a kind whose argument is zeros, as the opcode table gives the kind alone.
DESIGN CHOICE (safe): the least legal count 1, the bound of TCFG, and for `DOUT` one page of TCFG; log 10. -/
def zeroPhaseRecord (kind : BitVec 4) : PhaseRecord :=
  match kind.toNat with
  | 1 => ⟨kind, .cs 0⟩
  | 3 => ⟨kind, .level false⟩
  | 4 => ⟨kind, .byte 0⟩
  | 5 => ⟨kind, .bytes [0]⟩
  | 6 => ⟨kind, .bytes (fill Config.tcfg.fullPageSize 0)⟩
  | 7 => ⟨kind, .count 1⟩
  | 8 => ⟨kind, .bound Config.tcfg.readyTimeout⟩
  | _ => ⟨kind, .none⟩

/-- The word the opcode table's `nbits` and `w` stand for: 32 bits are a request word; the two short formats share
8 bits, where the phase kinds are 0x01 to 0x0F and every default command byte ends in 0x0 (log 10). -/
def tableWord (nbits w : Nat) : Option Encoded :=
  if nbits = 32 then some (.request (BitVec.ofNat 32 w))
  else if nbits = 4 then some (.phase (zeroPhaseRecord (BitVec.ofNat 4 w)))
  else if nbits = 8 then
    if 0 < w ∧ w < 16 then some (.phase (zeroPhaseRecord (BitVec.ofNat 4 w)))
    else some (.command (BitVec.ofNat 8 w))
  else none

/-- The instruction the decoder reads from a word of the opcode table, command bytes at their defaults. -/
def decodeTableWord (nbits w : Nat) : Option Instr :=
  match tableWord nbits w with
  | some e => match decode Config.tcfg e with
    | .ok i => some i
    | .error _ => none
  | none => none

end Sys2Proof
end

