-- ==== Sys2Proof/Machine/State.lean ====
section
/-! DEFINITION. The machine's state (10_state.md R20, 20_memory.md R60), the reasons a step can stop, and reset. -/

namespace Sys2Proof.Machine

/-- One chip select's image: the bytes that differ from what an unlisted byte reads as, addresses strictly rising. -/
abbrev Memory := List Host.Cell

/-- `ctl_state` (10_state.md R21). -/
inductive CtlState where
  | idle
  | busy
  deriving DecidableEq, Repr

/-- `mode[cs]` (20_memory.md R60), with one more name for a device no rule describes (R70, R77; log 13). -/
inductive Mode where
  | idle
  | id
  | readSetup
  | readData
  | prog
  | eraseSetup
  | status
  /-- The spec leaves the mode unspecified: every `DIN` answers with free bytes until a command sets a mode. -/
  | undefined
  deriving DecidableEq, Repr

/-- The array effect of a general device's program or erase in progress: the bytes it stores if it ends in a passing
status (20_memory.md R78). -/
structure Pending where
  off : Nat
  bytes : List Byte
  deriving DecidableEq, Repr

/-- What the device holds for one chip select (20_memory.md R60, 10_state.md R37). -/
structure Die where
  image : Memory
  mode : Mode
  abuf : List Byte
  pbuf : List Byte
  preg : List Byte
  rptr : Nat
  status : Byte
  fail : Bool
  /-- The ready/busy line of the general device (10_state.md R37). -/
  busy : Bool
  /-- Every later answer of this die is a draw (70_reset_and_hazards.md R228). -/
  unknown : Bool
  /-- The general device's array effect in progress (log 15). -/
  pend : Option Pending
  /-- The status byte the general device drew when its operation ended (log 15). -/
  latched : Option Byte
  deriving DecidableEq, Repr

/-- An answer of the general device supplied from outside (20_memory.md R55, R78; log 12). -/
inductive Answer where
  /-- The bytes of a `DIN`. -/
  | bytes (l : List Byte)
  /-- The die became ready, with this status byte. -/
  | ready (status : Byte)
  /-- The die stayed busy for the whole bound. -/
  | timeout
  deriving DecidableEq, Repr

/-- A word driven at the device directly, not through a request (95_test_vectors.md section 3.8; log 10). -/
inductive BenchItem where
  | phase (r : PhaseRecord)
  | command (b : Byte)
  deriving DecidableEq, Repr

/-- One line of the phase trace: a phase and its completion (00_scope.md R2, 30_encoding.md R107). -/
structure TraceEntry where
  phase : Phase
  completion : Completion
  deriving DecidableEq, Repr

/-- The machine. -/
structure State where
  /-- The configuration: constant (00_scope.md R6; log 1). -/
  cfg : Config
  /-- `ctl_state` (10_state.md R21). -/
  ctl : CtlState
  /-- `phase_pc` (10_state.md R22). -/
  phasePc : BitVec 4
  /-- `req_op` (10_state.md R23). -/
  reqOp : BitVec 4
  /-- `req_cs` (10_state.md R23). -/
  reqCs : BitVec 4
  /-- `req_block` (10_state.md R23). -/
  reqBlock : BitVec 16
  /-- `req_page` (10_state.md R23). -/
  reqPage : BitVec 8
  /-- `req_len` (10_state.md R23). -/
  reqLen : Nat
  /-- `dbuf` (10_state.md R24). -/
  dbuf : List Byte
  /-- `idbuf` (10_state.md R25). -/
  idbuf : List Byte
  /-- `status_reg` (10_state.md R26). -/
  statusReg : Byte
  /-- `resp` (10_state.md R27). -/
  resp : Resp
  /-- `cs_sel` (10_state.md R28). -/
  csSel : Option (BitVec 4)
  /-- `wp_asserted` (10_state.md R29). -/
  wpAsserted : Bool
  /-- The requests the host holds on the request port, the first one now (10_state.md R32; log 7). -/
  requests : List Request
  /-- Whether the host takes a response that is there (10_state.md R34; log 7). -/
  hostTakes : Bool
  /-- The reset input (70_reset_and_hazards.md R220; log 8). -/
  rst : Bool
  /-- The dice by chip select (20_memory.md R60). -/
  dies : List Die
  /-- The device's `wp` bit, shared by the dice (20_memory.md R60). -/
  wp : Bool
  /-- The device's `sel` (20_memory.md R60). -/
  sel : Option (BitVec 4)
  /-- The general device's answers supplied from outside, the next one first (log 12). -/
  answers : List Answer
  /-- How many free values have been drawn (log 11). -/
  draws : Nat
  /-- Words driven at the device directly, the next one first (log 10). -/
  bench : List BenchItem
  /-- The phase trace since the last acceptance, oldest first (00_scope.md R2; log 9). -/
  trace : List TraceEntry
  /-- The responses the host has consumed, oldest first (10_state.md R34; log 9). -/
  delivered : List Resp
  /-- The fault responses of the run, oldest first, never cleared (60_exceptions.md R198; log 9). -/
  runFaults : List FaultCode
  deriving DecidableEq, Repr

/-- The machine stops. The spec's own faults (60_exceptions.md R190) are responses, not these. -/
inductive Fault where
  /-- Raised by `SELECT` of a chip select outside NUM_CS, and by any phase when the selected die is not there: an
  address the spec says does not exist (42_phases.md R160, 00_scope.md R8). Safe: the machine stops. -/
  | absentDie
  /-- Raised by a request whose `phase_pc` is an index its phase list and its cleanup path do not have
  (10_state.md R22, 60_exceptions.md R196: never reached). Safe: the machine stops. -/
  | phaseCounter
  deriving DecidableEq, Repr

/-- The model refuses the step. -/
inductive Refusal where
  /-- Raised by exec for an instruction that has no meaning yet. Safe: the machine stops. -/
  | notModelled (mnemonic : String)
  /-- Raised by `step` when the configuration breaks a limit: "outside this spec and a model refuses it"
  (00_scope.md R10, 93 U7). Safe: the machine stops. -/
  | badConfiguration
  /-- Raised by `step` when a phase record driven at the device has a kind that is never emitted or an argument not of
  its kind (30_encoding.md R95, 93 U3). Safe: the machine stops. -/
  | badPhaseRecord
  /-- Raised by `DIN` and `WAIT_RDY` when the general device answers with the wrong number of bytes or the wrong form:
  "a model refuses that step" (42_phases.md R166, 93 U12). Safe: the machine stops. -/
  | driverContract
  deriving DecidableEq, Repr

/-- A die as the platform hands it over: powered, not busy, in its power-on state (20_memory.md R61,
70_reset_and_hazards.md R224); `status` is `StatusByte` with `wp = 1`, `fail = 0` (R73).
DESIGN CHOICE (unsafe): R61 and IMAGE0 are the reference device's; a general die starts from the same image and the same
fields (log 36).
DESIGN CHOICE (unsafe): `pbuf` and `preg`, unspecified in the spec, hold 0x00 (log 3). -/
def Die.powerOn (cfg : Config) (cs : Nat) : Die where
  image := cfg.image0.getD cs []
  mode := .idle
  abuf := []
  pbuf := fill cfg.fullPageSize 0x00
  preg := fill cfg.fullPageSize 0x00
  rptr := 0
  status := 0x60
  fail := false
  busy := false
  unknown := false
  pend := none
  latched := none

/-- The machine right after power-on and reset with a configuration (70_reset_and_hazards.md R221, R224).
DESIGN CHOICE (unsafe): the registers R221 calls unspecified hold zeros (log 2). -/
def State.powerOn (cfg : Config) : State where
  cfg := cfg
  ctl := .idle
  phasePc := 0
  reqOp := 0
  reqCs := 0
  reqBlock := 0
  reqPage := 0
  reqLen := 0
  dbuf := fill cfg.fullPageSize 0x00
  idbuf := fill cfg.idLen 0x00
  statusReg := 0x00
  resp := .none
  csSel := none
  wpAsserted := true
  requests := []
  hostTakes := true
  rst := false
  dies := (List.range cfg.numCs).map (Die.powerOn cfg)
  wp := true
  sel := none
  answers := []
  draws := 0
  bench := []
  trace := []
  delivered := []
  runFaults := []

/-- The machine right after reset. DESIGN CHOICE (unsafe): the OPEN configuration is TCFG, the spec's own test
configuration, with the reference device (log 1). -/
def State.reset : State := State.powerOn Config.tcfg

end Sys2Proof.Machine
end

