-- ==== Sys2Proof/Machine/Ops.lean ====
section
/-! DEFINITION. The named operations over memory, free values, the dice and the controller's registers: taking a fault,
responding, consuming a response, accepting a request, reset. -/

namespace Sys2Proof.Machine

/-! ### Memory: one die's image (20_memory.md R56) -/

/-- What an unlisted byte of an image reads as: erased NAND.
DESIGN CHOICE (unsafe): IMAGE0 is OPEN in the spec; TCFG takes all 0xFF (93 U24; log 4). -/
def Memory.unlisted : Byte := 0xFF

/-- One byte of an image. -/
def Memory.read : Memory → Nat → Byte
  | [], _ => Memory.unlisted
  | (k, v) :: t, a => if k = a then v else Memory.read t a

/-- One byte written, in canonical form: writing what an unlisted byte reads as removes the entry. -/
def Memory.write : Memory → Nat → Byte → Memory
  | [], a, b => if b = Memory.unlisted then [] else [(a, b)]
  | (k, v) :: t, a, b =>
    if a < k then (if b = Memory.unlisted then (k, v) :: t else (a, b) :: (k, v) :: t)
    else if a = k then (if b = Memory.unlisted then t else (a, b) :: t)
    else (k, v) :: Memory.write t a b

/-- Every listed address is at least `lo`, they rise strictly, and no entry equals the unlisted byte. -/
def Memory.wfFrom : Nat → Memory → Bool
  | _, [] => true
  | lo, (k, v) :: t => decide (lo ≤ k) && decide (v ≠ Memory.unlisted) && Memory.wfFrom (k + 1) t

/-- The canonical form of an image. -/
def Memory.wf (m : Memory) : Bool := Memory.wfFrom 0 m

/-- `MemRead(cs, off, n)` on one image (20_memory.md R56). -/
def Memory.readBytes (m : Memory) (off n : Nat) : List Byte :=
  (List.range n).map (fun k => Memory.read m (off + k))

/-- `MemWrite(cs, off, len(v), v)` on one image (20_memory.md R56). -/
def Memory.writeBytes : Memory → Nat → List Byte → Memory
  | m, _, [] => m
  | m, off, b :: t => Memory.writeBytes (Memory.write m off b) (off + 1) t

/-! ### Free values (log 11) -/

/-- `n` free bytes for a value of the counter. -/
def freeBytes (draws n : Nat) : List Byte := (List.range n).map (fun k => Config.freeByte (draws + k))

/-- The machine after `n` free values have been drawn. -/
def State.drew (s : State) (n : Nat) : State := { s with draws := s.draws + n }

/-! ### The dice and the lines -/

/-- The die of a chip select replaced. -/
def State.setDie (s : State) (c : BitVec 4) (d : Die) : State := { s with dies := s.dies.set c.toNat d }

/-- An effect on the selected die: none when no die is selected (20_memory.md R60). -/
def State.onSelected (s : State) (f : BitVec 4 → Die → State) : Host.Outcome State Fault Refusal :=
  match s.sel with
  | none => .next s
  | some c => match s.dies[c.toNat]? with
    | none => .fault .absentDie
    | some d => .next (f c d)

/-- A busy die of the general device that is given a command, address or data cycle before it was ready: no law of the
spec says what it does, so it is unknown from then on. DESIGN CHOICE (safe): unreachable from the controller, which
waits (70_reset_and_hazards.md R225); log 20. -/
def Die.disturbed (cfg : Config) (d : Die) : Die :=
  if cfg.device = .general ∧ d.busy = true then { d with unknown := true, pend := none, latched := none } else d

/-! ### Phases: the sequencer's view -/

/-- What performing a phase comes to. -/
inductive PhaseResult where
  /-- The phase completed. -/
  | done (c : Completion) (s : State)
  /-- The phase holds: `WAIT_RDY` with READY_TIMEOUT = INF on a die that is not ready (42_phases.md R167). -/
  | hold (s : State)
  | fault (f : Fault)
  | refused (r : Refusal)

/-- A completed phase joins the phase trace (00_scope.md R2). -/
def State.logPhase (s : State) (p : Phase) (c : Completion) : State :=
  { s with trace := s.trace ++ [⟨p, c⟩] }

/-- An effect that hands nothing back completes its phase (30_encoding.md R96). -/
def PhaseResult.ofEffect (p : Phase) : Host.Outcome State Fault Refusal → PhaseResult
  | .next s => .done .unit (s.logPhase p .unit)
  | .fault f => .fault f
  | .refused r => .refused r

/-- A phase performed for itself, as the driver port sees it: a phase that holds stays on the driver port. -/
def PhaseResult.outcome (p : Phase) : PhaseResult → Host.Outcome State Fault Refusal
  | .done _ s => .next s
  | .hold s => .next { s with bench := .phase (encodePhase p) :: s.bench }
  | .fault f => .fault f
  | .refused r => .refused r

/-- "increases by exactly 1 when a phase completes" (10_state.md R22). -/
def State.bumpPc (s : State) : State := { s with phasePc := s.phasePc + 1 }

/-- `goto L`: the phase counter set to an index of the cleanup path (00_scope.md R12, 10_state.md R22). -/
def State.goto (s : State) (n : BitVec 4) : State := { s with phasePc := n }

/-! ### The end of a request -/

/-- `respond R` (10_state.md R27). -/
def State.respond (s : State) (r : Resp) : State := { s with resp := r, ctl := .idle, phasePc := 0 }

/-- Taking a fault: `raise F` (10_state.md R27, 60_exceptions.md R195), recorded as a fault of the run (R198). -/
def State.raise (s : State) (f : FaultCode) : State :=
  { s.respond (.fault f) with runFaults := s.runFaults ++ [f] }

/-- The host consumes the response: the return from a fault too (10_state.md R34, 60_exceptions.md R197). -/
def State.consume (s : State) : State := { s with resp := .none, delivered := s.delivered ++ [s.resp] }

/-! ### The ports (10_state.md R32 to R34) -/

/-- `req_valid` (10_state.md R32). -/
def State.reqValid (s : State) : Bool := !s.requests.isEmpty

/-- `req_ready = (ctl_state = IDLE) and (resp = NONE)` (10_state.md R32). -/
def State.reqReady (s : State) : Bool := decide (s.ctl = .idle) && decide (s.resp = .none)

/-- `resp_valid = (resp != NONE)` (10_state.md R34). -/
def State.respValid (s : State) : Bool := decide (s.resp ≠ .none)

/-- The response port's record (10_state.md R34, 30_encoding.md R94). -/
def State.respPort (s : State) : RespRecord := encodeResp s.resp

/-- Acceptance of a request, in one step (10_state.md R33). The phase trace starts anew. -/
def State.accept (s : State) (r : Request) : State :=
  { s with
    reqOp := wordOp r.word
    reqCs := wordCs r.word
    reqBlock := wordBlock r.word
    reqPage := wordPage r.word
    reqLen := r.data.length
    dbuf := if wordOp r.word = 3 ∧ r.data.length = s.cfg.fullPageSize then r.data else s.dbuf
    ctl := .busy
    phasePc := 0
    requests := s.requests.tail
    trace := [] }

/-- An idle controller's step: the host consumes the response that is there, or the request it holds is accepted, or
nothing happens (10_state.md R32, R34; 70_reset_and_hazards.md R223). -/
def State.idleTurn (s : State) : State :=
  if s.resp = .none then
    match s.requests with
    | [] => s
    | r :: _ => s.accept r
  else if s.hostTakes then s.consume else s

/-- The request word in the latch. -/
def State.latchWord (s : State) : BitVec 32 := packWord s.reqOp s.reqCs s.reqBlock s.reqPage

/-- The request in progress, read from the latch, never from the port (10_state.md R23). -/
def State.latched (s : State) : Except DecodeError Instr := decodeRequest s.latchWord

/-! ### Reset (70_reset_and_hazards.md R220 to R222, R228) -/

/-- Whether the request in the latch is past its confirm command: the indices after `CMD_ERASE_CONFIRM` (R124),
`CMD_PROGRAM_CONFIRM` (R127) and `CMD_READ_CONFIRM` (R130). -/
def State.pastConfirm (s : State) : Bool :=
  decide (s.ctl = .busy) &&
    match s.reqOp.toNat with
    | 2 => decide (5 ≤ s.phasePc.toNat)
    | 3 => decide (6 ≤ s.phasePc.toNat)
    | 4 => decide (4 ≤ s.phasePc.toNat)
    | _ => false

/-- A reset past the confirm command leaves the general device's die unknown (70_reset_and_hazards.md R228); it leaves
every other die, and the reference device, as they are (R222). -/
def State.abandonDie (s : State) : List Die :=
  if s.cfg.device = .general ∧ s.pastConfirm = true then
    s.dies.modify s.reqCs.toNat (fun d => { d with unknown := true, pend := none, latched := none })
  else s.dies

/-- Reset, in one step (70_reset_and_hazards.md R220, R221): the controller's registers take their reset values, the
unspecified ones those of log 2; a request in progress is abandoned. The outputs take their reset values directly, so the
lines the dice see of them follow at once, with no phase: the write-protect line is asserted (R229) and no die is selected
(R221; log 8). The dice themselves are not reset (R222). -/
def State.applyReset (s : State) : State :=
  { s with
    ctl := .idle
    phasePc := 0
    reqOp := 0
    reqCs := 0
    reqBlock := 0
    reqPage := 0
    reqLen := 0
    dbuf := fill s.cfg.fullPageSize 0x00
    idbuf := fill s.cfg.idLen 0x00
    statusReg := 0x00
    resp := .none
    csSel := none
    wpAsserted := true
    wp := true
    sel := none
    rst := false
    dies := s.abandonDie }

end Sys2Proof.Machine
end

