-- ==== Sys2Proof/Machine/Operands.lean ====
section
/-! DEFINITION. The operand forms: row numbers and address cycles (30_encoding.md R102 to R105), the device's address
decoding (20_memory.md R65), the checks on a request's operands (60_exceptions.md R193), and the limits of a
configuration (00_scope.md R10). -/

namespace Sys2Proof

/-- Rows of one chip select (20_memory.md R50). -/
def Config.rows (cfg : Config) : Nat := cfg.blocksPerCs * cfg.pagesPerBlock

/-- Bytes of one chip select's image (20_memory.md R56). -/
def Config.imageSize (cfg : Config) : Nat := cfg.rows * cfg.fullPageSize

/-- Bytes of one block. -/
def Config.blockSize (cfg : Config) : Nat := cfg.pagesPerBlock * cfg.fullPageSize

/-- `row = block * PAGES_PER_BLOCK + page`, exactly (30_encoding.md R102). -/
def Config.rowOf (cfg : Config) (block : BitVec 16) (page : BitVec 8) : Nat :=
  block.toNat * cfg.pagesPerBlock + page.toNat

/-- The least significant `n` bytes of a number, least significant first. -/
def leBytes : Nat → Nat → List Byte
  | 0, _ => []
  | n + 1, v => BitVec.ofNat 8 v :: leBytes n (v / 256)

/-- The number a list of bytes stands for, least significant first: `sum over i of a[i] * 256^i` (20_memory.md R65). -/
def leNat : List Byte → Nat
  | [] => 0
  | b :: t => b.toNat + 256 * leNat t

/-- `ColBytes(col)` (30_encoding.md R103): `COL_CYCLES` is 1 or 2 (00_scope.md R9). -/
def Config.colBytes (cfg : Config) (col : Nat) : List Byte := leBytes cfg.colCycles col

/-- `RowBytes(row)` (30_encoding.md R104): `ROW_CYCLES` is 1 to 3 (00_scope.md R9). -/
def Config.rowBytes (cfg : Config) (row : Nat) : List Byte := leBytes cfg.rowCycles row

/-- The "full address" of a page: column cycles of column 0, then row cycles (30_encoding.md R105). -/
def Config.fullAddress (cfg : Config) (block : BitVec 16) (page : BitVec 8) : List Byte :=
  cfg.colBytes 0 ++ cfg.rowBytes (cfg.rowOf block page)

/-- The address of a block: the row of its page 0 (30_encoding.md R102, R105). -/
def Config.blockAddress (cfg : Config) (block : BitVec 16) : List Byte := cfg.rowBytes (cfg.rowOf block 0)

/-- The column the device reads from the latched address bytes (20_memory.md R65); none when their number is not that
of a full address. -/
def Config.decodeCol (cfg : Config) (a : List Byte) : Option Nat :=
  if a.length = cfg.colCycles + cfg.rowCycles then some (leNat (a.take cfg.colCycles)) else none

/-- Column and row of a read or program (20_memory.md R65); none where the rule leaves the device unspecified. -/
def Config.decodePage (cfg : Config) (a : List Byte) : Option (Nat × Nat) :=
  let col := leNat (a.take cfg.colCycles)
  let row := leNat (a.drop cfg.colCycles)
  if a.length = cfg.colCycles + cfg.rowCycles ∧ row < cfg.rows ∧ col < cfg.fullPageSize then some (col, row) else none

/-- Block of an erase (20_memory.md R65); none where the rule leaves the device unspecified. -/
def Config.decodeBlock (cfg : Config) (a : List Byte) : Option Nat :=
  if a.length = cfg.rowCycles ∧ leNat a < cfg.rows then some (leNat a / cfg.pagesPerBlock) else none

/-- Whether `(cs, block, kind)` is in INJECT (20_memory.md R74). -/
def Config.injected (cfg : Config) (c : BitVec 4) (block : Nat) (kind : OpKind) : Bool :=
  decide (Injection.mk c.toNat block kind ∈ cfg.inject)

/-- Every entry of an initial image lies inside it. -/
def Config.imageFits (cfg : Config) (m : List Host.Cell) : Bool := m.all (fun e => decide (e.1 < cfg.imageSize))

/-- The limits of a configuration (00_scope.md R6, R9, R10), one by one; IMAGE0 is given in canonical form and inside
its image. -/
def Config.limits (cfg : Config) : List Bool :=
  [decide (1 ≤ cfg.pageDataSize), decide (1 ≤ cfg.pagesPerBlock), decide (1 ≤ cfg.blocksPerCs),
   decide (1 ≤ cfg.numCs), decide (cfg.numCs ≤ 16), decide (cfg.blocksPerCs ≤ 65536),
   decide (cfg.pagesPerBlock ≤ 256), decide (1 ≤ cfg.colCycles), decide (cfg.colCycles ≤ 2),
   decide (1 ≤ cfg.rowCycles), decide (cfg.rowCycles ≤ 3), decide (cfg.rows ≤ 256 ^ cfg.rowCycles),
   decide (1 ≤ cfg.expectedId.length), cfg.readyTimeout.wf, decide cfg.commandList.Nodup,
   cfg.image0.all (fun m => Machine.Memory.wf m && cfg.imageFits m)]

/-- Whether a configuration meets its limits. -/
def Config.valid (cfg : Config) : Bool := cfg.limits.all id

namespace Machine

/-- How a check of 60_exceptions.md R193 ends a request. -/
inductive Ending where
  | respond (r : Resp)
  | raise (f : FaultCode)
  deriving DecidableEq, Repr

/-- `oor` of 60_exceptions.md R193; a page address outside its bounds is 00_scope.md R8. -/
def outOfRange (cfg : Config) (op cs : BitVec 4) (block : BitVec 16) (page : BitVec 8) : Bool :=
  decide (cfg.numCs ≤ cs.toNat) ||
  (decide (op = 2 ∨ op = 3 ∨ op = 4) && decide (cfg.blocksPerCs ≤ block.toNat)) ||
  (decide (op = 3 ∨ op = 4) && decide (cfg.pagesPerBlock ≤ page.toNat))

/-- The checks that run after acceptance and before any phase, the first that applies ending the request
(60_exceptions.md R193, R194). -/
def requestCheck (cfg : Config) (op cs : BitVec 4) (block : BitVec 16) (page : BitVec 8) (len : Nat) :
    Option Ending :=
  if ¬(op = 1 ∨ op = 2 ∨ op = 3 ∨ op = 4) then some (.raise .reservedRequest)
  else if op = 1 ∧ (block ≠ 0 ∨ page ≠ 0) then some (.raise .reservedRequest)
  else if op = 2 ∧ page ≠ 0 then some (.raise .reservedRequest)
  else if outOfRange cfg op cs block page = true ∧ op = 4 then some (.respond .absent)
  else if outOfRange cfg op cs block page = true then some (.raise .outOfRangeAddress)
  else if op = 3 ∧ len ≠ cfg.fullPageSize then some (.raise .badLength)
  else none

/-- A request ended by a check. -/
def State.finishCheck (s : State) : Ending → State
  | .respond r => s.respond r
  | .raise f => s.raise f

end Machine

end Sys2Proof
end

