-- ==== Sys2Proof/Machine/Flags.lean ====
section
/-! DEFINITION. The flag computations: the status interpreter (41_status.md) and the reference device's status byte
(20_memory.md R73). -/

namespace Sys2Proof.Machine

/-- `StatusPass(s) = ((s & STATUS_FAIL_MASK) = 0x00)` (41_status.md R151). -/
def statusPass (cfg : Config) (s : Byte) : Bool := decide (s &&& cfg.statusFailMask = 0)

/-- The flag *pass*, not stored (10_state.md R31). -/
def State.pass (s : State) : Bool := statusPass s.cfg s.statusReg

/-- `StatusByte(cs) = 0x60 | (0x80 if wp = 0) | (0x01 if fail[cs])` (20_memory.md R73).
PRESUMED (unsafe): the bit meanings are general knowledge (93 K6); log 33. -/
def statusByte (wp fail : Bool) : Byte :=
  0x60#8 ||| (if wp then 0x00#8 else 0x80#8) ||| (if fail then 0x01#8 else 0x00#8)

/-- The named fields of a status byte (41_status.md R150): a reading aid, on which no rule but R151 depends. -/
structure StatusFields where
  fail : Bool
  failc : Bool
  ardy : Bool
  rdy : Bool
  wpN : Bool
  deriving DecidableEq, Repr

/-- The fields of a status byte (41_status.md R150). -/
def statusFields (s : Byte) : StatusFields where
  fail := s.getLsbD 0
  failc := s.getLsbD 1
  ardy := s.getLsbD 5
  rdy := s.getLsbD 6
  wpN := s.getLsbD 7

end Sys2Proof.Machine
end

