-- ==== Sys2Proof/Machine/NandCommands.lean ====
section
/-! DEFINITION. The family NANDCMD: what each command cycle does to the selected die (20_memory.md R63 to R70 for the
reference device, R78 and 70_reset_and_hazards.md R228 for the general device). With no die selected a command cycle has
no effect (R60). -/

namespace Sys2Proof.Machine

/-! ### Where the spec leaves the device open -/

/-- The device in a state no rule covers, its mode `m`: status and `fail` are free, and a general die is unknown. -/
def State.leaveOpen (s : State) (m : Mode) (c : BitVec 4) (d : Die) : State :=
  (s.drew 2).setDie c { d with
    mode := m
    status := Config.freeByte s.draws
    fail := (Config.freeByte (s.draws + 1)).getLsbD 0
    unknown := d.unknown || decide (s.cfg.device = .general)
    pend := none
    latched := none }

/-- A command outside its rule: the mode is one no rule gives, in which every `DIN` byte is free (20_memory.md R70, R77;
93 U27, U28; log 13). -/
def State.undefine (s : State) (c : BitVec 4) (d : Die) : State := s.leaveOpen .undefined c d

/-- A mode the spec leaves open: any of the eight (93 U26; log 14). -/
def freeMode (draws : Nat) : Mode :=
  [Mode.idle, .id, .readSetup, .readData, .prog, .eraseSetup, .status].getD (Config.freeNat draws) .undefined

/-- A confirm command at an address the device cannot decode: everything the device keeps for this chip select is free,
its image, its mode, its buffers and what it has latched too (20_memory.md R65, 93 U26; log 14). -/
def State.undefineDie (s : State) (c : BitVec 4) (d : Die) : State :=
  let page := s.draws + s.cfg.imageSize
  let rest := page + 2 * s.cfg.fullPageSize
  (s.drew (s.cfg.imageSize + 2 * s.cfg.fullPageSize + 2)).leaveOpen (freeMode rest) c { d with
    image := Memory.writeBytes d.image 0 (freeBytes s.draws s.cfg.imageSize)
    pbuf := freeBytes page s.cfg.fullPageSize
    preg := freeBytes (page + s.cfg.fullPageSize) s.cfg.fullPageSize
    abuf := Config.freeList rest
    rptr := Config.freeNat (rest + 1) }

/-! ### The general device's program and erase (R78) -/

/-- A general die starts a program or erase that would store `bytes` at `off`: it goes busy (42_phases.md R163), and the
addressed bytes are free until the operation has ended with a passing status (20_memory.md R59, R78, 93 U16, U17), with
the write-protect line asserted too (93 U30; log 15, 19). -/
def State.startOperation (s : State) (c : BitVec 4) (d : Die) (off : Nat) (bytes : List Byte) : State :=
  (s.drew bytes.length).setDie c { d with
    image := Memory.writeBytes d.image off (freeBytes s.draws bytes.length)
    mode := .idle
    busy := true
    pend := if d.unknown = true then none else some ⟨off, bytes⟩
    latched := none }

/-! ### The eight command cycles -/

/-- A command cycle on the selected die (20_memory.md R60). -/
def State.commandCycle (s : State) (f : BitVec 4 → Die → State) : Host.Outcome State Fault Refusal :=
  s.onSelected (fun c d => f c (d.disturbed s.cfg))

/-- `CMD(CMD_READ_ID)` (20_memory.md R63). -/
def execCmdReadId (s : State) : Host.Outcome State Fault Refusal :=
  s.commandCycle (fun c d => s.setDie c { d with mode := .id, abuf := [], rptr := 0 })

/-- `CMD(CMD_READ_SETUP)` (20_memory.md R64). -/
def execCmdReadSetup (s : State) : Host.Outcome State Fault Refusal :=
  s.commandCycle (fun c d => s.setDie c { d with mode := .readSetup, abuf := [] })

/-- A page copied into the page register (20_memory.md R66); a general die goes busy (42_phases.md R163). -/
def Die.loadPage (cfg : Config) (d : Die) (col row : Nat) : Die :=
  { d with
    preg := Memory.readBytes d.image (row * cfg.fullPageSize) cfg.fullPageSize
    rptr := col
    mode := .readData
    busy := decide (cfg.device = .general)
    pend := none
    latched := none }

/-- `CMD(CMD_READ_CONFIRM)` (20_memory.md R66; R65, R70 where it is unspecified). -/
def execCmdReadConfirm (s : State) : Host.Outcome State Fault Refusal :=
  s.commandCycle (fun c d =>
    if d.mode = .readSetup then
      match s.cfg.decodePage d.abuf with
      | some (col, row) => s.setDie c (d.loadPage s.cfg col row)
      | none => s.undefineDie c d
    else s.undefine c d)

/-- `CMD(CMD_PROGRAM_SETUP)` (20_memory.md R64). -/
def execCmdProgramSetup (s : State) : Host.Outcome State Fault Refusal :=
  s.commandCycle (fun c d =>
    s.setDie c { d with mode := .prog, abuf := [], pbuf := fill s.cfg.fullPageSize 0xFF })

/-- The end of a reference device's program or erase: `fail`, the status byte, mode IDLE (20_memory.md R68, R69). -/
def Die.finish (d : Die) (wp fail : Bool) : Die :=
  { d with fail := fail, status := statusByte wp fail, mode := .idle }

/-- What a program of `row` stores: the page's bytes AND `pbuf` (20_memory.md R68, R78). -/
def Die.programmed (cfg : Config) (d : Die) (row : Nat) : List Byte :=
  andBytes (Memory.readBytes d.image (row * cfg.fullPageSize) cfg.fullPageSize) d.pbuf

/-- The reference device's program (20_memory.md R68). -/
def State.programReference (s : State) (c : BitVec 4) (d : Die) (row : Nat) : State :=
  if s.wp = true ∨ s.cfg.injected c (row / s.cfg.pagesPerBlock) .program = true then
    s.setDie c (d.finish s.wp true)
  else
    s.setDie c (Die.finish
      { d with image := Memory.writeBytes d.image (row * s.cfg.fullPageSize) (d.programmed s.cfg row) } s.wp false)

/-- `CMD(CMD_PROGRAM_CONFIRM)` (20_memory.md R68, R78; R65, R70 where it is unspecified). -/
def execCmdProgramConfirm (s : State) : Host.Outcome State Fault Refusal :=
  s.commandCycle (fun c d =>
    if d.mode = .prog then
      match s.cfg.decodePage d.abuf with
      | some (_, row) =>
        match s.cfg.device with
        | .reference => s.programReference c d row
        | .general => s.startOperation c d (row * s.cfg.fullPageSize) (d.programmed s.cfg row)
      | none => s.undefineDie c d
    else s.undefine c d)

/-- `CMD(CMD_ERASE_SETUP)` (20_memory.md R64). -/
def execCmdEraseSetup (s : State) : Host.Outcome State Fault Refusal :=
  s.commandCycle (fun c d => s.setDie c { d with mode := .eraseSetup, abuf := [] })

/-- The reference device's erase (20_memory.md R69). -/
def State.eraseReference (s : State) (c : BitVec 4) (d : Die) (block : Nat) : State :=
  if s.wp = true ∨ s.cfg.injected c block .erase = true then
    s.setDie c (d.finish s.wp true)
  else
    s.setDie c (Die.finish
      { d with image := Memory.writeBytes d.image (block * s.cfg.blockSize) (fill s.cfg.blockSize 0xFF) } s.wp false)

/-- `CMD(CMD_ERASE_CONFIRM)` (20_memory.md R69, R78; R65, R70 where it is unspecified). -/
def execCmdEraseConfirm (s : State) : Host.Outcome State Fault Refusal :=
  s.commandCycle (fun c d =>
    if d.mode = .eraseSetup then
      match s.cfg.decodeBlock d.abuf with
      | some block =>
        match s.cfg.device with
        | .reference => s.eraseReference c d block
        | .general => s.startOperation c d (block * s.cfg.blockSize) (fill s.cfg.blockSize 0xFF)
      | none => s.undefineDie c d
    else s.undefine c d)

/-- `CMD(CMD_READ_STATUS)` in any mode (20_memory.md R70). -/
def execCmdReadStatus (s : State) : Host.Outcome State Fault Refusal :=
  s.commandCycle (fun c d => s.setDie c { d with mode := .status, status := statusByte s.wp d.fail })

/-- A command byte that is none of the eight (20_memory.md R70, 93 U27). -/
def unknownCommandCycle (s : State) : Host.Outcome State Fault Refusal :=
  s.commandCycle (fun c d => s.undefine c d)

/-- One command cycle, by its byte (42_phases.md R163). -/
def commandByteCycle (b : Byte) (s : State) : Host.Outcome State Fault Refusal :=
  match nandCmdOf s.cfg b with
  | some .readId => execCmdReadId s
  | some .readSetup => execCmdReadSetup s
  | some .readConfirm => execCmdReadConfirm s
  | some .programSetup => execCmdProgramSetup s
  | some .programConfirm => execCmdProgramConfirm s
  | some .eraseSetup => execCmdEraseSetup s
  | some .eraseConfirm => execCmdEraseConfirm s
  | some .readStatus => execCmdReadStatus s
  | none => unknownCommandCycle s

end Sys2Proof.Machine
end

