-- ==== Sys2Proof/Machine/Phases.lean ====
section
/-! DEFINITION. The family PHASE: the eight driver phases (42_phases.md R160 to R167), each with what it does to the
controller's outputs and to the device, and what it hands back. -/

namespace Sys2Proof.Machine

/-- `SELECT c` (42_phases.md R160, 20_memory.md R62). -/
def performSelect (c : BitVec 4) (s : State) : PhaseResult :=
  if c.toNat < s.cfg.numCs then
    .ofEffect (.select c) (.next { s with csSel := some c, sel := some c })
  else .fault .absentDie

/-- `DESELECT` (42_phases.md R161, 20_memory.md R62). -/
def performDeselect (s : State) : PhaseResult :=
  let s0 := { s with csSel := none }
  .ofEffect .deselect
    (s0.onSelected (fun c d => { s0.setDie c { d with mode := .idle, abuf := [] } with sel := none }))

/-- `SET_WP v` (42_phases.md R162, 20_memory.md R62). -/
def performSetWp (v : Bool) (s : State) : PhaseResult :=
  .ofEffect (.setWp v) (.next { s with wpAsserted := v, wp := v })

/-- `CMD b` (42_phases.md R163). -/
def performCmd (b : Byte) (s : State) : PhaseResult :=
  .ofEffect (.cmd b) (commandByteCycle b s)

/-- `ADDR a0 a1 ...` (42_phases.md R164, 20_memory.md R63). -/
def performAddr (l : List Byte) (s : State) : PhaseResult :=
  .ofEffect (.addr l) (s.onSelected (fun c d =>
    let d := d.disturbed s.cfg
    s.setDie c { d with abuf := d.abuf ++ l }))

/-- Bytes stored into a page buffer from a column; bytes beyond the page are dropped (20_memory.md R67). -/
def storeColumns : List Byte → Nat → List Byte → List Byte
  | buf, _, [] => buf
  | buf, col, b :: t => storeColumns (buf.set col b) (col + 1) t

/-- `DOUT d0 d1 ...` (42_phases.md R165, 20_memory.md R67; R65, R77 where the column cannot be read). -/
def performDout (l : List Byte) (s : State) : PhaseResult :=
  .ofEffect (.dout l) (s.onSelected (fun c d =>
    let d := d.disturbed s.cfg
    if d.mode = .prog then
      match s.cfg.decodeCol d.abuf with
      | some col => s.setDie c { d with pbuf := storeColumns d.pbuf col l }
      | none => s.undefine c d
    else s.setDie c d))

/-! ### `DIN` (42_phases.md R166) -/

/-- The bytes a rule gives, then free bytes up to `n` (20_memory.md R72; log 11). -/
def State.padFree (s : State) (known : List Byte) (n : Nat) : List Byte × State :=
  (known ++ freeBytes s.draws (n - known.length), s.drew (n - known.length))

/-- The general device's bytes for a `DIN` that no law fixes: those supplied from outside, else free ones; none where
the answer breaks the driver port contract (93 U12, U15; log 12, 25). -/
def State.answerBytes (s : State) (n : Nat) : Option (List Byte × State) :=
  match s.answers with
  | [] => some (freeBytes s.draws n, s.drew n)
  | .bytes l :: rest => if l.length = n then some (l, { s with answers := rest }) else none
  | .ready _ :: _ => none
  | .timeout :: _ => none

/-- The bytes 20_memory.md R72 fixes of a `DIN(n)`, by mode. -/
def Die.knownBytes (cfg : Config) (d : Die) (n : Nat) : List Byte :=
  match d.mode with
  | .id => if d.abuf = [cfg.idAddr] then (cfg.expectedId.drop d.rptr).take n else []
  | .readData => (d.preg.drop d.rptr).take n
  | .status => fill n d.status
  | .idle => []
  | .readSetup => []
  | .prog => []
  | .eraseSetup => []
  | .undefined => []

/-- The die after a `DIN(n)`: `rptr` moves on in the modes ID and READ_DATA (20_memory.md R72). -/
def Die.afterDin (d : Die) (n : Nat) : Die :=
  match d.mode with
  | .id => { d with rptr := d.rptr + n }
  | .readData => { d with rptr := d.rptr + n }
  | .status => { d with latched := none }
  | .idle => d
  | .readSetup => d
  | .prog => d
  | .eraseSetup => d
  | .undefined => d

/-- What fixes a general die's bytes: the page read into its page register (20_memory.md R78), and the status byte its
last operation ended with; none where every byte is a draw (93 U15, U18). -/
def Die.lawBytes (d : Die) (n : Nat) : Option (List Byte) :=
  if d.unknown = true then none
  else match d.mode with
    | .readData => some ((d.preg.drop d.rptr).take n)
    | .status => d.latched.map (fun st => [st].take n)
    | .id => none
    | .idle => none
    | .readSetup => none
    | .prog => none
    | .eraseSetup => none
    | .undefined => none

/-- The bytes the selected die answers a `DIN(n)` with, and the machine after it. -/
def State.dieBytes (s : State) (d : Die) (n : Nat) : Option (List Byte × State) :=
  match s.cfg.device with
  | .reference => some (s.padFree (d.knownBytes s.cfg n) n)
  | .general =>
    match d.lawBytes n with
    | some l => some (s.padFree l n)
    | none => s.answerBytes n

/-- The bytes of a `DIN(n)` with no die selected: unspecified (20_memory.md R72). -/
def State.noDieBytes (s : State) (n : Nat) : Option (List Byte × State) :=
  match s.cfg.device with
  | .reference => some (s.padFree [] n)
  | .general => s.answerBytes n

/-- `DIN n` (42_phases.md R166, 20_memory.md R72). -/
def performDin (n : Nat) (s : State) : PhaseResult :=
  match s.sel with
  | none =>
    match s.noDieBytes n with
    | some (l, s') => .done (.bytes l) (s'.logPhase (.din n) (.bytes l))
    | none => .refused .driverContract
  | some c =>
    match s.dies[c.toNat]? with
    | none => .fault .absentDie
    | some d0 =>
      let d := d0.disturbed s.cfg
      match s.dieBytes d n with
      | some (l, s') => .done (.bytes l) ((s'.setDie c (d.afterDin n)).logPhase (.din n) (.bytes l))
      | none => .refused .driverContract

/-! ### `WAIT_RDY` (42_phases.md R167) -/

/-- How the general device answers a wait: the status byte of a die that became ready, or that it stayed busy. -/
inductive WaitAnswer where
  | ready (status : Byte)
  | busy
  deriving DecidableEq, Repr

/-- The general device's answer to a wait that nothing fixes: supplied from outside, else free; none where it breaks the
driver port contract (93 U12, U14; log 12, 25). -/
def State.answerWait (s : State) : Option (WaitAnswer × State) :=
  match s.answers with
  | [] => some (if Config.freeReady s.draws = true then .ready (Config.freeByte s.draws) else .busy, s.drew 1)
  | .ready st :: rest => some (.ready st, { s with answers := rest })
  | .timeout :: rest => some (.busy, { s with answers := rest })
  | .bytes _ :: _ => none

/-- A die whose operation has ended with status byte `st`: a passing program or erase has its array effect
(20_memory.md R59, R78), a failing one leaves the bytes free (93 U16); an unknown die stays unknown (70 R228). -/
def Die.becomeReady (cfg : Config) (d : Die) (st : Byte) : Die :=
  if d.unknown = true then { d with busy := false, pend := none, latched := none }
  else match d.pend with
    | some p =>
      { d with
        busy := false
        latched := some st
        pend := none
        image := if statusPass cfg st = true then Memory.writeBytes d.image p.off p.bytes else d.image }
    | none => { d with busy := false, latched := some st }

/-- A die whose wait timed out: its operation's array effect is not known, and every later answer of it is a draw
(20_memory.md R59, 70_reset_and_hazards.md R228). -/
def Die.timedOut (d : Die) : Die := { d with unknown := true, pend := none, latched := none }

/-- The end of a wait answered by the general device, for the die it was made on, if any. -/
def finishWait (bound : ReadyBound) (target : Option (BitVec 4 × Die)) : WaitAnswer × State → PhaseResult
  | (.ready st, s) =>
    .done .ready (State.logPhase (match target with
      | some (c, d) => s.setDie c (d.becomeReady s.cfg st)
      | none => s) (.waitRdy bound) .ready)
  | (.busy, s) =>
    match bound with
    | .inf => .hold s
    | .polls _ => .done .timeout (State.logPhase (match target with
        | some (c, d) => s.setDie c d.timedOut
        | none => s) (.waitRdy bound) .timeout)

/-- `WAIT_RDY` on the general device: READY at once if the die is ready, else as the device answers (42_phases.md R167);
the answer of an unknown die is a draw (70_reset_and_hazards.md R228). -/
def waitGeneral (bound : ReadyBound) (s : State) : PhaseResult :=
  match s.sel with
  | none =>
    match s.answerWait with
    | some a => finishWait bound none a
    | none => .refused .driverContract
  | some c =>
    match s.dies[c.toNat]? with
    | none => .fault .absentDie
    | some d =>
      if d.busy = false ∧ d.unknown = false then .done .ready (s.logPhase (.waitRdy bound) .ready)
      else match s.answerWait with
        | some a => finishWait bound (some (c, d)) a
        | none => .refused .driverContract

/-- `WAIT_RDY` with its bound (42_phases.md R167); the reference device is never busy (20_memory.md R71). -/
def performWaitRdy (bound : ReadyBound) (s : State) : PhaseResult :=
  match s.cfg.device with
  | .reference => .done .ready (s.logPhase (.waitRdy bound) .ready)
  | .general => waitGeneral bound s

/-! ### One phase, and the eight instructions -/

/-- `Phase K(args)` of 00_scope.md R12. -/
def perform : Phase → State → PhaseResult
  | .select c, s => performSelect c s
  | .deselect, s => performDeselect s
  | .setWp v, s => performSetWp v s
  | .cmd b, s => performCmd b s
  | .addr l, s => performAddr l s
  | .dout l, s => performDout l s
  | .din n, s => performDin n s
  | .waitRdy t, s => performWaitRdy t s

/-- The instruction SELECT (42_phases.md R160). -/
def execSelect (c : BitVec 4) (s : State) : Host.Outcome State Fault Refusal :=
  (performSelect c s).outcome (.select c)

/-- The instruction DESELECT (42_phases.md R161). -/
def execDeselect (s : State) : Host.Outcome State Fault Refusal :=
  (performDeselect s).outcome .deselect

/-- The instruction SET_WP (42_phases.md R162). -/
def execSetWp (v : Bool) (s : State) : Host.Outcome State Fault Refusal :=
  (performSetWp v s).outcome (.setWp v)

/-- The instruction CMD (42_phases.md R163). -/
def execCmd (b : Byte) (s : State) : Host.Outcome State Fault Refusal :=
  (performCmd b s).outcome (.cmd b)

/-- The instruction ADDR (42_phases.md R164). -/
def execAddr (l : List Byte) (s : State) : Host.Outcome State Fault Refusal :=
  (performAddr l s).outcome (.addr l)

/-- The instruction DOUT (42_phases.md R165). -/
def execDout (l : List Byte) (s : State) : Host.Outcome State Fault Refusal :=
  (performDout l s).outcome (.dout l)

/-- The instruction DIN (42_phases.md R166). -/
def execDin (n : Nat) (s : State) : Host.Outcome State Fault Refusal :=
  (performDin n s).outcome (.din n)

/-- The instruction WAIT_RDY (42_phases.md R167). -/
def execWaitRdy (bound : ReadyBound) (s : State) : Host.Outcome State Fault Refusal :=
  (performWaitRdy bound s).outcome (.waitRdy bound)

end Sys2Proof.Machine
end

