-- ==== Sys2Proof/Machine/Requests.lean ====
section
/-! DEFINITION. The family REQ: the four request operations (40_operations.md). The meaning of a request is one step of
the request in progress: at `phase_pc` 0 first the checks, then the phase at `phase_pc`, after the last phase the
response, and after a TIMEOUT the cleanup path (R120, 60_exceptions.md R193, R196). -/

namespace Sys2Proof.Machine

/-! ### Shared sequencing -/

/-- The cleanup paths of 60_exceptions.md R196. -/
inductive CleanupPath where
  /-- The operation waits for nothing. -/
  | never
  /-- `CLEANUP_CS`: one phase, index 13. -/
  | deselect
  /-- `CLEANUP_WP`: two phases, indices 12 and 13. -/
  | protect
  deriving DecidableEq, Repr

/-- The first index of a cleanup path (10_state.md R22, 60_exceptions.md R196). -/
def CleanupPath.entry : CleanupPath → BitVec 4
  | .never => 14
  | .deselect => 13
  | .protect => 12

/-- The controller's part when a phase is over: bind its result, and move `phase_pc` (10_state.md R22). -/
def settle (store : List Byte → State → State) (path : CleanupPath) :
    PhaseResult → Host.Outcome State Fault Refusal
  | .done .unit s => .next s.bumpPc
  | .done (.bytes l) s => .next (store l s).bumpPc
  | .done .ready s => .next s.bumpPc
  | .done .timeout s => .next (s.goto path.entry)
  | .hold s => .next s
  | .fault f => .fault f
  | .refused r => .refused r

/-- A request that reads no bytes stores none. -/
def storeNothing (_ : List Byte) (s : State) : State := s

/-- A step on a cleanup path: its phases, then `raise DeviceTimeout` (60_exceptions.md R196). -/
def cleanupStep (path : CleanupPath) (s : State) : Host.Outcome State Fault Refusal :=
  match path, s.phasePc.toNat with
  | .protect, 12 => settle storeNothing path (perform (.setWp true) s)
  | .protect, 13 => settle storeNothing path (perform .deselect s)
  | .protect, 14 => .next (s.raise .deviceTimeout)
  | .deselect, 13 => settle storeNothing path (perform .deselect s)
  | .deselect, 14 => .next (s.raise .deviceTimeout)
  | _, _ => .fault .phaseCounter

/-- A step of an operation's phase list: the phase at `phase_pc`, the response after the last one, or a step of the
cleanup path (40_operations.md R120, 10_state.md R22). -/
def listStep (phases : List Phase) (store : List Byte → State → State) (path : CleanupPath)
    (finish : State → Resp) (s : State) : Host.Outcome State Fault Refusal :=
  match phases[s.phasePc.toNat]? with
  | some p => settle store path (perform p s)
  | none =>
    if s.phasePc.toNat = phases.length then .next (s.respond (finish s)) else cleanupStep path s

/-- The checks before the first phase (40_operations.md R120, 60_exceptions.md R193). -/
def afterChecks (check : Option Ending) (s : State) (k : Host.Outcome State Fault Refusal) :
    Host.Outcome State Fault Refusal :=
  if s.phasePc = 0 then
    match check with
    | some e => .next (s.finishCheck e)
    | none => k
  else k

/-- `idbuf <- DIN` (40_operations.md R121). -/
def storeId (l : List Byte) (s : State) : State := { s with idbuf := l }

/-- `status_reg <- DIN(1)[0]` (40_operations.md R124, R127). -/
def storeStatus (l : List Byte) (s : State) : State := { s with statusReg := l.headD s.statusReg }

/-- `dbuf <- DIN` (40_operations.md R130). -/
def storePage (l : List Byte) (s : State) : State := { s with dbuf := l }

/-! ### IDENTIFY -/

/-- The phase list of IDENTIFY (40_operations.md R121). -/
def identifyPhases (cfg : Config) (cs : BitVec 4) : List Phase :=
  [.select cs, .cmd cfg.cmds.readId, .addr [cfg.idAddr], .din cfg.idLen, .deselect]

/-- `IDENTIFY cs` (40_operations.md R121, R122). -/
def execIdentify (cs : BitVec 4) (s : State) : Host.Outcome State Fault Refusal :=
  afterChecks (requestCheck s.cfg 1 cs 0 0 s.reqLen) s
    (listStep (identifyPhases s.cfg cs) storeId .never (fun s => .id s.idbuf) s)

/-! ### ERASE_BLOCK -/

/-- The phase list of ERASE_BLOCK (40_operations.md R124). -/
def eraseBlockPhases (cfg : Config) (cs : BitVec 4) (block : BitVec 16) : List Phase :=
  [.select cs, .setWp false, .cmd cfg.cmds.eraseSetup, .addr (cfg.blockAddress block), .cmd cfg.cmds.eraseConfirm,
   .waitRdy cfg.readyTimeout, .cmd cfg.cmds.readStatus, .din 1, .setWp true, .deselect]

/-- `ERASE_BLOCK cs, block` (40_operations.md R123 to R125). -/
def execEraseBlock (cs : BitVec 4) (block : BitVec 16) (s : State) : Host.Outcome State Fault Refusal :=
  afterChecks (requestCheck s.cfg 2 cs block 0 s.reqLen) s
    (listStep (eraseBlockPhases s.cfg cs block) storeStatus .protect (fun s => .ok s.pass) s)

/-! ### PROGRAM_PAGE -/

/-- The phase list of PROGRAM_PAGE with the payload `data` (40_operations.md R127). -/
def programPagePhases (cfg : Config) (cs : BitVec 4) (block : BitVec 16) (page : BitVec 8) (data : List Byte) :
    List Phase :=
  [.select cs, .setWp false, .cmd cfg.cmds.programSetup, .addr (cfg.fullAddress block page), .dout data,
   .cmd cfg.cmds.programConfirm, .waitRdy cfg.readyTimeout, .cmd cfg.cmds.readStatus, .din 1, .setWp true, .deselect]

/-- `PROGRAM_PAGE cs, block, page, data` with `data = dbuf` (40_operations.md R123, R126 to R128). -/
def execProgramPage (cs : BitVec 4) (block : BitVec 16) (page : BitVec 8) (s : State) :
    Host.Outcome State Fault Refusal :=
  afterChecks (requestCheck s.cfg 3 cs block page s.reqLen) s
    (listStep (programPagePhases s.cfg cs block page s.dbuf) storeStatus .protect (fun s => .ok s.pass) s)

/-! ### READ_PAGE -/

/-- The phase list of READ_PAGE (40_operations.md R130). -/
def readPagePhases (cfg : Config) (cs : BitVec 4) (block : BitVec 16) (page : BitVec 8) : List Phase :=
  [.select cs, .cmd cfg.cmds.readSetup, .addr (cfg.fullAddress block page), .cmd cfg.cmds.readConfirm,
   .waitRdy cfg.readyTimeout, .din cfg.fullPageSize, .deselect]

/-- `READ_PAGE cs, block, page` (40_operations.md R129 to R131). -/
def execReadPage (cs : BitVec 4) (block : BitVec 16) (page : BitVec 8) (s : State) :
    Host.Outcome State Fault Refusal :=
  afterChecks (requestCheck s.cfg 4 cs block page s.reqLen) s
    (listStep (readPagePhases s.cfg cs block page) storePage .deselect (fun s => .page s.dbuf) s)

end Sys2Proof.Machine
end

