-- ==== Sys2Proof/Machine/Dispatch.lean ====
section
/-! DEFINITION. One arm per instruction. -/

namespace Sys2Proof.Machine

def exec (i : Instr) (s : State) : Host.Outcome State Fault Refusal :=
  match i with
  -- REQ: one step of the request in progress (40_operations.md)
  | .identify cs => Sys2Proof.Machine.execIdentify cs s
  | .eraseBlock cs block => Sys2Proof.Machine.execEraseBlock cs block s
  | .programPage cs block page => Sys2Proof.Machine.execProgramPage cs block page s
  | .readPage cs block page => Sys2Proof.Machine.execReadPage cs block page s
  -- PHASE (42_phases.md)
  | .select cs => Sys2Proof.Machine.execSelect cs s
  | .deselect => Sys2Proof.Machine.execDeselect s
  | .setWp v => Sys2Proof.Machine.execSetWp v s
  | .cmd b => Sys2Proof.Machine.execCmd b s
  | .addr bytes => Sys2Proof.Machine.execAddr bytes s
  | .dout bytes => Sys2Proof.Machine.execDout bytes s
  | .din n => Sys2Proof.Machine.execDin n s
  | .waitRdy bound => Sys2Proof.Machine.execWaitRdy bound s
  -- NANDCMD (30_encoding.md R100)
  | .cmdReadId => Sys2Proof.Machine.execCmdReadId s
  | .cmdReadSetup => Sys2Proof.Machine.execCmdReadSetup s
  | .cmdReadConfirm => Sys2Proof.Machine.execCmdReadConfirm s
  | .cmdProgramSetup => Sys2Proof.Machine.execCmdProgramSetup s
  | .cmdProgramConfirm => Sys2Proof.Machine.execCmdProgramConfirm s
  | .cmdEraseSetup => Sys2Proof.Machine.execCmdEraseSetup s
  | .cmdEraseConfirm => Sys2Proof.Machine.execCmdEraseConfirm s
  | .cmdReadStatus => Sys2Proof.Machine.execCmdReadStatus s

end Sys2Proof.Machine
end

