-- ==== Sys2Proof/Machine/Fetch.lean ====
section
/-! DEFINITION. Where a word waits for the step: a request in the latch, a phase record or a command byte driven at the
device directly. Used by `State.withFetchWord` only. -/

namespace Sys2Proof.Machine

/-- A request placed in the latch as if it had just been accepted (10_state.md R33), with a payload of zeros of the
right length for PROGRAM_PAGE and none otherwise (log 6). -/
def State.placeRequest (s : State) (w : BitVec 32) : State :=
  { s with
    ctl := .busy
    phasePc := 0
    reqOp := wordOp w
    reqCs := wordCs w
    reqBlock := wordBlock w
    reqPage := wordPage w
    reqLen := if wordOp w = 3 then s.cfg.fullPageSize else 0
    dbuf := if wordOp w = 3 then fill s.cfg.fullPageSize 0 else s.dbuf
    resp := .none
    rst := false
    bench := [] }

/-- The byte that stands in this machine's configuration for the command cycle a default command byte names. -/
def State.ownCommandByte (s : State) (b : Byte) : Byte :=
  match nandCmdOf Config.tcfg b with
  | some k => s.cfg.commandByte k
  | none => b

/-- A word of the opcode table placed where the next step takes it. -/
def State.placeWord (s : State) (nbits w : Nat) : State :=
  match tableWord nbits w with
  | some (.request rw) => s.placeRequest rw
  | some (.phase r) => { s with rst := false, bench := [.phase r] }
  | some (.command b) => { s with rst := false, bench := [.command (s.ownCommandByte b)] }
  | none => s

end Sys2Proof.Machine
end

