-- ==== Sys2Proof/Machine/Step.lean ====
section
/-! DEFINITION. One step of the machine (00_scope.md R2): reset, a word driven at the device directly, one step of the
request in progress, or an idle controller's turn. -/

namespace Sys2Proof.Machine

/-- A word driven at the device directly (95_test_vectors.md section 3.8). -/
def runBench (item : BenchItem) (s : State) : Host.Outcome State Fault Refusal :=
  match item with
  | .phase r => match decodePhase r with
    | .ok i => exec i s
    | .error _ => .refused .badPhaseRecord
  | .command b => match decodeCommand s.cfg b with
    | .ok i => exec i s
    | .error _ => unknownCommandCycle s

/-- A busy controller's step: the request in the latch, or FAULT(ReservedRequest) where the latch holds none
(40_operations.md R120, 60_exceptions.md R193). -/
def runRequest (s : State) : Host.Outcome State Fault Refusal :=
  match s.latched with
  | .ok i => exec i s
  | .error _ => .next (s.raise .reservedRequest)

/-- One step (00_scope.md R2). -/
def step (s : State) : Host.Outcome State Fault Refusal :=
  if s.cfg.valid = true then
    if s.rst = true then .next s.applyReset
    else match s.bench with
      | item :: rest => runBench item { s with bench := rest }
      | [] => match s.ctl with
        | .busy => runRequest s
        | .idle => .next s.idleTurn
  else .refused .badConfiguration

/-- The state whose next step runs a word of the opcode table (log 6, 10). -/
def State.withFetchWord (s : State) (nbits w : Nat) : State := s.placeWord nbits w

end Sys2Proof.Machine
end

