-- ==== Sys2Proof/Machine/Text.lean ====
section
/-! DEFINITION. The spec's two text forms: a request as a host writes it (30_encoding.md R106) and a phase trace
(R107). Nothing in the machine reads them. -/

namespace Sys2Proof.Machine

/-! ### Requests (R106) -/

/-- The two forms of a written payload. -/
inductive PayloadForm where
  /-- `fill(b)`: every byte of the page is `b`. -/
  | fill (b : Byte)
  /-- `[b0, b1, ...]`: an explicit list of any length. -/
  | list (l : List Byte)
  deriving DecidableEq, Repr

/-- The bytes of a written payload. -/
def PayloadForm.bytes (cfg : Config) : PayloadForm → List Byte
  | .fill b => Sys2Proof.fill cfg.fullPageSize b
  | .list l => l

/-- A request as a host writes it: there are no pseudo-instructions. -/
inductive WrittenRequest where
  | identify (cs : BitVec 4)
  | eraseBlock (cs : BitVec 4) (block : BitVec 16)
  | programPage (cs : BitVec 4) (block : BitVec 16) (page : BitVec 8) (payload : PayloadForm)
  | readPage (cs : BitVec 4) (block : BitVec 16) (page : BitVec 8)
  deriving DecidableEq, Repr

/-- The encoding `(OP << 28) | (cs << 24) | (block << 8) | page` with unused fields 0. -/
def shiftWord (op : Nat) (cs : BitVec 4) (block : BitVec 16) (page : BitVec 8) : BitVec 32 :=
  (BitVec.ofNat 32 op <<< 28) ||| (cs.setWidth 32 <<< 24) ||| (block.setWidth 32 <<< 8) ||| page.setWidth 32

/-- What a host puts on the request port for a written request (R106; 10_state.md R32). -/
def WrittenRequest.request (cfg : Config) : WrittenRequest → Request
  | .identify cs => ⟨shiftWord 1 cs 0 0, []⟩
  | .eraseBlock cs block => ⟨shiftWord 2 cs block 0, []⟩
  | .programPage cs block page payload => ⟨shiftWord 3 cs block page, payload.bytes cfg⟩
  | .readPage cs block page => ⟨shiftWord 4 cs block page, []⟩

/-- The instruction a written request stands for. -/
def WrittenRequest.instr : WrittenRequest → Instr
  | .identify cs => .identify cs
  | .eraseBlock cs block => .eraseBlock cs block
  | .programPage cs block page _ => .programPage cs block page
  | .readPage cs block page => .readPage cs block page

/-! ### Characters -/

/-- Texts joined with a separator between them. -/
def joinText (sep : String) : List String → String
  | [] => ""
  | [t] => t
  | t :: rest => t ++ sep ++ joinText sep rest

/-- One hexadecimal digit. -/
def hexDigit (d : BitVec 4) : String :=
  ["0", "1", "2", "3", "4", "5", "6", "7", "8", "9", "A", "B", "C", "D", "E", "F"].getD d.toNat ""

/-- A byte as two hexadecimal digits. -/
def hexByte (b : Byte) : String := hexDigit (b.extractLsb' 4 4) ++ hexDigit (b.extractLsb' 0 4)

/-- Bytes in hexadecimal, a blank between them. -/
def hexBytes (l : List Byte) : String := joinText " " (l.map hexByte)

/-- Operands in decimal, a comma between them. -/
def operands (l : List Nat) : String := joinText ", " (l.map Nat.repr)

/-- The text of a payload. -/
def PayloadForm.text : PayloadForm → String
  | .fill b => "fill(0x" ++ hexByte b ++ ")"
  | .list l => "[" ++ joinText ", " (l.map (fun b => "0x" ++ hexByte b)) ++ "]"

/-- The text of a request (R106). -/
def WrittenRequest.text : WrittenRequest → String
  | .identify cs => "IDENTIFY " ++ operands [cs.toNat]
  | .eraseBlock cs block => "ERASE_BLOCK " ++ operands [cs.toNat, block.toNat]
  | .programPage cs block page payload =>
    "PROGRAM_PAGE " ++ operands [cs.toNat, block.toNat, page.toNat] ++ ", " ++ payload.text
  | .readPage cs block page => "READ_PAGE " ++ operands [cs.toNat, block.toNat, page.toNat]

/-! ### Phase traces (R107) -/

/-- The text of a phase. -/
def Phase.text : Phase → String
  | .select c => "SELECT " ++ Nat.repr c.toNat
  | .deselect => "DESELECT"
  | .setWp v => "SET_WP " ++ (if v then "1" else "0")
  | .cmd b => "CMD 0x" ++ hexByte b
  | .addr l => "ADDR " ++ hexBytes l
  | .dout l => "DOUT " ++ hexBytes l
  | .din n => "DIN " ++ Nat.repr n
  | .waitRdy _ => "WAIT_RDY"

/-- The text of a completion: nothing for a phase that hands nothing back. -/
def Completion.text : Completion → String
  | .unit => ""
  | .bytes l => " -> [" ++ hexBytes l ++ "]"
  | .ready => " -> READY"
  | .timeout => " -> TIMEOUT"

/-- One line of a phase trace (R107). -/
def TraceEntry.text (e : TraceEntry) : String := Phase.text e.phase ++ Completion.text e.completion

/-- The phase trace since the last acceptance, one phase per line (R107). -/
def State.traceText (s : State) : List String := s.trace.map TraceEntry.text

end Sys2Proof.Machine
end

