-- ==== Sys2Proof/Safety.lean ====
section
/-! DEFINITION. What counts as a legal state of the machine, and what claims read from it. -/

namespace Sys2Proof

/-- The payload lengths of a response (10_state.md R27). -/
def Resp.wf (cfg : Config) : Resp → Prop
  | .none => True
  | .id l => l.length = cfg.idLen
  | .ok _ => True
  | .page l => l.length = cfg.fullPageSize
  | .absent => True
  | .fault _ => True

/-- `cs_sel` after a phase (10_state.md R28). -/
def Phase.nextCsSel : Phase → Option (BitVec 4) → Option (BitVec 4)
  | .select c, _ => some c
  | .deselect, _ => none
  | _, x => x

/-- `wp_asserted` and the device's `wp` after a phase (10_state.md R29). -/
def Phase.nextWp : Phase → Bool → Bool
  | .setWp v, _ => v
  | _, x => x

/-- The device's `sel` after a phase (20_memory.md R62). -/
def Phase.nextSel : Phase → Option (BitVec 4) → Option (BitVec 4)
  | .select c, _ => some c
  | .deselect, _ => none
  | _, x => x

/-- Whether a phase is the confirm command of a program or erase (30_encoding.md R100). -/
def Phase.confirms (cfg : Config) : Phase → Bool
  | .cmd b => decide (nandCmdOf cfg b = some .programConfirm ∨ nandCmdOf cfg b = some .eraseConfirm)
  | _ => false

/-- Whether a phase is a ready wait. -/
def Phase.waits : Phase → Bool
  | .waitRdy _ => true
  | _ => false

/-- What a phase hands back (30_encoding.md R96). -/
def Phase.Completes : Phase → Completion → Prop
  | .din n, r => ∃ l : List Byte, r = .bytes l ∧ l.length = n
  | .waitRdy _, r => r = .ready ∨ r = .timeout
  | _, r => r = .unit

end Sys2Proof

namespace Sys2Proof.Machine

/-- One byte of the page space of a chip select (20_memory.md R50, R56). -/
def State.imageByte (s : State) (c a : Nat) : Option Byte := s.dies[c]?.map (fun d => Memory.read d.image a)

/-- The selected die is in mode READ_SETUP with an address it cannot decode, at which CMD_READ_CONFIRM leaves all of the die
open (20_memory.md R65, 93 U26; log 14). -/
def State.readsNowhere (s : State) : Bool :=
  match s.sel with
  | none => false
  | some c => match s.dies[c.toNat]? with
    | none => false
    | some d => decide (d.mode = .readSetup) && (s.cfg.decodePage d.abuf).isNone

/-- Whether a command cycle may change the array: the confirm of a program or erase, and the confirm of a read at an
address the die cannot decode. -/
def State.stores (s : State) (k : NandCmd) : Bool :=
  decide (k = .programConfirm ∨ k = .eraseConfirm) || (decide (k = .readConfirm) && s.readsNowhere)

/-- Whether a phase is a command cycle that may change the array. -/
def State.storesIn (s : State) : Phase → Bool
  | .cmd b => (nandCmdOf s.cfg b).any s.stores
  | _ => false

/-- The mode and the address bytes of the selected die before the phase at an index: what the setup command and the ADDR
of a phase list have latched, up to its confirm or its DIN of the identifier (20_memory.md R63, R64; 40_operations.md R121,
R124, R127, R130). -/
def latchAt (cfg : Config) (op : BitVec 4) (block : BitVec 16) (page : BitVec 8) (pc : Nat) : Option (Mode × List Byte) :=
  match op.toNat, pc with
  | 1, 2 => some (.id, [])
  | 1, 3 => some (.id, [cfg.idAddr])
  | 2, 3 => some (.eraseSetup, [])
  | 2, 4 => some (.eraseSetup, cfg.blockAddress block)
  | 3, 3 => some (.prog, [])
  | 3, 4 => some (.prog, cfg.fullAddress block page)
  | 3, 5 => some (.prog, cfg.fullAddress block page)
  | 4, 2 => some (.readSetup, [])
  | 4, 3 => some (.readSetup, cfg.fullAddress block page)
  | _, _ => none

/-- The length of an operation's phase list (40_operations.md R132). -/
def phaseCount (op : BitVec 4) : Nat :=
  match op.toNat with
  | 1 => 5
  | 2 => 10
  | 3 => 11
  | 4 => 7
  | _ => 0

/-- The indices `phase_pc` takes in a request (10_state.md R22, 60_exceptions.md R196). -/
def legalPc (op : BitVec 4) (pc : Nat) : Bool :=
  decide (pc ≤ phaseCount op) ||
  (decide (op = 2 ∨ op = 3) && decide (12 ≤ pc ∧ pc ≤ 14)) ||
  (decide (op = 4) && decide (13 ≤ pc ∧ pc ≤ 14))

/-- The indices before which a die is selected: after `SELECT` and before the end of `DESELECT` (42_phases.md R160,
R161). -/
def selectedAt (op : BitVec 4) (pc : Nat) : Bool :=
  decide (1 ≤ pc ∧ pc < phaseCount op) || decide (pc = 12 ∨ pc = 13)

/-- The indices before which write protection is released: after `SET_WP(0)` and before the end of `SET_WP(1)`
(10_state.md R29). -/
def releasedAt (op : BitVec 4) (pc : Nat) : Bool :=
  match op.toNat with
  | 2 => decide (2 ≤ pc ∧ pc ≤ 8) || decide (pc = 12)
  | 3 => decide (2 ≤ pc ∧ pc ≤ 9) || decide (pc = 12)
  | _ => false

/-- A die holds what 20_memory.md R60 says: an image in canonical form inside its address space, buffers of a page. -/
structure Die.Wf (cfg : Config) (d : Die) : Prop where
  canonical : Memory.wf d.image = true
  inside : cfg.imageFits d.image = true
  pbuf : d.pbuf.length = cfg.fullPageSize
  preg : d.preg.length = cfg.fullPageSize
  pend : ∀ p, d.pend = some p → p.off + p.bytes.length ≤ cfg.imageSize

/-- The checks of 60_exceptions.md R193 on the latch. -/
def State.latchCheck (s : State) : Option Ending :=
  requestCheck s.cfg s.reqOp s.reqCs s.reqBlock s.reqPage s.reqLen

/-- A legal state of the machine as it is wired, with nothing driven at the device directly. -/
structure State.Inv (s : State) : Prop where
  /-- 00_scope.md R10. -/
  cfg : s.cfg.valid = true
  bench : s.bench = []
  /-- One die per chip select (20_memory.md R60). -/
  dies : s.dies.length = s.cfg.numCs
  diesWf : ∀ d ∈ s.dies, Die.Wf s.cfg d
  /-- 10_state.md R24. -/
  dbuf : s.dbuf.length = s.cfg.fullPageSize
  /-- 10_state.md R25. -/
  idbuf : s.idbuf.length = s.cfg.idLen
  /-- 10_state.md R27. -/
  resp : Resp.wf s.cfg s.resp
  /-- The write-protect line the dice see is the controller's output (10_state.md R29, 60_exceptions.md R200). -/
  wpLine : s.wp = s.wpAsserted
  /-- The chip-select line the dice see is the controller's output (10_state.md R28). -/
  selLine : s.sel = s.csSel
  /-- 10_state.md R28. -/
  sel : ∀ c, s.sel = some c → c.toNat < s.cfg.numCs
  /-- 10_state.md R22, R28, R29. -/
  idle : s.ctl = .idle → s.phasePc = 0 ∧ s.csSel = none ∧ s.wpAsserted = true
  /-- 10_state.md R32: no request runs beside an unconsumed response. -/
  busyResp : s.ctl = .busy → s.resp = .none
  /-- 10_state.md R22. -/
  busyPc : s.ctl = .busy → legalPc s.reqOp s.phasePc.toNat = true
  /-- 10_state.md R28. -/
  busySel : s.ctl = .busy →
    s.csSel = if selectedAt s.reqOp s.phasePc.toNat = true then some s.reqCs else none
  /-- 10_state.md R29. -/
  busyWp : s.ctl = .busy → s.wpAsserted = !releasedAt s.reqOp s.phasePc.toNat
  /-- 40_operations.md R120: no phase runs before the checks have passed. -/
  busyChecked : s.ctl = .busy → s.phasePc ≠ 0 → s.latchCheck = none
  /-- The device's selection follows the controller's within a request (42_phases.md R160). -/
  busyDie : s.ctl = .busy → selectedAt s.reqOp s.phasePc.toNat = true → s.sel = some s.reqCs
  /-- Every confirm comes in its mode with the address of the request (20_memory.md R65, R77: "the controller never produces
  such an address"). -/
  busyLatch : s.ctl = .busy → ∀ m a, latchAt s.cfg s.reqOp s.reqBlock s.reqPage s.phasePc.toNat = some (m, a) →
    ∀ d, s.dies[s.reqCs.toNat]? = some d → d.mode = m ∧ d.abuf = a
  /-- An array effect is in progress only on a busy general die that a program or erase is about to wait for
  (70_reset_and_hazards.md R225). -/
  pend : ∀ (c : Nat) (d : Die), s.dies[c]? = some d → d.pend ≠ none →
    s.cfg.device = .general ∧ d.busy = true ∧ s.ctl = .busy ∧ s.reqCs.toNat = c ∧
      ((s.reqOp = 2 ∧ s.phasePc = 5) ∨ (s.reqOp = 3 ∧ s.phasePc = 6))

/-- A request that has been accepted and passed its checks, before its first phase. -/
structure State.Starts (s : State) (i : Instr) : Prop where
  inv : s.Inv
  rst : s.rst = false
  busy : s.ctl = .busy
  pc : s.phasePc = 0
  latch : s.latched = .ok i
  checked : s.latchCheck = none

/-- The phase list of a request, with the payload in `dbuf` (40_operations.md R121, R124, R127, R130). -/
def State.phasesOf (s : State) : Instr → List Phase
  | .identify cs => identifyPhases s.cfg cs
  | .eraseBlock cs block => eraseBlockPhases s.cfg cs block
  | .programPage cs block page => programPagePhases s.cfg cs block page s.dbuf
  | .readPage cs block page => readPagePhases s.cfg cs block page
  | _ => []

/-- `k` steps of the machine, stopping at the first fault or refusal. -/
def stepN : Nat → State → Host.Outcome State Fault Refusal
  | 0, s => .next s
  | k + 1, s => match step s with
    | .next t => stepN k t
    | .fault f => .fault f
    | .refused r => .refused r

/-- The general device's next answer to a wait is that the die is ready: supplied from outside, or free. -/
def State.WaitAnswersReady (s : State) : Prop :=
  (∃ status rest, s.answers = .ready status :: rest) ∨ (s.answers = [] ∧ Config.freeReady s.draws = true)

/-- The general device's next answer to a wait is that the die stayed busy: supplied from outside, or free. -/
def State.WaitAnswersBusy (s : State) : Prop :=
  (∃ rest, s.answers = .timeout :: rest) ∨ (s.answers = [] ∧ Config.freeReady s.draws = false)

/-- Whether an answer supplied from outside breaks the driver port contract for a phase: anything but exactly `n` bytes for
`DIN(n)`, bytes for WAIT_RDY (10_state.md R35, 42_phases.md R166). -/
def Answer.Breaks (a : Answer) : Phase → Prop
  | .din n => ∀ l, a = .bytes l → l.length ≠ n
  | .waitRdy _ => ∃ l, a = .bytes l
  | _ => False

/-- The general device's next supplied answer breaks the driver port contract for a phase. -/
def State.AnswerBreaks (s : State) (p : Phase) : Prop := ∃ a rest, s.answers = a :: rest ∧ a.Breaks p

/-- "no fault recorded": the premise a claim about a host program carries (60_exceptions.md R198). -/
def State.NoFaultRecorded (s : State) : Prop := s.runFaults = []

/-- The registers of the controller that a phase by itself never writes: all of 10_state.md R20 but the outputs
`cs_sel` and `wp_asserted`, which SELECT, DESELECT and SET_WP write, with the configuration, the host's side of the
ports, the reset input and what the model records of the run. -/
structure State.SameRegisters (s t : State) : Prop where
  cfg : t.cfg = s.cfg
  ctl : t.ctl = s.ctl
  phasePc : t.phasePc = s.phasePc
  reqOp : t.reqOp = s.reqOp
  reqCs : t.reqCs = s.reqCs
  reqBlock : t.reqBlock = s.reqBlock
  reqPage : t.reqPage = s.reqPage
  reqLen : t.reqLen = s.reqLen
  dbuf : t.dbuf = s.dbuf
  idbuf : t.idbuf = s.idbuf
  statusReg : t.statusReg = s.statusReg
  resp : t.resp = s.resp
  requests : t.requests = s.requests
  hostTakes : t.hostTakes = s.hostTakes
  rst : t.rst = s.rst
  delivered : t.delivered = s.delivered
  runFaults : t.runFaults = s.runFaults

/-- The outputs `cs_sel` and `wp_asserted` and the lines the device sees of them. -/
structure State.SameLines (s t : State) : Prop where
  csSel : t.csSel = s.csSel
  wpAsserted : t.wpAsserted = s.wpAsserted
  wp : t.wp = s.wp
  sel : t.sel = s.sel

/-- Every byte of every image reads as before. -/
def State.SameImages (s t : State) : Prop := ∀ c a, t.imageByte c a = s.imageByte c a

/-- Every die but the selected one is as before, and the dice are as many. -/
def State.SameOtherDies (s t : State) : Prop :=
  t.dies.length = s.dies.length ∧ ∀ c : Nat, s.sel.map BitVec.toNat ≠ some c → t.dies[c]? = s.dies[c]?

end Sys2Proof.Machine
end

