-- ==== Sys2Proof/Certificates/Slice0/Obligations.lean ====
section
/-! DEFINITION. The statements for the provers, from the numbered rules of spec/. -/

open Sys2Proof Sys2Proof.Machine

/-! ### Encodings -/

/-- Decoding the word of any instruction gives it back, every operand at every value (30_encoding.md R90 to R92, R95,
R100), where the eight command bytes are pairwise distinct (00_scope.md R10). -/
def Obligations.DecodeOfEncodeIsTheInstruction : Prop :=
  ∀ (cfg : Config) (i : Instr), cfg.commandList.Nodup → decode cfg (encode cfg i) = .ok i

/-- A word that decodes is the word of the instruction it decodes to: no bit of it is ignored. -/
def Obligations.EncodeOfDecodeIsTheWord : Prop :=
  ∀ (cfg : Config) (e : Encoded) (i : Instr), decode cfg e = .ok i → encode cfg i = e

/-- Words written out in 95_test_vectors.md section 3.1 and 30_encoding.md R95, R100 decode to what they stand for. -/
def Obligations.WordsOfTheSpecDecode : Prop :=
  decodeRequest 0x11000000 = .ok (.identify 1) ∧
  decodeRequest 0x20000300 = .ok (.eraseBlock 0 3) ∧
  decodeRequest 0x30000203 = .ok (.programPage 0 2 3) ∧
  decodeRequest 0x41000303 = .ok (.readPage 1 3 3) ∧
  decodeRequest 0x50000000 = .error .reservedOpcode ∧
  decodeRequest 0x10000100 = .error .reservedField ∧
  decodePhase ⟨0x8, .bound (.polls 8)⟩ = .ok (.waitRdy (.polls 8)) ∧
  decodePhase ⟨0x9, .none⟩ = .error .reservedPhaseKind ∧
  decodeCommand Config.tcfg 0xD0 = .ok .cmdEraseConfirm ∧
  decodeCommand Config.tcfg 0xFF = .error .unknownCommand

/-- Exactly the words with a reserved `OP` or a nonzero reserved field are no request (30_encoding.md R91, R92). -/
def Obligations.ReservedWordsAreNoRequest : Prop :=
  ∀ w : BitVec 32, (∃ e, decodeRequest w = .error e) ↔
    (w.extractLsb' 28 4 ≠ 1 ∧ w.extractLsb' 28 4 ≠ 2 ∧ w.extractLsb' 28 4 ≠ 3 ∧ w.extractLsb' 28 4 ≠ 4) ∨
    (w.extractLsb' 28 4 = 1 ∧ w.extractLsb' 0 24 ≠ 0) ∨ (w.extractLsb' 28 4 = 2 ∧ w.extractLsb' 0 8 ≠ 0)

/-- A written request (30_encoding.md R106) goes on the port as the word
`(OP << 28) | (cs << 24) | (block << 8) | page`, which is the word of its instruction and decodes to it; a payload
written `fill(b)` has the length of a page. -/
def Obligations.WrittenRequestsAssemble : Prop :=
  (∀ (op cs : BitVec 4) (block : BitVec 16) (page : BitVec 8), packWord op cs block page =
    (op.setWidth 32 <<< 28) ||| (cs.setWidth 32 <<< 24) ||| (block.setWidth 32 <<< 8) ||| page.setWidth 32) ∧
  (∀ (cfg : Config) (r : WrittenRequest), encode cfg r.instr = .request (r.request cfg).word ∧
    decodeRequest (r.request cfg).word = .ok r.instr) ∧
  (∀ (cfg : Config) (cs : BitVec 4) (block : BitVec 16) (page : BitVec 8) (b : Byte),
    ((WrittenRequest.programPage cs block page (.fill b)).request cfg).data = fill cfg.fullPageSize b)

/-- The six kind codes of the response record with their payloads (30_encoding.md R94), the fault codes
(60_exceptions.md R190), and that a record is read back as its response; kinds 6 and 7 are read as none. -/
def Obligations.ResponseRecordIsReadBack : Prop :=
  (∀ r : Resp, decodeResp (encodeResp r) = some r) ∧
  (∀ r : RespRecord, r.kind.toNat = 6 ∨ r.kind.toNat = 7 → decodeResp r = none) ∧
  encodeResp .none = ⟨0, .none⟩ ∧ (∀ l : List Byte, encodeResp (.id l) = ⟨1, .bytes l⟩) ∧
  (∀ b : Bool, encodeResp (.ok b) = ⟨2, .bit b⟩) ∧ (∀ l : List Byte, encodeResp (.page l) = ⟨3, .bytes l⟩) ∧
  encodeResp .absent = ⟨4, .none⟩ ∧ (∀ f : FaultCode, encodeResp (.fault f) = ⟨5, .code f.code⟩) ∧
  FaultCode.code .outOfRangeAddress = 0x01 ∧ FaultCode.code .badLength = 0x02 ∧
  FaultCode.code .deviceTimeout = 0x03 ∧ FaultCode.code .reservedRequest = 0x04

/-! ### Operands and flags -/

/-- `ColBytes` and `RowBytes` (30_encoding.md R103, R104): least significant byte first, truncated to the cycles, and no
bit of a row number is lost. -/
def Obligations.AddressBytesAreLeastSignificantFirst : Prop :=
  ∀ cfg : Config, cfg.valid = true →
    (∀ col : Nat, cfg.colBytes col =
      [BitVec.ofNat 8 col, BitVec.ofNat 8 (col / 256)].take cfg.colCycles) ∧
    cfg.colBytes 0 = fill cfg.colCycles 0x00 ∧
    (∀ row : Nat, cfg.rowBytes row =
      [BitVec.ofNat 8 row, BitVec.ofNat 8 (row / 256), BitVec.ofNat 8 (row / 65536)].take cfg.rowCycles) ∧
    (∀ row : Nat, row < cfg.blocksPerCs * cfg.pagesPerBlock → leNat (cfg.rowBytes row) = row)

/-- The device decodes every address the controller sends (20_memory.md R65, 30_encoding.md R102, R105): a page's full
address to column 0 of row `block * PAGES_PER_BLOCK + page`, a block's address to that block. -/
def Obligations.DeviceDecodesTheControllersAddresses : Prop :=
  ∀ (cfg : Config) (block : BitVec 16) (page : BitVec 8), cfg.valid = true → block.toNat < cfg.blocksPerCs →
    (page.toNat < cfg.pagesPerBlock →
      cfg.decodePage (cfg.fullAddress block page) = some (0, block.toNat * cfg.pagesPerBlock + page.toNat)) ∧
    cfg.decodeBlock (cfg.blockAddress block) = some block.toNat

/-- The status interpreter (41_status.md R151, R156) and the reference device's status byte (20_memory.md R73). -/
def Obligations.StatusBytesAndTheirVerdict : Prop :=
  (∀ (cfg : Config) (s : Byte), statusPass cfg s = true ↔ s &&& cfg.statusFailMask = 0x00) ∧
  (∀ (cfg : Config) (s : Byte), cfg.statusFailMask = 0x01 → (statusPass cfg s = true ↔ s.getLsbD 0 = false)) ∧
  statusByte false false = 0xE0 ∧ statusByte false true = 0xE1 ∧
  statusByte true false = 0x60 ∧ statusByte true true = 0x61 ∧
  [0xE0, 0xE1, 0x60, 0x61, 0xC0, 0xFF, 0x00, 0x02].map (statusPass Config.tcfg) =
    [true, false, true, false, true, false, true, true]

/-! ### Reset, configuration, invariant -/

/-- What reset at power-on leaves, for every configuration: the values 70_reset_and_hazards.md R221 and 20_memory.md R61
give (`status` is `StatusByte` with `wp = 1`, `fail = 0`), every die not busy (R224). A general die starts with the same image
and fields, which is the model's choice (log 36). -/
def Obligations.PowerOnState : Prop :=
  ∀ cfg : Config,
    (State.powerOn cfg).cfg = cfg ∧ (State.powerOn cfg).ctl = .idle ∧ (State.powerOn cfg).phasePc = 0 ∧
    (State.powerOn cfg).resp = .none ∧ (State.powerOn cfg).csSel = none ∧ (State.powerOn cfg).wpAsserted = true ∧
    (State.powerOn cfg).wp = true ∧ (State.powerOn cfg).sel = none ∧ (State.powerOn cfg).reqReady = true ∧
    (State.powerOn cfg).dies.length = cfg.numCs ∧
    ∀ (c : Nat) (d : Die), (State.powerOn cfg).dies[c]? = some d →
      d.image = cfg.image0.getD c [] ∧ d.mode = .idle ∧ d.abuf = [] ∧ d.rptr = 0 ∧ d.fail = false ∧
      d.status = statusByte true false ∧ d.busy = false

/-- The invariant holds at power-on of every legal configuration, so at `State.reset`. -/
def Obligations.InvariantHoldsAtPowerOn : Prop :=
  (∀ cfg : Config, cfg.valid = true → (State.powerOn cfg).Inv) ∧ State.reset.Inv

/-- Every step from a legal state leaves a legal state: whatever the host, the reset input and the device do
(10_state.md R22, R24, R25, R27 to R29, R32; 20_memory.md R60). So every confirm the controller sends comes in its mode with
the address of the request (20_memory.md R65, R77). -/
def Obligations.EveryStepKeepsTheInvariant : Prop :=
  ∀ s t : State, s.Inv → step s = .next t → t.Inv

/-- From a legal state the machine never stops on the reference device; on the general device it stops only where the phase
at `phase_pc` of a request is a DIN or a wait and the next answer supplied from outside breaks the driver port contract for
it: anything but exactly `n` bytes for `DIN(n)`, bytes for WAIT_RDY (42_phases.md R166, R168; 10_state.md R22, R35). A wait
that holds is a next state (log 21); the supplied answers are the model's own field (log 12, log 25). -/
def Obligations.EveryStepFromALegalStateCompletes : Prop :=
  ∀ s : State, s.Inv →
    (s.cfg.device = .reference → ∃ t, step s = .next t) ∧
    ((∃ t, step s = .next t) ∨
      (s.cfg.device = .general ∧ s.ctl = .busy ∧ step s = .refused .driverContract ∧
        ∃ i p, s.latched = .ok i ∧ (s.phasesOf i)[s.phasePc.toNat]? = some p ∧ s.AnswerBreaks p))

/-- No step changes the configuration (00_scope.md R6, 70_reset_and_hazards.md R220). -/
def Obligations.ConfigurationNeverChanges : Prop :=
  ∀ s t : State, step s = .next t → t.cfg = s.cfg

/-- A configuration that breaks a limit is refused (00_scope.md R10). -/
def Obligations.BadConfigurationIsRefused : Prop :=
  (∀ s : State, s.cfg.valid = false → step s = .refused .badConfiguration) ∧
  (∀ cfg : Config, 16 < cfg.numCs ∨ 65536 < cfg.blocksPerCs ∨ 256 < cfg.pagesPerBlock ∨
    256 ^ cfg.rowCycles < cfg.blocksPerCs * cfg.pagesPerBlock ∨ cfg.expectedId = [] ∨
    cfg.readyTimeout = .polls 0 ∨ ¬cfg.commandList.Nodup → cfg.valid = false)

/-- A step runs the decoded instruction: the request in the latch (that the latch is the fetch slot, and a step one
step of the request, is the model's choice, log 6), or the word driven at the device directly, which leaves the bench
before it runs (the bench is the model's own field, log 10). -/
def Obligations.StepRunsTheDecodedInstruction : Prop :=
  ∀ (s : State) (i : Instr), s.cfg.valid = true → s.rst = false →
    (s.bench = [] → s.ctl = .busy → s.latched = .ok i → step s = exec i s) ∧
    (∀ r rest, s.bench = .phase r :: rest → decodePhase r = .ok i → step s = exec i { s with bench := rest }) ∧
    (∀ b rest, s.bench = .command b :: rest → decodeCommand s.cfg b = .ok i →
      step s = exec i { s with bench := rest })

/-! ### The request and response ports -/

/-- Acceptance, in one step (10_state.md R33): the latch takes the word's fields and the payload's length, `dbuf` the
payload of a PROGRAM_PAGE of the right length, and no check or phase has run yet. That the request leaves the list of those
the host holds, and that the phase trace starts anew, are the model's choices (log 7, log 9). -/
def Obligations.AcceptanceLatchesTheRequest : Prop :=
  ∀ (s : State) (r : Request) (rest : List Request), s.cfg.valid = true → s.rst = false → s.bench = [] →
    s.ctl = .idle → s.resp = .none → s.requests = r :: rest →
    step s = .next { s with
      reqOp := r.word.extractLsb' 28 4
      reqCs := r.word.extractLsb' 24 4
      reqBlock := r.word.extractLsb' 8 16
      reqPage := r.word.extractLsb' 0 8
      reqLen := r.data.length
      dbuf := if r.word.extractLsb' 28 4 = 3 ∧ r.data.length = s.cfg.pageDataSize + s.cfg.spareSize then r.data
        else s.dbuf
      ctl := .busy
      phasePc := 0
      requests := rest
      trace := [] }

/-- A request is held, not lost and not faulted, while the controller is busy or a response is not consumed
(10_state.md R32). -/
def Obligations.HeldRequestIsNotAccepted : Prop :=
  ∀ s t : State, s.ctl = .busy ∨ s.resp ≠ .none → step s = .next t → t.requests = s.requests

/-- The host's consumption of a response (10_state.md R34); a response it does not take stays (the host's side of the
handshake and the list of delivered responses are the model's own fields, log 7, log 9). -/
def Obligations.ConsumptionOfAResponse : Prop :=
  ∀ s : State, s.cfg.valid = true → s.rst = false → s.bench = [] → s.ctl = .idle → s.resp ≠ .none →
    (s.hostTakes = true → step s = .next { s with resp := .none, delivered := s.delivered ++ [s.resp] }) ∧
    (s.hostTakes = false → step s = .next s)

/-- Only the step that writes the response ends a request (10_state.md R21, R27); until then no response is written. -/
def Obligations.BusyEndsWithAResponse : Prop :=
  ∀ s t : State, s.rst = false → s.bench = [] → s.ctl = .busy → step s = .next t →
    (t.ctl = .idle → t.resp ≠ .none ∧ t.phasePc = 0) ∧ (t.ctl = .busy → t.resp = s.resp)

/-- The checks after acceptance, in their order (60_exceptions.md R193): each ends the request with no phase emitted and
no device state changed, a fault recorded as one of the run (R198); otherwise the first phase of the list runs. That the
checks and what follows them, the response or the first phase, are one step is the model's choice (log 5), and so are the
lists of recorded faults and of phases (log 9). -/
def Obligations.ChecksRunInOrderBeforeAnyPhase : Prop :=
  ∀ s : State, s.cfg.valid = true → s.rst = false → s.bench = [] → s.ctl = .busy → s.phasePc = 0 →
    let oor := s.cfg.numCs ≤ s.reqCs.toNat ∨
      ((s.reqOp = 2 ∨ s.reqOp = 3 ∨ s.reqOp = 4) ∧ s.cfg.blocksPerCs ≤ s.reqBlock.toNat) ∨
      ((s.reqOp = 3 ∨ s.reqOp = 4) ∧ s.cfg.pagesPerBlock ≤ s.reqPage.toNat)
    let reserved := ¬(s.reqOp = 1 ∨ s.reqOp = 2 ∨ s.reqOp = 3 ∨ s.reqOp = 4) ∨
      (s.reqOp = 1 ∧ (s.reqBlock ≠ 0 ∨ s.reqPage ≠ 0)) ∨ (s.reqOp = 2 ∧ s.reqPage ≠ 0)
    let badLength := s.reqOp = 3 ∧ s.reqLen ≠ s.cfg.pageDataSize + s.cfg.spareSize
    let raised : FaultCode → State := fun f =>
      { s with resp := .fault f, ctl := .idle, phasePc := 0, runFaults := s.runFaults ++ [f] }
    (reserved → step s = .next (raised .reservedRequest)) ∧
    (¬reserved → oor → s.reqOp = 4 → step s = .next { s with resp := .absent, ctl := .idle, phasePc := 0 }) ∧
    (¬reserved → oor → s.reqOp ≠ 4 → step s = .next (raised .outOfRangeAddress)) ∧
    (¬reserved → ¬oor → badLength → step s = .next (raised .badLength)) ∧
    (¬reserved → ¬oor → ¬badLength → step s = .next { s with
      csSel := some s.reqCs, sel := some s.reqCs, phasePc := 1
      trace := s.trace ++ [⟨.select s.reqCs, .unit⟩] })

/-! ### Reset -/

/-- Reset at any step (70_reset_and_hazards.md R220 to R222): the registers R221 gives a value, the request in progress
abandoned with no phase, the configuration kept. The dice are as they were, busy or not and with the command they had
latched, but for a general die whose request was past its confirm command (R228): it is as it was too, in all but the model's
own fields `unknown`, `pend` and `latched` (log 17; what past means, log 18). The write-protect line is asserted at once
(R229) and no die is selected: the lines the dice see follow the controller's outputs with no phase (for the chip-select
line the model's reading, log 8). -/
def Obligations.ResetAtAnyStep : Prop :=
  ∀ s : State, s.cfg.valid = true → s.rst = true → ∃ t, step s = .next t ∧
    t.ctl = .idle ∧ t.phasePc = 0 ∧ t.resp = .none ∧ t.csSel = none ∧ t.wpAsserted = true ∧
    t.cfg = s.cfg ∧ t.trace = s.trace ∧ t.wp = true ∧ t.sel = none ∧
    State.SameImages s t ∧
    (¬(s.cfg.device = .general ∧ s.ctl = .busy ∧ ((s.reqOp = 2 ∧ 5 ≤ s.phasePc.toNat) ∨
      (s.reqOp = 3 ∧ 6 ≤ s.phasePc.toNat) ∨ (s.reqOp = 4 ∧ 4 ≤ s.phasePc.toNat))) → t.dies = s.dies) ∧
    ∀ c : Nat, (c ≠ s.reqCs.toNat → t.dies[c]? = s.dies[c]?) ∧ ∀ d : Die, s.dies[c]? = some d → ∃ d' : Die,
      t.dies[c]? = some d' ∧ d' = { d with unknown := d'.unknown, pend := d'.pend, latched := d'.latched }

/-- A reset while a request was past its confirm command leaves its die unknown on the general device, its image as it
was, and no other (70_reset_and_hazards.md R228, R222). That "past" reaches from the index after the confirm to the end of
the request is the model's reading (log 18); that unknown is a field of the die, its bytes not changed by themselves, is
the model's choice (log 17). -/
def Obligations.ResetPastTheConfirmLeavesTheDieUnknown : Prop :=
  ∀ (s t : State) (d : Die), s.cfg.device = .general → s.rst = true → s.ctl = .busy →
    (s.reqOp = 2 ∧ 5 ≤ s.phasePc.toNat) ∨ (s.reqOp = 3 ∧ 6 ≤ s.phasePc.toNat) ∨
      (s.reqOp = 4 ∧ 4 ≤ s.phasePc.toNat) →
    s.dies[s.reqCs.toNat]? = some d → step s = .next t →
    (∃ d', t.dies[s.reqCs.toNat]? = some d' ∧ d'.unknown = true ∧ d'.image = d.image) ∧
    ∀ c : Nat, c ≠ s.reqCs.toNat → t.dies[c]? = s.dies[c]?

/-! ### The four requests -/

/-- After its last phase each request responds (40_operations.md R121, R124, R127, R130, R132). -/
def Obligations.RequestsRespondAfterTheirLastPhase : Prop :=
  ∀ (s : State) (cs : BitVec 4) (block : BitVec 16) (page : BitVec 8),
    (s.phasePc = 5 → exec (.identify cs) s = .next { s with resp := .id s.idbuf, ctl := .idle, phasePc := 0 }) ∧
    (s.phasePc = 10 → exec (.eraseBlock cs block) s =
      .next { s with resp := .ok (decide (s.statusReg &&& s.cfg.statusFailMask = 0)), ctl := .idle, phasePc := 0 }) ∧
    (s.phasePc = 11 → exec (.programPage cs block page) s =
      .next { s with resp := .ok (decide (s.statusReg &&& s.cfg.statusFailMask = 0)), ctl := .idle, phasePc := 0 }) ∧
    (s.phasePc = 7 → exec (.readPage cs block page) s =
      .next { s with resp := .page s.dbuf, ctl := .idle, phasePc := 0 })

/-- On the reference device every step of a request that passed its checks completes: it performs the phase its list has at
`phase_pc`, adds it to the phase trace and moves on by one, or responds (40_operations.md R120, 10_state.md R22). -/
def Obligations.EveryRequestStepPerformsItsPhase : Prop :=
  ∀ (s : State) (i : Instr), s.Inv → s.ctl = .busy → s.latched = .ok i → s.latchCheck = none →
    s.cfg.device = .reference → s.phasePc.toNat ≤ (s.phasesOf i).length →
    ∃ t, exec i s = .next t ∧
      match (s.phasesOf i)[s.phasePc.toNat]? with
      | some p => ∃ r, t.trace = s.trace ++ [⟨p, r⟩] ∧ t.phasePc = s.phasePc + 1 ∧ t.ctl = .busy
      | none => t.trace = s.trace ∧ t.ctl = .idle ∧ t.resp ≠ .none

/-- IDENTIFY (40_operations.md R121, R122; 20_memory.md R75): five phases, and the response carries the bytes the device
answers, EXPECTED_ID on the reference device; on the general device the bytes drawn, whether or not they are EXPECTED_ID
and whatever the die is doing, with no fault (supplied from outside or free, the model's own fields, log 11, log 12).
`status_reg` and every byte of every image unchanged, write protection never released. That the bytes of an unknown die do
not change by themselves meanwhile is the model's choice (log 17). -/
def Obligations.IdentifyReturnsTheIdentifier : Prop :=
  ∀ (s : State) (cs : BitVec 4) (id : List Byte), s.Starts (.identify cs) →
    (s.cfg.device = .reference ∧ id = s.cfg.expectedId) ∨
      (s.cfg.device = .general ∧
        ((∃ rest, s.answers = .bytes id :: rest ∧ id.length = s.cfg.idLen) ∨
          (s.answers = [] ∧ id = freeBytes s.draws s.cfg.idLen))) →
    ∃ t, stepN 6 s = .next t ∧ t.resp = .id id ∧ t.idbuf = id ∧ t.ctl = .idle ∧
      t.trace = s.trace ++ [⟨.select cs, .unit⟩, ⟨.cmd s.cfg.cmds.readId, .unit⟩, ⟨.addr [s.cfg.idAddr], .unit⟩,
        ⟨.din s.cfg.expectedId.length, .bytes id⟩, ⟨.deselect, .unit⟩] ∧
      t.statusReg = s.statusReg ∧ t.wpAsserted = true ∧ t.runFaults = s.runFaults ∧ State.SameImages s t

/-- ERASE_BLOCK on the reference device (40_operations.md R124, R125; 20_memory.md R69, R73): ten phases; an erase that
is not injected to fail fills its block with 0xFF and changes no other byte, one that is changes none; the response is
the status interpreter's verdict. -/
def Obligations.EraseBlockFillsItsBlock : Prop :=
  ∀ (s : State) (cs : BitVec 4) (block : BitVec 16), s.Starts (.eraseBlock cs block) →
    s.cfg.device = .reference →
    let fails := s.cfg.injected cs block.toNat .erase
    let status : Byte := if fails = true then 0xE1 else 0xE0
    ∃ t, stepN 11 s = .next t ∧ t.resp = .ok (statusPass s.cfg status) ∧ t.statusReg = status ∧
      t.ctl = .idle ∧ t.csSel = none ∧ t.wpAsserted = true ∧ t.runFaults = s.runFaults ∧
      t.trace = s.trace ++ [⟨.select cs, .unit⟩, ⟨.setWp false, .unit⟩, ⟨.cmd s.cfg.cmds.eraseSetup, .unit⟩,
        ⟨.addr (s.cfg.rowBytes (block.toNat * s.cfg.pagesPerBlock)), .unit⟩, ⟨.cmd s.cfg.cmds.eraseConfirm, .unit⟩,
        ⟨.waitRdy s.cfg.readyTimeout, .ready⟩, ⟨.cmd s.cfg.cmds.readStatus, .unit⟩, ⟨.din 1, .bytes [status]⟩,
        ⟨.setWp true, .unit⟩, ⟨.deselect, .unit⟩] ∧
      ∀ c a : Nat, t.imageByte c a =
        if fails = false ∧ c = cs.toNat ∧ block.toNat * s.cfg.blockSize ≤ a ∧
            a < (block.toNat + 1) * s.cfg.blockSize then some 0xFF
        else s.imageByte c a

/-- PROGRAM_PAGE on the reference device (40_operations.md R126 to R128; 20_memory.md R68, R73): eleven phases; a program
that is not injected to fail leaves in each byte of its page the old byte AND the payload's, and changes no other byte,
one that is changes none. -/
def Obligations.ProgramPageAndsThePayload : Prop :=
  ∀ (s : State) (cs : BitVec 4) (block : BitVec 16) (page : BitVec 8), s.Starts (.programPage cs block page) →
    s.cfg.device = .reference →
    let fails := s.cfg.injected cs block.toNat .program
    let status : Byte := if fails = true then 0xE1 else 0xE0
    let row := block.toNat * s.cfg.pagesPerBlock + page.toNat
    let off := row * s.cfg.fullPageSize
    ∃ t, stepN 12 s = .next t ∧ t.resp = .ok (statusPass s.cfg status) ∧ t.statusReg = status ∧
      t.ctl = .idle ∧ t.csSel = none ∧ t.wpAsserted = true ∧ t.runFaults = s.runFaults ∧
      t.trace = s.trace ++ [⟨.select cs, .unit⟩, ⟨.setWp false, .unit⟩, ⟨.cmd s.cfg.cmds.programSetup, .unit⟩,
        ⟨.addr (s.cfg.colBytes 0 ++ s.cfg.rowBytes row), .unit⟩, ⟨.dout s.dbuf, .unit⟩,
        ⟨.cmd s.cfg.cmds.programConfirm, .unit⟩, ⟨.waitRdy s.cfg.readyTimeout, .ready⟩,
        ⟨.cmd s.cfg.cmds.readStatus, .unit⟩, ⟨.din 1, .bytes [status]⟩, ⟨.setWp true, .unit⟩, ⟨.deselect, .unit⟩] ∧
      (∀ k : Nat, ∀ b : Byte, s.dbuf[k]? = some b →
        t.imageByte cs.toNat (off + k) = (s.imageByte cs.toNat (off + k)).map
          (fun old => if fails = true then old else old &&& b)) ∧
      ∀ c a : Nat, c ≠ cs.toNat ∨ a < off ∨ off + s.cfg.fullPageSize ≤ a → t.imageByte c a = s.imageByte c a

/-- READ_PAGE (40_operations.md R130, R131; 20_memory.md R66, R72, R78): seven phases, the response carries the page's
bytes, spare area included; `status_reg` and every image unchanged. On the reference device always; on the general device
for a die that is neither busy nor unknown and becomes ready within the bound (its page register is the model's reading,
log 34; that it is busy after the confirm is presumed, log 33; its answer is the model's own field, log 12). -/
def Obligations.ReadPageReturnsThePage : Prop :=
  ∀ (s : State) (cs : BitVec 4) (block : BitVec 16) (page : BitVec 8), s.Starts (.readPage cs block page) →
    s.cfg.device = .reference ∨ (s.cfg.device = .general ∧ s.WaitAnswersReady ∧
      ∃ d, s.dies[cs.toNat]? = some d ∧ d.busy = false ∧ d.unknown = false) →
    let row := block.toNat * s.cfg.pagesPerBlock + page.toNat
    ∃ t l, stepN 8 s = .next t ∧ t.resp = .page l ∧ t.dbuf = l ∧ l.length = s.cfg.fullPageSize ∧
      (∀ k : Nat, k < s.cfg.fullPageSize → s.imageByte cs.toNat (row * s.cfg.fullPageSize + k) = l[k]?) ∧
      t.ctl = .idle ∧ t.statusReg = s.statusReg ∧ t.wpAsserted = true ∧ t.runFaults = s.runFaults ∧
      t.trace = s.trace ++ [⟨.select cs, .unit⟩, ⟨.cmd s.cfg.cmds.readSetup, .unit⟩,
        ⟨.addr (s.cfg.colBytes 0 ++ s.cfg.rowBytes row), .unit⟩, ⟨.cmd s.cfg.cmds.readConfirm, .unit⟩,
        ⟨.waitRdy s.cfg.readyTimeout, .ready⟩, ⟨.din s.cfg.fullPageSize, .bytes l⟩, ⟨.deselect, .unit⟩] ∧
      State.SameImages s t

/-- "program followed by read returns exactly data" on a page whose bytes are all 0xFF, when the program is not injected
to fail (95_test_vectors.md S2, 70_reset_and_hazards.md R227): two requests, from the idle controller, with the responses
consumed (both lists are the model's own fields, log 7, log 9). -/
def Obligations.ProgramThenReadReturnsTheData : Prop :=
  ∀ (s : State) (cs : BitVec 4) (block : BitVec 16) (page : BitVec 8) (data : List Byte) (rest : List Request),
    s.Inv → s.rst = false → s.ctl = .idle → s.resp = .none → s.hostTakes = true → s.cfg.device = .reference →
    cs.toNat < s.cfg.numCs → block.toNat < s.cfg.blocksPerCs → page.toNat < s.cfg.pagesPerBlock →
    data.length = s.cfg.fullPageSize → s.cfg.injected cs block.toNat .program = false →
    (∀ k : Nat, k < s.cfg.fullPageSize → s.imageByte cs.toNat
      ((block.toNat * s.cfg.pagesPerBlock + page.toNat) * s.cfg.fullPageSize + k) = some 0xFF) →
    s.requests = ⟨packWord 3 cs block page, data⟩ :: ⟨packWord 4 cs block page, []⟩ :: rest →
    ∃ t, stepN 24 s = .next t ∧ t.requests = rest ∧ t.resp = .none ∧
      t.delivered = s.delivered ++ [.ok (statusPass s.cfg 0xE0), .page data]

/-! ### Timeouts and the general device -/

/-- A wait that times out (60_exceptions.md R196, 20_memory.md R59, 70_reset_and_hazards.md R228): the cleanup path's
phases, then FAULT(DeviceTimeout); no status byte is read, `dbuf` is not written, the outputs are back at their idle
values, and the die is left unknown (the model's field, log 17). The timeout is supplied from outside or free (log 11,
log 12). -/
def Obligations.TimeoutRunsTheCleanupPath : Prop :=
  ∀ (s : State) (n : Nat) (d : Die), s.Inv → s.rst = false → s.ctl = .busy →
    s.cfg.device = .general → s.cfg.readyTimeout = .polls n → s.WaitAnswersBusy →
    s.dies[s.reqCs.toNat]? = some d → d.busy = true →
    let ended : State → List TraceEntry → Prop := fun t l =>
      t.resp = .fault .deviceTimeout ∧ t.ctl = .idle ∧ t.phasePc = 0 ∧ t.csSel = none ∧ t.wpAsserted = true ∧
      t.statusReg = s.statusReg ∧ t.dbuf = s.dbuf ∧ t.runFaults = s.runFaults ++ [.deviceTimeout] ∧
      t.trace = s.trace ++ l ∧ ∃ d', t.dies[s.reqCs.toNat]? = some d' ∧ d'.unknown = true
    ((s.reqOp = 2 ∧ s.phasePc = 5 ∨ s.reqOp = 3 ∧ s.phasePc = 6) →
      ∃ t, stepN 4 s = .next t ∧
        ended t [⟨.waitRdy (.polls n), .timeout⟩, ⟨.setWp true, .unit⟩, ⟨.deselect, .unit⟩]) ∧
    (s.reqOp = 4 ∧ s.phasePc = 4 →
      ∃ t, stepN 3 s = .next t ∧ ended t [⟨.waitRdy (.polls n), .timeout⟩, ⟨.deselect, .unit⟩])

/-- "with READY_TIMEOUT = INF, never TIMEOUT: the phase holds until the die is ready" (42_phases.md R167): the request
stays where it is, with nothing changed but the device's answers. That a wait which holds is a next state at the same
`phase_pc`, one for each time the die is still busy, is the model's reading (log 21); the answer is supplied from outside
or free (log 11, log 12). -/
def Obligations.InfiniteWaitHolds : Prop :=
  ∀ (s : State) (d : Die), s.Inv → s.rst = false → s.ctl = .busy →
    s.cfg.device = .general → s.cfg.readyTimeout = .inf →
    s.dies[s.reqCs.toNat]? = some d → d.busy = true →
    (s.reqOp = 2 ∧ s.phasePc = 5) ∨ (s.reqOp = 3 ∧ s.phasePc = 6) ∨ (s.reqOp = 4 ∧ s.phasePc = 4) →
    (∀ rest, s.answers = .timeout :: rest → step s = .next { s with answers := rest }) ∧
    (s.answers = [] → Config.freeReady s.draws = false → step s = .next { s with draws := s.draws + 1 })

/-- The law of the general device (20_memory.md R78, R59): a PROGRAM_PAGE on a healthy die that ends with a passing
status leaves in each byte of its page the old byte AND the payload's, changes no other byte, and responds OK(1); with a
failing status it responds OK(0) (40_operations.md R128) and only the page's bytes are open (93 U16). That the status is
drawn at READY and read back by the status read is the model's reading (log 15). That the bytes of an unknown die do not
change by themselves is the model's choice (log 17). -/
def Obligations.GeneralDeviceProgramsByTheLaw : Prop :=
  ∀ (s : State) (cs : BitVec 4) (block : BitVec 16) (page : BitVec 8) (st : Byte) (rest : List Answer) (d : Die),
    s.Starts (.programPage cs block page) → s.cfg.device = .general → s.answers = .ready st :: rest →
    s.dies[cs.toNat]? = some d → d.busy = false → d.unknown = false →
    let off := (block.toNat * s.cfg.pagesPerBlock + page.toNat) * s.cfg.fullPageSize
    ∃ t, stepN 12 s = .next t ∧ t.resp = .ok (statusPass s.cfg st) ∧ t.statusReg = st ∧ t.answers = rest ∧
      (statusPass s.cfg st = true → ∀ k : Nat, ∀ b : Byte, s.dbuf[k]? = some b →
        t.imageByte cs.toNat (off + k) = (s.imageByte cs.toNat (off + k)).map (fun old => old &&& b)) ∧
      ∀ c a : Nat, c ≠ cs.toNat ∨ a < off ∨ off + s.cfg.fullPageSize ≤ a → t.imageByte c a = s.imageByte c a

/-- The law of the general device (20_memory.md R78, R59): an ERASE_BLOCK on a healthy die that ends with a passing
status leaves 0xFF in every byte of its block, changes no other byte, and responds OK(1); with a failing status it
responds OK(0) and only the block's bytes are open (93 U16). That the status is drawn at READY and read back by the
status read is the model's reading (log 15). That the bytes of an unknown die do not change by themselves is the model's
choice (log 17). -/
def Obligations.GeneralDeviceErasesByTheLaw : Prop :=
  ∀ (s : State) (cs : BitVec 4) (block : BitVec 16) (st : Byte) (rest : List Answer) (d : Die),
    s.Starts (.eraseBlock cs block) → s.cfg.device = .general → s.answers = .ready st :: rest →
    s.dies[cs.toNat]? = some d → d.busy = false → d.unknown = false →
    let off := block.toNat * s.cfg.blockSize
    ∃ t, stepN 11 s = .next t ∧ t.resp = .ok (statusPass s.cfg st) ∧ t.statusReg = st ∧
      t.answers = rest ∧
      (statusPass s.cfg st = true → ∀ a : Nat, off ≤ a → a < off + s.cfg.blockSize →
        t.imageByte cs.toNat a = some 0xFF) ∧
      ∀ c a : Nat, c ≠ cs.toNat ∨ a < off ∨ off + s.cfg.blockSize ≤ a → t.imageByte c a = s.imageByte c a

/-- Once a die is unknown it stays so: the model's choice (log 17). 70_reset_and_hazards.md R228 makes every later answer
a draw "until the model has a rule that re-establishes the die's state", and this model has none. -/
def Obligations.UnknownDieStaysUnknown : Prop :=
  ∀ (s t : State) (c : Nat) (d : Die), step s = .next t → s.dies[c]? = some d → d.unknown = true →
    ∃ d', t.dies[c]? = some d' ∧ d'.unknown = true

/-! ### The driver phases -/

/-- SELECT, DESELECT and SET_WP (20_memory.md R62; 42_phases.md R160 to R162): the controller's output and the device's
line, and for DESELECT the selected die's mode and address bytes (on the general device the model's reading, log 34). -/
def Obligations.SelectDeselectAndSetWp : Prop :=
  ∀ s : State,
    (∀ c : BitVec 4, c.toNat < s.cfg.numCs → exec (.select c) s =
      .next { s with csSel := some c, sel := some c, trace := s.trace ++ [⟨.select c, .unit⟩] }) ∧
    (∀ (c : BitVec 4) (d : Die), s.sel = some c → s.dies[c.toNat]? = some d → exec .deselect s =
      .next { s with
        csSel := none, sel := none
        dies := s.dies.set c.toNat { d with mode := .idle, abuf := [] }
        trace := s.trace ++ [⟨.deselect, .unit⟩] }) ∧
    (s.sel = none → exec .deselect s = .next { s with csSel := none, trace := s.trace ++ [⟨.deselect, .unit⟩] }) ∧
    (∀ v : Bool, exec (.setWp v) s =
      .next { s with wpAsserted := v, wp := v, trace := s.trace ++ [⟨.setWp v, .unit⟩] })

/-- A chip select outside the configuration is an address that does not exist: SELECT of it stops the model (the model's
choice, log 23). The operand's range is that of 42_phases.md R160. -/
def Obligations.SelectOfAnAbsentDieFaults : Prop :=
  ∀ (s : State) (c : BitVec 4), s.cfg.numCs ≤ c.toNat → exec (.select c) s = .fault .absentDie

/-- CMD (42_phases.md R163, 30_encoding.md R100): with one of the eight command bytes it is that command cycle; with any
byte it completes where the selected die is there, and joins the phase trace (with a byte that is none of the eight the
model's choice, log 13). -/
def Obligations.CmdIsTheCommandCycleOfItsByte : Prop :=
  ∀ s : State,
    (∀ (k : NandCmd) (u : State), s.cfg.commandList.Nodup → exec (Instr.ofNandCmd k) s = .next u →
      exec (.cmd (s.cfg.commandByte k)) s =
        .next { u with trace := u.trace ++ [⟨.cmd (s.cfg.commandByte k), .unit⟩] }) ∧
    ((∀ c : BitVec 4, s.sel = some c → c.toNat < s.dies.length) → ∀ b : Byte, ∃ t, exec (.cmd b) s = .next t ∧
      t.trace = s.trace ++ [⟨.cmd b, .unit⟩])

/-- A command byte that is none of the eight, or a confirm command outside the mode its rule names, leaves the selected
die of the reference device in a mode no rule gives (20_memory.md R70), its image unchanged (the model's choice, log 13). A
confirm command in its mode, with an address the die cannot decode (20_memory.md R65), completes and leaves all of the die
open, its image with it (log 14): the statement then says only what stays as it was elsewhere. -/
def Obligations.CommandsOutsideTheirRuleLeaveTheDeviceUndefined : Prop :=
  ∀ (s : State) (c : BitVec 4) (d : Die), s.cfg.device = .reference → s.sel = some c → s.dies[c.toNat]? = some d →
    let undefined : State → Prop := fun t =>
      ∃ d', t.dies[c.toNat]? = some d' ∧ d'.mode = .undefined ∧ d'.image = d.image
    (∀ b : Byte, b ∉ s.cfg.commandList → ∃ t, exec (.cmd b) s = .next t ∧ undefined t) ∧
    (d.mode ≠ .readSetup → ∃ t, exec .cmdReadConfirm s = .next t ∧ undefined t) ∧
    (d.mode ≠ .prog → ∃ t, exec .cmdProgramConfirm s = .next t ∧ undefined t) ∧
    (d.mode ≠ .eraseSetup → ∃ t, exec .cmdEraseConfirm s = .next t ∧ undefined t) ∧
    let leftOpen : State → Prop := fun t => State.SameOtherDies s t ∧ State.SameRegisters s t ∧ State.SameLines s t
    (d.mode = .readSetup → s.cfg.decodePage d.abuf = none → ∃ t, exec .cmdReadConfirm s = .next t ∧ leftOpen t) ∧
    (d.mode = .prog → s.cfg.decodePage d.abuf = none → ∃ t, exec .cmdProgramConfirm s = .next t ∧ leftOpen t) ∧
    (d.mode = .eraseSetup → s.cfg.decodeBlock d.abuf = none → ∃ t, exec .cmdEraseConfirm s = .next t ∧ leftOpen t)

/-- CMD_READ_ID and ADDR (20_memory.md R63; 42_phases.md R164), on the reference device or a general die that is not
busy: mode ID with no address bytes and `rptr` 0; ADDR in any mode appends its bytes to the selected die's. That a general
die latches as the reference device does is the model's reading (log 34). -/
def Obligations.ReadIdAndAddrCycles : Prop :=
  ∀ (s : State) (c : BitVec 4) (d : Die), s.sel = some c → s.dies[c.toNat]? = some d →
    s.cfg.device = .reference ∨ d.busy = false →
    exec .cmdReadId s = .next { s with dies := s.dies.set c.toNat { d with mode := .id, abuf := [], rptr := 0 } } ∧
    ∀ l : List Byte, exec (.addr l) s = .next { s with
      dies := s.dies.set c.toNat { d with abuf := d.abuf ++ l }
      trace := s.trace ++ [⟨.addr l, .unit⟩] }

/-- DOUT (20_memory.md R67): in mode PROG byte `i` goes to `pbuf[col + i]` while that is inside the page, bytes beyond
the page are dropped; in any other mode it has no effect. -/
def Obligations.DoutFillsThePageBuffer : Prop :=
  ∀ (s : State) (c : BitVec 4) (d : Die) (l : List Byte), s.cfg.device = .reference → s.sel = some c →
    s.dies[c.toNat]? = some d → d.pbuf.length = s.cfg.fullPageSize →
    (d.mode = .prog → d.abuf.length = s.cfg.colCycles + s.cfg.rowCycles →
      ∃ buf : List Byte, exec (.dout l) s = .next { s with
          dies := s.dies.set c.toNat { d with pbuf := buf }
          trace := s.trace ++ [⟨.dout l, .unit⟩] } ∧
        buf.length = s.cfg.fullPageSize ∧
        let col := leNat (d.abuf.take s.cfg.colCycles)
        ∀ k : Nat, k < s.cfg.fullPageSize →
          buf[k]? = if col ≤ k ∧ k < col + l.length then l[k - col]? else d.pbuf[k]?) ∧
    (d.mode ≠ .prog → exec (.dout l) s = .next { s with trace := s.trace ++ [⟨.dout l, .unit⟩] })

/-- DIN on the reference device (20_memory.md R72, 42_phases.md R166): exactly `n` bytes, those the mode gives, and
`rptr` moved on in the modes ID and READ_DATA; nothing else of the dice changes. With no die selected `n` bytes that no
rule gives. -/
def Obligations.DinReturnsTheBytesOfItsMode : Prop :=
  ∀ (s : State) (n : Nat), s.cfg.device = .reference →
    (s.sel = none → ∃ t l, exec (.din n) s = .next t ∧ t.trace = s.trace ++ [⟨.din n, .bytes l⟩] ∧ l.length = n ∧
      t.dies = s.dies) ∧
    ∀ (c : BitVec 4) (d : Die), s.sel = some c → s.dies[c.toNat]? = some d → d.preg.length = s.cfg.fullPageSize →
    ∃ t l d', exec (.din n) s = .next t ∧ t.trace = s.trace ++ [⟨.din n, .bytes l⟩] ∧ l.length = n ∧
      t.dies = s.dies.set c.toNat d' ∧
      (d.mode = .id → d'.rptr = d.rptr + n ∧ (d.abuf = [s.cfg.idAddr] → ∀ k : Nat, k < n →
        d.rptr + k < s.cfg.expectedId.length → l[k]? = s.cfg.expectedId[d.rptr + k]?)) ∧
      (d.mode = .readData → d'.rptr = d.rptr + n ∧ ∀ k : Nat, k < n → d.rptr + k < s.cfg.fullPageSize →
        l[k]? = d.preg[d.rptr + k]?) ∧
      (d.mode = .status → l = fill n d.status) ∧
      (d.mode ≠ .id → d.mode ≠ .readData → d'.rptr = d.rptr) ∧
      d'.mode = d.mode ∧ d'.image = d.image ∧ d'.abuf = d.abuf ∧ d'.pbuf = d.pbuf ∧ d'.preg = d.preg ∧
      d'.status = d.status ∧ d'.fail = d.fail

/-- DIN of an unknown die of the general device is a draw (70_reset_and_hazards.md R228): the bytes supplied from
outside, or free ones (the model's own fields, log 11, log 12); a supplied answer of another length is refused
(42_phases.md R166). That the die is unknown is the model's field (log 17). -/
def Obligations.DinOfAnUnknownDieIsADraw : Prop :=
  ∀ (s : State) (c : BitVec 4) (d : Die) (n : Nat), s.cfg.device = .general → s.sel = some c →
    s.dies[c.toNat]? = some d → d.unknown = true →
    (s.answers = [] → ∃ t, exec (.din n) s = .next t ∧
      t.trace = s.trace ++ [⟨.din n, .bytes (freeBytes s.draws n)⟩]) ∧
    (∀ l rest, s.answers = .bytes l :: rest → l.length = n → ∃ t, exec (.din n) s = .next t ∧
      t.trace = s.trace ++ [⟨.din n, .bytes l⟩] ∧ t.answers = rest) ∧
    (∀ l rest, s.answers = .bytes l :: rest → l.length ≠ n → exec (.din n) s = .refused .driverContract)

/-- WAIT_RDY (42_phases.md R167, 20_memory.md R71): READY at once on the reference device, whatever the bound, and on a
general die that is ready. While a general die is busy: READY when it becomes ready (the array effect in progress is
stored under a passing status and not under a failing one, and no other byte changes), TIMEOUT only under a finite bound,
and under INF the phase stays on the driver port. On the general device this is the model's reading of 20_memory.md R59,
R78 and 70_reset_and_hazards.md R228: the answers come from outside (log 12), the effect and the status are held until
READY (log 15), a die that timed out is unknown (log 17), and a wait that holds goes back on the bench (log 21, log 10). -/
def Obligations.WaitRdyAnswersOfTheDevice : Prop :=
  ∀ (s : State) (bound : ReadyBound),
    (s.cfg.device = .reference →
      exec (.waitRdy bound) s = .next { s with trace := s.trace ++ [⟨.waitRdy bound, .ready⟩] }) ∧
    ∀ (c : BitVec 4) (d : Die), s.cfg.device = .general → s.sel = some c → s.dies[c.toNat]? = some d →
    (d.busy = false → d.unknown = false → exec (.waitRdy bound) s =
      .next { s with trace := s.trace ++ [⟨.waitRdy bound, .ready⟩] }) ∧
    (∀ st rest, d.busy = true → s.answers = .ready st :: rest → ∃ t d', exec (.waitRdy bound) s = .next t ∧
      t.answers = rest ∧ t.trace = s.trace ++ [⟨.waitRdy bound, .ready⟩] ∧ t.dies = s.dies.set c.toNat d' ∧
      d'.busy = false ∧ d'.pend = none ∧
      (Memory.wf d.image = true →
        (∀ a : Nat, (∀ p, d.pend = some p → a < p.off ∨ p.off + p.bytes.length ≤ a) →
          Memory.read d'.image a = Memory.read d.image a) ∧
        (d.unknown = false → ∀ p, d.pend = some p →
          (statusPass s.cfg st = true → ∀ (k : Nat) (b : Byte), p.bytes[k]? = some b →
            Memory.read d'.image (p.off + k) = b) ∧
          (statusPass s.cfg st = false → d'.image = d.image)))) ∧
    (∀ n rest, d.busy = true → s.answers = .timeout :: rest → bound = .polls n → ∃ t d',
      exec (.waitRdy bound) s = .next t ∧ t.answers = rest ∧
      t.trace = s.trace ++ [⟨.waitRdy bound, .timeout⟩] ∧ t.dies = s.dies.set c.toNat d' ∧
      d'.unknown = true ∧ d'.image = d.image) ∧
    (∀ rest, d.busy = true → s.answers = .timeout :: rest → bound = .inf → exec (.waitRdy bound) s =
      .next { s with answers := rest, bench := .phase (encodePhase (.waitRdy .inf)) :: s.bench })

/-! ### The command cycles -/

/-- The three setup commands (20_memory.md R64), on the reference device or a general die that is not busy (that a general
die latches as the reference device does is the model's reading, log 34). -/
def Obligations.SetupCommandsSetTheMode : Prop :=
  ∀ (s : State) (c : BitVec 4) (d : Die), s.sel = some c → s.dies[c.toNat]? = some d →
    s.cfg.device = .reference ∨ d.busy = false →
    exec .cmdReadSetup s =
      .next { s with dies := s.dies.set c.toNat { d with mode := .readSetup, abuf := [] } } ∧
    exec .cmdProgramSetup s = .next { s with
      dies := s.dies.set c.toNat
        { d with mode := .prog, abuf := [], pbuf := fill (s.cfg.pageDataSize + s.cfg.spareSize) 0xFF } } ∧
    exec .cmdEraseSetup s =
      .next { s with dies := s.dies.set c.toNat { d with mode := .eraseSetup, abuf := [] } }

/-- CMD_READ_CONFIRM (20_memory.md R66): in mode READ_SETUP the addressed page goes into the page register and the mode
is READ_DATA, the image unchanged; a general die goes busy (42_phases.md R163). The page register of a general die is
the model's reading (log 34), and that a die is busy after a confirm is presumed (log 33, K8). That the bytes of an
unknown die do not change by themselves is the model's choice (log 17). -/
def Obligations.ReadConfirmLoadsThePage : Prop :=
  ∀ (s : State) (c : BitVec 4) (d : Die) (col row : Nat), s.sel = some c → s.dies[c.toNat]? = some d →
    s.cfg.device = .reference ∨ d.busy = false →
    d.mode = .readSetup → s.cfg.decodePage d.abuf = some (col, row) →
    ∃ t d', exec .cmdReadConfirm s = .next t ∧ t.dies = s.dies.set c.toNat d' ∧ d'.mode = .readData ∧
      d'.rptr = col ∧ d'.image = d.image ∧ d'.preg.length = s.cfg.fullPageSize ∧
      (∀ k : Nat, k < s.cfg.fullPageSize →
        d'.preg[k]? = some (Memory.read d.image (row * s.cfg.fullPageSize + k))) ∧
      (d'.busy = true ↔ s.cfg.device = .general)

/-- CMD_PROGRAM_CONFIRM on the reference device (20_memory.md R68): protected or injected, `fail` is set and the array is
unchanged; otherwise each byte of the page is ANDed with `pbuf`, no other byte changes, `fail` is cleared; the status byte
is `StatusByte` and the mode IDLE. -/
def Obligations.ProgramConfirmAndsThePage : Prop :=
  ∀ (s : State) (c : BitVec 4) (d : Die) (col row : Nat), s.cfg.device = .reference → s.sel = some c →
    s.dies[c.toNat]? = some d → Memory.wf d.image = true → d.pbuf.length = s.cfg.fullPageSize →
    d.mode = .prog → s.cfg.decodePage d.abuf = some (col, row) →
    let blocked := s.wp = true ∨ Injection.mk c.toNat (row / s.cfg.pagesPerBlock) .program ∈ s.cfg.inject
    let off := row * s.cfg.fullPageSize
    ∃ t d', exec .cmdProgramConfirm s = .next t ∧ t.dies = s.dies.set c.toNat d' ∧ d'.mode = .idle ∧
      (d'.fail = true ↔ blocked) ∧ d'.status = statusByte s.wp d'.fail ∧
      (blocked → d'.image = d.image) ∧
      (¬blocked → ∀ a : Nat, Memory.read d'.image a =
        if off ≤ a ∧ a < off + s.cfg.fullPageSize
        then Memory.read d.image a &&& d.pbuf.getD (a - off) 0xFF else Memory.read d.image a)

/-- CMD_ERASE_CONFIRM on the reference device (20_memory.md R69): protected or injected, `fail` is set and the array is
unchanged; otherwise every byte of the block is 0xFF, no other byte changes, `fail` is cleared; the status byte is
`StatusByte` and the mode IDLE. -/
def Obligations.EraseConfirmFillsTheBlock : Prop :=
  ∀ (s : State) (c : BitVec 4) (d : Die) (block : Nat), s.cfg.device = .reference → s.sel = some c →
    s.dies[c.toNat]? = some d → Memory.wf d.image = true →
    d.mode = .eraseSetup → s.cfg.decodeBlock d.abuf = some block →
    let blocked := s.wp = true ∨ Injection.mk c.toNat block .erase ∈ s.cfg.inject
    let off := block * (s.cfg.pagesPerBlock * s.cfg.fullPageSize)
    ∃ t d', exec .cmdEraseConfirm s = .next t ∧ t.dies = s.dies.set c.toNat d' ∧ d'.mode = .idle ∧
      (d'.fail = true ↔ blocked) ∧ d'.status = statusByte s.wp d'.fail ∧
      (blocked → d'.image = d.image) ∧
      (¬blocked → ∀ a : Nat, Memory.read d'.image a =
        if off ≤ a ∧ a < off + s.cfg.pagesPerBlock * s.cfg.fullPageSize then 0xFF else Memory.read d.image a)

/-- CMD_READ_STATUS in any mode (20_memory.md R70), on the reference device. -/
def Obligations.ReadStatusCommandEntersModeStatus : Prop :=
  ∀ (s : State) (c : BitVec 4) (d : Die), s.cfg.device = .reference → s.sel = some c →
    s.dies[c.toNat]? = some d →
    exec .cmdReadStatus s = .next { s with
      dies := s.dies.set c.toNat { d with mode := .status, status := statusByte s.wp d.fail } }

/-- The confirm of a program or erase on a general die that is healthy (42_phases.md R163, 20_memory.md R59, R78): it goes
busy, and its array effect is in progress: the old page AND `pbuf`, or 0xFF in every byte of the block; every byte outside
the addressed page or block stays. That the effect is held from the confirm to READY is the model's reading (log 15), that
a die is busy after a confirm is presumed (log 33, K8), and a protected die is no other case (93 U30, log 19). -/
def Obligations.GeneralConfirmStartsTheOperation : Prop :=
  ∀ (s : State) (c : BitVec 4) (d : Die), s.cfg.device = .general → s.sel = some c → s.dies[c.toNat]? = some d →
    Memory.wf d.image = true → d.pbuf.length = s.cfg.fullPageSize → d.busy = false → d.unknown = false →
    let starts : State → Nat → Nat → (Nat → Byte) → Prop := fun t off n stored =>
      ∃ d', t.dies = s.dies.set c.toNat d' ∧ d'.busy = true ∧ d'.mode = .idle ∧
        (∃ p, d'.pend = some p ∧ p.off = off ∧ p.bytes.length = n ∧
          ∀ k : Nat, k < n → p.bytes[k]? = some (stored k)) ∧
        ∀ a : Nat, a < off ∨ off + n ≤ a → Memory.read d'.image a = Memory.read d.image a
    (∀ col row, d.mode = .prog → s.cfg.decodePage d.abuf = some (col, row) →
      ∃ t, exec .cmdProgramConfirm s = .next t ∧ starts t (row * s.cfg.fullPageSize) s.cfg.fullPageSize
        (fun k => Memory.read d.image (row * s.cfg.fullPageSize + k) &&& d.pbuf.getD k 0xFF)) ∧
    (∀ block, d.mode = .eraseSetup → s.cfg.decodeBlock d.abuf = some block →
      ∃ t, exec .cmdEraseConfirm s = .next t ∧ starts t (block * s.cfg.blockSize) s.cfg.blockSize (fun _ => 0xFF))

/-- With no die selected, a command cycle, ADDR and DOUT have no effect on the device (20_memory.md R60). -/
def Obligations.NothingHappensWithNoDieSelected : Prop :=
  ∀ s : State, s.sel = none →
    (∀ k : NandCmd, exec (Instr.ofNandCmd k) s = .next s) ∧
    (∀ b, exec (.cmd b) s = .next { s with trace := s.trace ++ [⟨.cmd b, .unit⟩] }) ∧
    (∀ l, exec (.addr l) s = .next { s with trace := s.trace ++ [⟨.addr l, .unit⟩] }) ∧
    (∀ l, exec (.dout l) s = .next { s with trace := s.trace ++ [⟨.dout l, .unit⟩] })

/-! ### Frames -/

/-- The frame of the eight command cycles: every register of the controller, every line, every other die, the traces and
the ports are as before, and so is every byte of every image, unless the command is the confirm of a program or erase,
or that of a read in its mode with an address the die cannot decode (20_memory.md R65), which leaves all of the die open
(log 14). That a confirm outside its mode keeps the image is the model's choice (log 13). That the bytes of an unknown
die do not change by themselves is the model's choice (log 17). -/
def Obligations.CommandCyclesLeaveTheRestUnchanged : Prop :=
  ∀ (k : NandCmd) (s t : State), exec (Instr.ofNandCmd k) s = .next t →
    State.SameRegisters s t ∧ State.SameLines s t ∧ State.SameOtherDies s t ∧
    t.bench = s.bench ∧ t.trace = s.trace ∧ t.answers = s.answers ∧
    (k ≠ .programConfirm → k ≠ .eraseConfirm →
      (k = .readConfirm → ∀ (c : BitVec 4) (d : Die), s.sel = some c → s.dies[c.toNat]? = some d →
        d.mode = .readSetup → s.cfg.decodePage d.abuf ≠ none) →
      State.SameImages s t)

/-- The stored bytes of the two confirms that store: a program stores only to the page `decodePage` reads from the die's
address bytes, an erase only to the block `decodeBlock` reads. Outside its mode neither stores: the model's choice (log
13), since 20_memory.md R70 leaves that device state open. That the bytes of an unknown die do not change by themselves
is the model's choice (log 17). -/
def Obligations.ConfirmsStoreOnlyToTheirAddress : Prop :=
  ∀ (s t : State) (c : BitVec 4) (d : Die), s.sel = some c → s.dies[c.toNat]? = some d →
    Memory.wf d.image = true →
    (exec .cmdProgramConfirm s = .next t →
      (d.mode ≠ .prog → State.SameImages s t) ∧
      ∀ col row, s.cfg.decodePage d.abuf = some (col, row) → ∀ c' a : Nat,
        c' ≠ c.toNat ∨ a < row * s.cfg.fullPageSize ∨ row * s.cfg.fullPageSize + s.cfg.fullPageSize ≤ a →
        t.imageByte c' a = s.imageByte c' a) ∧
    (exec .cmdEraseConfirm s = .next t →
      (d.mode ≠ .eraseSetup → State.SameImages s t) ∧
      ∀ block, s.cfg.decodeBlock d.abuf = some block → ∀ c' a : Nat,
        c' ≠ c.toNat ∨ a < block * s.cfg.blockSize ∨ block * s.cfg.blockSize + s.cfg.blockSize ≤ a →
        t.imageByte c' a = s.imageByte c' a)

/-- The frame of the eight phases: the controller's registers are as before but for the output a SELECT, DESELECT or
SET_WP drives; every other die is as before; the phase joins the trace, unless it is a wait that holds; every byte of
every image is as before unless the phase is the command byte of a program's or erase's confirm, that of a read's
confirm in its mode with an address the die cannot decode (log 14), or a wait on the general device with an array effect
in progress. That a command byte that is none of the eight, a confirm outside its mode and a DOUT whose column cannot be
read keep the image is the model's choice (log 13). A wait that holds goes back on the bench (log 21, log 10). That the
bytes of an unknown die do not change by themselves is the model's choice (log 17). -/
def Obligations.PhasesLeaveTheRestUnchanged : Prop :=
  ∀ (p : Phase) (s t : State), exec (Instr.ofPhase p) s = .next t →
    State.SameRegisters s t ∧ t.csSel = p.nextCsSel s.csSel ∧ t.wpAsserted = p.nextWp s.wpAsserted ∧
    t.wp = p.nextWp s.wp ∧ t.sel = p.nextSel s.sel ∧ State.SameOtherDies s t ∧
    ((t.bench = s.bench ∧ ∃ r, p.Completes r ∧ t.trace = s.trace ++ [⟨p, r⟩]) ∨
      (p = .waitRdy .inf ∧ s.cfg.device = .general ∧ t.trace = s.trace ∧
        t.bench = .phase (encodePhase p) :: s.bench)) ∧
    (s.storesIn p = false → (p.waits = true → ∀ (c : Nat) (d : Die), s.dies[c]? = some d → d.pend = none) →
      State.SameImages s t)

/-- The frame of the four requests: a step of one leaves the latch, the configuration, the host's side of the ports, the
bench and the responses delivered as before; `idbuf` is written by IDENTIFY only, `status_reg` by ERASE_BLOCK and
PROGRAM_PAGE only, `dbuf` by READ_PAGE only; no die but the selected one changes; and no byte of any image, unless the
phase at `phase_pc` is the confirm command of a program or erase, that of a read with an address the die cannot decode
(log 14), or a wait with an array effect in progress. That a confirm outside its mode and a DOUT whose column cannot be
read keep the image is the model's choice (log 13); in a legal state neither occurs. That the bytes of an unknown die do
not change by themselves is the model's choice (log 17). -/
def Obligations.RequestStepsLeaveTheRestUnchanged : Prop :=
  ∀ (i : Instr) (s t : State), exec i s = .next t →
    ((∃ cs, i = .identify cs) ∨ (∃ cs b, i = .eraseBlock cs b) ∨ (∃ cs b p, i = .programPage cs b p) ∨
      ∃ cs b p, i = .readPage cs b p) →
    t.cfg = s.cfg ∧ t.reqOp = s.reqOp ∧ t.reqCs = s.reqCs ∧ t.reqBlock = s.reqBlock ∧ t.reqPage = s.reqPage ∧
    t.reqLen = s.reqLen ∧ t.requests = s.requests ∧ t.hostTakes = s.hostTakes ∧ t.rst = s.rst ∧
    t.bench = s.bench ∧ t.delivered = s.delivered ∧
    (t.idbuf = s.idbuf ∨ ∃ cs, i = .identify cs) ∧
    (t.statusReg = s.statusReg ∨ (∃ cs b, i = .eraseBlock cs b) ∨ ∃ cs b p, i = .programPage cs b p) ∧
    (t.dbuf = s.dbuf ∨ ∃ cs b p, i = .readPage cs b p) ∧
    State.SameOtherDies s t ∧
    ((∀ p, (s.phasesOf i)[s.phasePc.toNat]? = some p → s.storesIn p = false ∧
        (p.waits = true → ∀ (c : Nat) (d : Die), s.dies[c]? = some d → d.pend = none)) → State.SameImages s t)

/-! ### Rules of the whole machine -/

/-- READ_PAGE and IDENTIFY change no byte of any page space, on either device (20_memory.md R59). That the bytes of an
unknown die do not change by themselves meanwhile is the model's choice (log 17). -/
def Obligations.ReadAndIdentifyChangeNoByte : Prop :=
  ∀ s t : State, s.Inv → s.ctl = .busy → s.reqOp = 1 ∨ s.reqOp = 4 → step s = .next t → State.SameImages s t

/-- A request on one chip select changes nothing of another's die (20_memory.md R50, 60_exceptions.md R203). That the
bytes of an unknown die do not change by themselves is the model's choice (log 17). -/
def Obligations.OtherChipSelectsAreUntouched : Prop :=
  ∀ s t : State, s.Inv → s.ctl = .busy → step s = .next t →
    t.dies.length = s.dies.length ∧ ∀ c : Nat, c ≠ s.reqCs.toNat → t.dies[c]? = s.dies[c]?

/-- The write-protect window (70_reset_and_hazards.md R229): in a legal state the line, at the controller's output and at
the dice, is released only within ERASE_BLOCK or PROGRAM_PAGE, between SET_WP 0 and SET_WP 1; only their SET_WP 0 phase
releases it; a reset re-asserts it at once. -/
def Obligations.WriteProtectWindow : Prop :=
  let released : State → Prop := fun x => x.wpAsserted = false ∨ x.wp = false
  ∀ s t : State, s.Inv → step s = .next t →
    (released s → s.ctl = .busy ∧
      ((s.reqOp = 2 ∧ (2 ≤ s.phasePc.toNat ∧ s.phasePc.toNat ≤ 8 ∨ s.phasePc.toNat = 12)) ∨
        (s.reqOp = 3 ∧ (2 ≤ s.phasePc.toNat ∧ s.phasePc.toNat ≤ 9 ∨ s.phasePc.toNat = 12)))) ∧
    (¬released s → released t → s.ctl = .busy ∧ s.phasePc = 1 ∧ (s.reqOp = 2 ∨ s.reqOp = 3)) ∧
    (s.rst = true → ¬released t)

/-- Where the controller's buffers and latch are written (10_state.md R23 to R26), reset apart: `status_reg` by the
`DIN(1)` of ERASE_BLOCK and PROGRAM_PAGE, `idbuf` by the `DIN` of IDENTIFY, `dbuf` by the `DIN` of READ_PAGE and at the
acceptance of a PROGRAM_PAGE, the latch at acceptance. -/
def Obligations.BuffersAreWrittenOnlyWhereTheRulesSay : Prop :=
  ∀ s t : State, s.rst = false → s.bench = [] → step s = .next t →
    (t.statusReg ≠ s.statusReg → s.ctl = .busy ∧ ((s.reqOp = 2 ∧ s.phasePc = 7) ∨ (s.reqOp = 3 ∧ s.phasePc = 8))) ∧
    (t.idbuf ≠ s.idbuf → s.ctl = .busy ∧ s.reqOp = 1 ∧ s.phasePc = 3) ∧
    (t.dbuf ≠ s.dbuf → (s.ctl = .busy ∧ s.reqOp = 4 ∧ s.phasePc = 5) ∨ (s.ctl = .idle ∧ t.ctl = .busy ∧ t.reqOp = 3)) ∧
    (t.reqOp ≠ s.reqOp ∨ t.reqCs ≠ s.reqCs ∨ t.reqBlock ≠ s.reqBlock ∨ t.reqPage ≠ s.reqPage ∨
      t.reqLen ≠ s.reqLen → s.ctl = .idle ∧ t.ctl = .busy)

/-- Every fault response is recorded as a fault of the run, and none is ever cleared (60_exceptions.md R198). The
list of them is the model's own record (log 9). -/
def Obligations.FaultsOfTheRunAreNeverCleared : Prop :=
  ∀ s t : State, step s = .next t →
    (t.runFaults = s.runFaults ∨ ∃ f, t.runFaults = s.runFaults ++ [f] ∧ t.resp = .fault f) ∧
    (∀ f, s.resp = .none → t.resp = .fault f → t.runFaults = s.runFaults ++ [f])
end

