-- ==== Sys2Proof/Laws/Decode.lean ====
section
/-! SUPPORT. The request word's fields: packing and unpacking, and what a decoded request says of its fields. -/

namespace Sys2Proof

@[simp] theorem wordOp_packWord (op cs : BitVec 4) (block : BitVec 16) (page : BitVec 8) :
    wordOp (packWord op cs block page) = op := by
  apply BitVec.eq_of_getLsbD_eq
  intro i hi
  simp only [wordOp, packWord, BitVec.getLsbD_extractLsb', BitVec.getLsbD_append]
  rw [if_neg (by omega), if_neg (by omega), if_neg (by omega)]
  simp [hi, show 28 + i - 8 - 16 - 4 = i by omega]

@[simp] theorem wordCs_packWord (op cs : BitVec 4) (block : BitVec 16) (page : BitVec 8) :
    wordCs (packWord op cs block page) = cs := by
  apply BitVec.eq_of_getLsbD_eq
  intro i hi
  simp only [wordCs, packWord, BitVec.getLsbD_extractLsb', BitVec.getLsbD_append]
  rw [if_neg (by omega), if_neg (by omega), if_pos (by omega)]
  simp [hi, show 24 + i - 8 - 16 = i by omega]

@[simp] theorem wordBlock_packWord (op cs : BitVec 4) (block : BitVec 16) (page : BitVec 8) :
    wordBlock (packWord op cs block page) = block := by
  apply BitVec.eq_of_getLsbD_eq
  intro i hi
  simp only [wordBlock, packWord, BitVec.getLsbD_extractLsb', BitVec.getLsbD_append]
  rw [if_neg (by omega), if_pos (by omega)]
  simp [hi, show 8 + i - 8 = i by omega]

@[simp] theorem wordPage_packWord (op cs : BitVec 4) (block : BitVec 16) (page : BitVec 8) :
    wordPage (packWord op cs block page) = page := by
  apply BitVec.eq_of_getLsbD_eq
  intro i hi
  simp only [wordPage, packWord, BitVec.getLsbD_extractLsb', BitVec.getLsbD_append]
  rw [if_pos (by omega)]
  simp [hi]

/-- A word is its fields packed again. -/
theorem packWord_fields (w : BitVec 32) : packWord (wordOp w) (wordCs w) (wordBlock w) (wordPage w) = w := by
  apply BitVec.eq_of_getLsbD_eq
  intro i hi
  simp only [packWord, wordOp, wordCs, wordBlock, wordPage, BitVec.getLsbD_append, BitVec.getLsbD_extractLsb']
  split
  · simp [*]
  · split
    · simp [*, show 8 + (i - 8) = i by omega]
    · split
      · simp [*, show 24 + (i - 8 - 16) = i by omega]
      · simp [show 28 + (i - 8 - 16 - 4) = i by omega]; omega

/-- A packed word decodes by its fields. -/
theorem decodeRequest_packWord (op cs : BitVec 4) (block : BitVec 16) (page : BitVec 8) :
    decodeRequest (packWord op cs block page) = decodeFields op cs block page := by
  simp [decodeRequest]

/-- What the fields of a well-encoded request are. -/
theorem decodeFields_ok {op cs : BitVec 4} {block : BitVec 16} {page : BitVec 8} {i : Instr}
    (h : decodeFields op cs block page = .ok i) :
    (op = 1 ∧ block = 0 ∧ page = 0 ∧ i = .identify cs) ∨
    (op = 2 ∧ page = 0 ∧ i = .eraseBlock cs block) ∨
    (op = 3 ∧ i = .programPage cs block page) ∨
    (op = 4 ∧ i = .readPage cs block page) := by
  have hop : ∀ k : BitVec 4, op.toNat = k.toNat → op = k := fun k h => BitVec.eq_of_toNat_eq h
  unfold decodeFields at h
  split at h
  · next h1 =>
    split at h
    · next hc =>
      simp only [Except.ok.injEq] at h
      exact .inl ⟨hop 1 h1, hc.1, hc.2, h.symm⟩
    · cases h
  · next h1 =>
    split at h
    · next hc =>
      simp only [Except.ok.injEq] at h
      exact .inr (.inl ⟨hop 2 h1, hc, h.symm⟩)
    · cases h
  · next h1 =>
    simp only [Except.ok.injEq] at h
    exact .inr (.inr (.inl ⟨hop 3 h1, h.symm⟩))
  · next h1 =>
    simp only [Except.ok.injEq] at h
    exact .inr (.inr (.inr ⟨hop 4 h1, h.symm⟩))
  · cases h

/-- The eight command bytes name eight different cycles. -/
theorem nandCmdOf_commandByte {cfg : Config} (h : cfg.commandList.Nodup) (k : NandCmd) :
    nandCmdOf cfg (cfg.commandByte k) = some k := by
  have hinj : ∀ a b : NandCmd, cfg.commandByte a = cfg.commandByte b → a = b := by
    simp [Config.commandList, NandCmd.all, List.nodup_cons, Config.commandByte] at h
    intro a b hab
    cases a <;> cases b <;> simp [Config.commandByte] at hab <;> first | rfl | (exfalso; simp_all)
  unfold nandCmdOf
  cases hf : NandCmd.all.find? (fun k' => decide (cfg.commandByte k' = cfg.commandByte k)) with
  | none =>
    have := List.find?_eq_none.mp hf k (by cases k <;> decide)
    simp at this
  | some k' =>
    have := List.find?_some hf
    simp at this
    rw [hinj _ _ this]

end Sys2Proof
end

