-- ==== Sys2Proof/Laws/Memory.lean ====
section
/-! SUPPORT. One die's image: read after write, and every memory operation keeps the canonical form. -/

namespace Sys2Proof.Machine

theorem Memory.read_nil (a : Nat) : Memory.read [] a = Memory.unlisted := rfl

theorem Memory.wfFrom_mono {lo lo' : Nat} {m : Memory} (h : lo' ≤ lo) (hm : Memory.wfFrom lo m = true) :
    Memory.wfFrom lo' m = true := by
  cases m with
  | nil => rfl
  | cons e t =>
    obtain ⟨k, v⟩ := e
    simp only [Memory.wfFrom, Bool.and_eq_true, decide_eq_true_eq] at hm ⊢
    exact ⟨⟨by omega, hm.1.2⟩, hm.2⟩

/-- Below the first listed address every byte is unlisted. -/
theorem Memory.read_below {lo a : Nat} {m : Memory} (hm : Memory.wfFrom lo m = true) (h : a < lo) :
    Memory.read m a = Memory.unlisted := by
  induction m generalizing lo with
  | nil => rfl
  | cons e t ih =>
    obtain ⟨k, v⟩ := e
    simp only [Memory.wfFrom, Bool.and_eq_true, decide_eq_true_eq] at hm
    rw [Memory.read, if_neg (by omega)]
    exact ih hm.2 (by omega)

theorem Memory.write_wfFrom {lo a : Nat} {m : Memory} (b : Byte) (hm : Memory.wfFrom lo m = true) (h : lo ≤ a) :
    Memory.wfFrom lo (Memory.write m a b) = true := by
  induction m generalizing lo with
  | nil =>
    unfold Memory.write
    split
    · rfl
    · next hb => simp [Memory.wfFrom, hb, h]
  | cons e t ih =>
    obtain ⟨k, v⟩ := e
    have hm' := hm
    simp only [Memory.wfFrom, Bool.and_eq_true, decide_eq_true_eq] at hm
    unfold Memory.write
    split
    · split
      · exact hm'
      · next hk hb =>
        simp only [Memory.wfFrom, Bool.and_eq_true, decide_eq_true_eq]
        exact ⟨⟨h, hb⟩, ⟨by omega, hm.1.2⟩, hm.2⟩
    · split
      · split
        · exact Memory.wfFrom_mono (by omega) hm.2
        · next hk ha hb =>
          simp only [Memory.wfFrom, Bool.and_eq_true, decide_eq_true_eq]
          exact ⟨⟨h, hb⟩, Memory.wfFrom_mono (by omega) hm.2⟩
      · simp only [Memory.wfFrom, Bool.and_eq_true, decide_eq_true_eq]
        exact ⟨⟨hm.1.1, hm.1.2⟩, ih hm.2 (by omega)⟩

/-- A write keeps the canonical form. -/
theorem Memory.write_wf {m : Memory} (a : Nat) (b : Byte) (hm : Memory.wf m = true) :
    Memory.wf (Memory.write m a b) = true :=
  Memory.write_wfFrom b hm (Nat.zero_le a)

/-- A write of many bytes keeps the canonical form. -/
theorem Memory.writeBytes_wf {m : Memory} (off : Nat) (l : List Byte) (hm : Memory.wf m = true) :
    Memory.wf (Memory.writeBytes m off l) = true := by
  induction l generalizing m off with
  | nil => exact hm
  | cons b t ih => exact ih _ (Memory.write_wf _ _ hm)

theorem Memory.read_write_from {lo : Nat} {m : Memory} (a : Nat) (b : Byte) (c : Nat)
    (hm : Memory.wfFrom lo m = true) :
    Memory.read (Memory.write m a b) c = if c = a then b else Memory.read m c := by
  induction m generalizing lo with
  | nil =>
    unfold Memory.write
    split
    · next hb => split <;> simp [Memory.read, hb]
    · by_cases h : c = a
      · simp [Memory.read, h]
      · simp [Memory.read, h, Ne.symm h]
  | cons e t ih =>
    obtain ⟨k, v⟩ := e
    have hm' := hm
    simp only [Memory.wfFrom, Bool.and_eq_true, decide_eq_true_eq] at hm
    unfold Memory.write
    split
    · next hk =>
      split
      · next hb =>
        split
        · next hc =>
          subst hc
          rw [hb]
          exact Memory.read_below (lo := k) (by
            simp only [Memory.wfFrom, Bool.and_eq_true, decide_eq_true_eq]
            exact ⟨⟨Nat.le_refl k, hm.1.2⟩, hm.2⟩) hk
        · rfl
      · by_cases h : c = a
        · simp [Memory.read, h]
        · rw [if_neg h, Memory.read, if_neg (Ne.symm h)]
    · split
      · next hk ha =>
        subst ha
        split
        · next hb =>
          by_cases h : c = a
          · rw [if_pos h, hb, h]
            exact Memory.read_below hm.2 (by omega)
          · rw [if_neg h, Memory.read, if_neg (Ne.symm h)]
        · by_cases h : c = a
          · simp [Memory.read, h]
          · rw [if_neg h, Memory.read, if_neg (Ne.symm h), Memory.read, if_neg (Ne.symm h)]
      · next hk ha =>
        by_cases hc : k = c
        · have : c ≠ a := by omega
          rw [if_neg this, Memory.read, if_pos hc, Memory.read, if_pos hc]
        · rw [Memory.read, if_neg hc, ih hm.2, Memory.read, if_neg hc]

/-- Read after write of one byte. -/
theorem Memory.read_write {m : Memory} (a : Nat) (b : Byte) (c : Nat) (hm : Memory.wf m = true) :
    Memory.read (Memory.write m a b) c = if c = a then b else Memory.read m c :=
  Memory.read_write_from a b c hm

/-- Read after a write of many bytes, outside them. -/
theorem Memory.read_writeBytes_outside {m : Memory} {off : Nat} {l : List Byte} {a : Nat}
    (hm : Memory.wf m = true) (ha : a < off ∨ off + l.length ≤ a) :
    Memory.read (Memory.writeBytes m off l) a = Memory.read m a := by
  induction l generalizing m off with
  | nil => rfl
  | cons b t ih =>
    simp only [List.length_cons] at ha
    rw [Memory.writeBytes, ih (Memory.write_wf _ _ hm) (by omega), Memory.read_write _ _ _ hm,
      if_neg (by omega)]

/-- Read after a write of many bytes, inside them. -/
theorem Memory.read_writeBytes_inside {m : Memory} {off : Nat} {l : List Byte} {k : Nat}
    (hm : Memory.wf m = true) (hk : k < l.length) :
    Memory.read (Memory.writeBytes m off l) (off + k) = l[k] := by
  induction l generalizing m off k with
  | nil => simp at hk
  | cons b t ih =>
    rw [Memory.writeBytes]
    cases k with
    | zero =>
      rw [Memory.read_writeBytes_outside (Memory.write_wf _ _ hm) (by omega), Memory.read_write _ _ _ hm]
      simp
    | succ k =>
      have := ih (m := Memory.write m off b) (off := off + 1) (k := k) (Memory.write_wf _ _ hm)
        (by simpa using hk)
      rw [show off + (k + 1) = off + 1 + k by omega, this]
      simp

@[simp] theorem Memory.readBytes_length (m : Memory) (off n : Nat) :
    (Memory.readBytes m off n).length = n := by simp [Memory.readBytes]

@[simp] theorem Memory.readBytes_getElem (m : Memory) (off n k : Nat) (h : k < (Memory.readBytes m off n).length) :
    (Memory.readBytes m off n)[k] = Memory.read m (off + k) := by simp [Memory.readBytes]

/-- What was written is read back. -/
theorem Memory.readBytes_writeBytes {m : Memory} {off : Nat} {l : List Byte} (hm : Memory.wf m = true) :
    Memory.readBytes (Memory.writeBytes m off l) off l.length = l := by
  apply List.ext_getElem
  · simp
  · intro k h1 h2
    simp only [Memory.readBytes_getElem]
    exact Memory.read_writeBytes_inside hm h2

theorem Memory.write_fits {cfg : Config} {m : Memory} {a : Nat} (b : Byte) (hm : cfg.imageFits m = true)
    (ha : a < cfg.imageSize) : cfg.imageFits (Memory.write m a b) = true := by
  induction m with
  | nil =>
    unfold Memory.write
    split <;> simp [Config.imageFits, ha]
  | cons e t ih =>
    obtain ⟨k, v⟩ := e
    simp only [Config.imageFits, List.all_cons, Bool.and_eq_true, decide_eq_true_eq] at hm ih ⊢
    unfold Memory.write
    split
    · split
      · simp only [List.all_cons, Bool.and_eq_true, decide_eq_true_eq]
        exact hm
      · simp only [List.all_cons, Bool.and_eq_true, decide_eq_true_eq]
        exact ⟨ha, hm⟩
    · split
      · split
        · exact hm.2
        · simp only [List.all_cons, Bool.and_eq_true, decide_eq_true_eq]
          exact ⟨ha, hm.2⟩
      · simp only [List.all_cons, Bool.and_eq_true, decide_eq_true_eq]
        exact ⟨hm.1, ih hm.2⟩

/-- A write inside the image stays inside it. -/
theorem Memory.writeBytes_fits {cfg : Config} {m : Memory} {off : Nat} {l : List Byte}
    (hm : cfg.imageFits m = true) (h : off + l.length ≤ cfg.imageSize) :
    cfg.imageFits (Memory.writeBytes m off l) = true := by
  induction l generalizing m off with
  | nil => exact hm
  | cons b t ih =>
    simp only [List.length_cons] at h
    exact ih (Memory.write_fits b hm (by omega)) (by omega)

end Sys2Proof.Machine
end

