-- ==== Sys2Proof/Laws/State.lean ====
section
/-! SUPPORT. One lemma per field per named update of the state, each true by rfl, for simp. -/

namespace Sys2Proof.Machine

variable (s : State)

/-! A die replaced changes the dice only. -/

@[simp] theorem State.setDie_cfg (c : BitVec 4) (d : Die) : (s.setDie c d).cfg = s.cfg := rfl
@[simp] theorem State.setDie_ctl (c : BitVec 4) (d : Die) : (s.setDie c d).ctl = s.ctl := rfl
@[simp] theorem State.setDie_phasePc (c : BitVec 4) (d : Die) : (s.setDie c d).phasePc = s.phasePc := rfl
@[simp] theorem State.setDie_reqOp (c : BitVec 4) (d : Die) : (s.setDie c d).reqOp = s.reqOp := rfl
@[simp] theorem State.setDie_reqCs (c : BitVec 4) (d : Die) : (s.setDie c d).reqCs = s.reqCs := rfl
@[simp] theorem State.setDie_reqBlock (c : BitVec 4) (d : Die) : (s.setDie c d).reqBlock = s.reqBlock := rfl
@[simp] theorem State.setDie_reqPage (c : BitVec 4) (d : Die) : (s.setDie c d).reqPage = s.reqPage := rfl
@[simp] theorem State.setDie_reqLen (c : BitVec 4) (d : Die) : (s.setDie c d).reqLen = s.reqLen := rfl
@[simp] theorem State.setDie_dbuf (c : BitVec 4) (d : Die) : (s.setDie c d).dbuf = s.dbuf := rfl
@[simp] theorem State.setDie_idbuf (c : BitVec 4) (d : Die) : (s.setDie c d).idbuf = s.idbuf := rfl
@[simp] theorem State.setDie_statusReg (c : BitVec 4) (d : Die) : (s.setDie c d).statusReg = s.statusReg := rfl
@[simp] theorem State.setDie_resp (c : BitVec 4) (d : Die) : (s.setDie c d).resp = s.resp := rfl
@[simp] theorem State.setDie_csSel (c : BitVec 4) (d : Die) : (s.setDie c d).csSel = s.csSel := rfl
@[simp] theorem State.setDie_wpAsserted (c : BitVec 4) (d : Die) : (s.setDie c d).wpAsserted = s.wpAsserted := rfl
@[simp] theorem State.setDie_requests (c : BitVec 4) (d : Die) : (s.setDie c d).requests = s.requests := rfl
@[simp] theorem State.setDie_hostTakes (c : BitVec 4) (d : Die) : (s.setDie c d).hostTakes = s.hostTakes := rfl
@[simp] theorem State.setDie_rst (c : BitVec 4) (d : Die) : (s.setDie c d).rst = s.rst := rfl
@[simp] theorem State.setDie_dies (c : BitVec 4) (d : Die) : (s.setDie c d).dies = s.dies.set c.toNat d := rfl
@[simp] theorem State.setDie_wp (c : BitVec 4) (d : Die) : (s.setDie c d).wp = s.wp := rfl
@[simp] theorem State.setDie_sel (c : BitVec 4) (d : Die) : (s.setDie c d).sel = s.sel := rfl
@[simp] theorem State.setDie_answers (c : BitVec 4) (d : Die) : (s.setDie c d).answers = s.answers := rfl
@[simp] theorem State.setDie_draws (c : BitVec 4) (d : Die) : (s.setDie c d).draws = s.draws := rfl
@[simp] theorem State.setDie_bench (c : BitVec 4) (d : Die) : (s.setDie c d).bench = s.bench := rfl
@[simp] theorem State.setDie_trace (c : BitVec 4) (d : Die) : (s.setDie c d).trace = s.trace := rfl
@[simp] theorem State.setDie_delivered (c : BitVec 4) (d : Die) : (s.setDie c d).delivered = s.delivered := rfl
@[simp] theorem State.setDie_runFaults (c : BitVec 4) (d : Die) : (s.setDie c d).runFaults = s.runFaults := rfl

/-! Drawing free values moves their counter only. -/

@[simp] theorem State.drew_cfg (n : Nat) : (s.drew n).cfg = s.cfg := rfl
@[simp] theorem State.drew_ctl (n : Nat) : (s.drew n).ctl = s.ctl := rfl
@[simp] theorem State.drew_phasePc (n : Nat) : (s.drew n).phasePc = s.phasePc := rfl
@[simp] theorem State.drew_reqOp (n : Nat) : (s.drew n).reqOp = s.reqOp := rfl
@[simp] theorem State.drew_reqCs (n : Nat) : (s.drew n).reqCs = s.reqCs := rfl
@[simp] theorem State.drew_reqBlock (n : Nat) : (s.drew n).reqBlock = s.reqBlock := rfl
@[simp] theorem State.drew_reqPage (n : Nat) : (s.drew n).reqPage = s.reqPage := rfl
@[simp] theorem State.drew_reqLen (n : Nat) : (s.drew n).reqLen = s.reqLen := rfl
@[simp] theorem State.drew_dbuf (n : Nat) : (s.drew n).dbuf = s.dbuf := rfl
@[simp] theorem State.drew_idbuf (n : Nat) : (s.drew n).idbuf = s.idbuf := rfl
@[simp] theorem State.drew_statusReg (n : Nat) : (s.drew n).statusReg = s.statusReg := rfl
@[simp] theorem State.drew_resp (n : Nat) : (s.drew n).resp = s.resp := rfl
@[simp] theorem State.drew_csSel (n : Nat) : (s.drew n).csSel = s.csSel := rfl
@[simp] theorem State.drew_wpAsserted (n : Nat) : (s.drew n).wpAsserted = s.wpAsserted := rfl
@[simp] theorem State.drew_requests (n : Nat) : (s.drew n).requests = s.requests := rfl
@[simp] theorem State.drew_hostTakes (n : Nat) : (s.drew n).hostTakes = s.hostTakes := rfl
@[simp] theorem State.drew_rst (n : Nat) : (s.drew n).rst = s.rst := rfl
@[simp] theorem State.drew_dies (n : Nat) : (s.drew n).dies = s.dies := rfl
@[simp] theorem State.drew_wp (n : Nat) : (s.drew n).wp = s.wp := rfl
@[simp] theorem State.drew_sel (n : Nat) : (s.drew n).sel = s.sel := rfl
@[simp] theorem State.drew_answers (n : Nat) : (s.drew n).answers = s.answers := rfl
@[simp] theorem State.drew_draws (n : Nat) : (s.drew n).draws = s.draws + n := rfl
@[simp] theorem State.drew_bench (n : Nat) : (s.drew n).bench = s.bench := rfl
@[simp] theorem State.drew_trace (n : Nat) : (s.drew n).trace = s.trace := rfl
@[simp] theorem State.drew_delivered (n : Nat) : (s.drew n).delivered = s.delivered := rfl
@[simp] theorem State.drew_runFaults (n : Nat) : (s.drew n).runFaults = s.runFaults := rfl

/-! A phase joins the trace only. -/

@[simp] theorem State.logPhase_cfg (p : Phase) (r : Completion) : (s.logPhase p r).cfg = s.cfg := rfl
@[simp] theorem State.logPhase_ctl (p : Phase) (r : Completion) : (s.logPhase p r).ctl = s.ctl := rfl
@[simp] theorem State.logPhase_phasePc (p : Phase) (r : Completion) : (s.logPhase p r).phasePc = s.phasePc := rfl
@[simp] theorem State.logPhase_reqOp (p : Phase) (r : Completion) : (s.logPhase p r).reqOp = s.reqOp := rfl
@[simp] theorem State.logPhase_reqCs (p : Phase) (r : Completion) : (s.logPhase p r).reqCs = s.reqCs := rfl
@[simp] theorem State.logPhase_reqBlock (p : Phase) (r : Completion) : (s.logPhase p r).reqBlock = s.reqBlock := rfl
@[simp] theorem State.logPhase_reqPage (p : Phase) (r : Completion) : (s.logPhase p r).reqPage = s.reqPage := rfl
@[simp] theorem State.logPhase_reqLen (p : Phase) (r : Completion) : (s.logPhase p r).reqLen = s.reqLen := rfl
@[simp] theorem State.logPhase_dbuf (p : Phase) (r : Completion) : (s.logPhase p r).dbuf = s.dbuf := rfl
@[simp] theorem State.logPhase_idbuf (p : Phase) (r : Completion) : (s.logPhase p r).idbuf = s.idbuf := rfl
@[simp] theorem State.logPhase_statusReg (p : Phase) (r : Completion) : (s.logPhase p r).statusReg = s.statusReg := rfl
@[simp] theorem State.logPhase_resp (p : Phase) (r : Completion) : (s.logPhase p r).resp = s.resp := rfl
@[simp] theorem State.logPhase_csSel (p : Phase) (r : Completion) : (s.logPhase p r).csSel = s.csSel := rfl
@[simp] theorem State.logPhase_wpAsserted (p : Phase) (r : Completion) : (s.logPhase p r).wpAsserted = s.wpAsserted := rfl
@[simp] theorem State.logPhase_requests (p : Phase) (r : Completion) : (s.logPhase p r).requests = s.requests := rfl
@[simp] theorem State.logPhase_hostTakes (p : Phase) (r : Completion) : (s.logPhase p r).hostTakes = s.hostTakes := rfl
@[simp] theorem State.logPhase_rst (p : Phase) (r : Completion) : (s.logPhase p r).rst = s.rst := rfl
@[simp] theorem State.logPhase_dies (p : Phase) (r : Completion) : (s.logPhase p r).dies = s.dies := rfl
@[simp] theorem State.logPhase_wp (p : Phase) (r : Completion) : (s.logPhase p r).wp = s.wp := rfl
@[simp] theorem State.logPhase_sel (p : Phase) (r : Completion) : (s.logPhase p r).sel = s.sel := rfl
@[simp] theorem State.logPhase_answers (p : Phase) (r : Completion) : (s.logPhase p r).answers = s.answers := rfl
@[simp] theorem State.logPhase_draws (p : Phase) (r : Completion) : (s.logPhase p r).draws = s.draws := rfl
@[simp] theorem State.logPhase_bench (p : Phase) (r : Completion) : (s.logPhase p r).bench = s.bench := rfl
@[simp] theorem State.logPhase_trace (p : Phase) (r : Completion) : (s.logPhase p r).trace = s.trace ++ [⟨p, r⟩] := rfl
@[simp] theorem State.logPhase_delivered (p : Phase) (r : Completion) : (s.logPhase p r).delivered = s.delivered := rfl
@[simp] theorem State.logPhase_runFaults (p : Phase) (r : Completion) : (s.logPhase p r).runFaults = s.runFaults := rfl

/-! The phase counter moves on alone. -/

@[simp] theorem State.bumpPc_cfg : (s.bumpPc).cfg = s.cfg := rfl
@[simp] theorem State.bumpPc_ctl : (s.bumpPc).ctl = s.ctl := rfl
@[simp] theorem State.bumpPc_phasePc : (s.bumpPc).phasePc = s.phasePc + 1 := rfl
@[simp] theorem State.bumpPc_reqOp : (s.bumpPc).reqOp = s.reqOp := rfl
@[simp] theorem State.bumpPc_reqCs : (s.bumpPc).reqCs = s.reqCs := rfl
@[simp] theorem State.bumpPc_reqBlock : (s.bumpPc).reqBlock = s.reqBlock := rfl
@[simp] theorem State.bumpPc_reqPage : (s.bumpPc).reqPage = s.reqPage := rfl
@[simp] theorem State.bumpPc_reqLen : (s.bumpPc).reqLen = s.reqLen := rfl
@[simp] theorem State.bumpPc_dbuf : (s.bumpPc).dbuf = s.dbuf := rfl
@[simp] theorem State.bumpPc_idbuf : (s.bumpPc).idbuf = s.idbuf := rfl
@[simp] theorem State.bumpPc_statusReg : (s.bumpPc).statusReg = s.statusReg := rfl
@[simp] theorem State.bumpPc_resp : (s.bumpPc).resp = s.resp := rfl
@[simp] theorem State.bumpPc_csSel : (s.bumpPc).csSel = s.csSel := rfl
@[simp] theorem State.bumpPc_wpAsserted : (s.bumpPc).wpAsserted = s.wpAsserted := rfl
@[simp] theorem State.bumpPc_requests : (s.bumpPc).requests = s.requests := rfl
@[simp] theorem State.bumpPc_hostTakes : (s.bumpPc).hostTakes = s.hostTakes := rfl
@[simp] theorem State.bumpPc_rst : (s.bumpPc).rst = s.rst := rfl
@[simp] theorem State.bumpPc_dies : (s.bumpPc).dies = s.dies := rfl
@[simp] theorem State.bumpPc_wp : (s.bumpPc).wp = s.wp := rfl
@[simp] theorem State.bumpPc_sel : (s.bumpPc).sel = s.sel := rfl
@[simp] theorem State.bumpPc_answers : (s.bumpPc).answers = s.answers := rfl
@[simp] theorem State.bumpPc_draws : (s.bumpPc).draws = s.draws := rfl
@[simp] theorem State.bumpPc_bench : (s.bumpPc).bench = s.bench := rfl
@[simp] theorem State.bumpPc_trace : (s.bumpPc).trace = s.trace := rfl
@[simp] theorem State.bumpPc_delivered : (s.bumpPc).delivered = s.delivered := rfl
@[simp] theorem State.bumpPc_runFaults : (s.bumpPc).runFaults = s.runFaults := rfl

/-! The phase counter is set alone. -/

@[simp] theorem State.goto_cfg (n : BitVec 4) : (s.goto n).cfg = s.cfg := rfl
@[simp] theorem State.goto_ctl (n : BitVec 4) : (s.goto n).ctl = s.ctl := rfl
@[simp] theorem State.goto_phasePc (n : BitVec 4) : (s.goto n).phasePc = n := rfl
@[simp] theorem State.goto_reqOp (n : BitVec 4) : (s.goto n).reqOp = s.reqOp := rfl
@[simp] theorem State.goto_reqCs (n : BitVec 4) : (s.goto n).reqCs = s.reqCs := rfl
@[simp] theorem State.goto_reqBlock (n : BitVec 4) : (s.goto n).reqBlock = s.reqBlock := rfl
@[simp] theorem State.goto_reqPage (n : BitVec 4) : (s.goto n).reqPage = s.reqPage := rfl
@[simp] theorem State.goto_reqLen (n : BitVec 4) : (s.goto n).reqLen = s.reqLen := rfl
@[simp] theorem State.goto_dbuf (n : BitVec 4) : (s.goto n).dbuf = s.dbuf := rfl
@[simp] theorem State.goto_idbuf (n : BitVec 4) : (s.goto n).idbuf = s.idbuf := rfl
@[simp] theorem State.goto_statusReg (n : BitVec 4) : (s.goto n).statusReg = s.statusReg := rfl
@[simp] theorem State.goto_resp (n : BitVec 4) : (s.goto n).resp = s.resp := rfl
@[simp] theorem State.goto_csSel (n : BitVec 4) : (s.goto n).csSel = s.csSel := rfl
@[simp] theorem State.goto_wpAsserted (n : BitVec 4) : (s.goto n).wpAsserted = s.wpAsserted := rfl
@[simp] theorem State.goto_requests (n : BitVec 4) : (s.goto n).requests = s.requests := rfl
@[simp] theorem State.goto_hostTakes (n : BitVec 4) : (s.goto n).hostTakes = s.hostTakes := rfl
@[simp] theorem State.goto_rst (n : BitVec 4) : (s.goto n).rst = s.rst := rfl
@[simp] theorem State.goto_dies (n : BitVec 4) : (s.goto n).dies = s.dies := rfl
@[simp] theorem State.goto_wp (n : BitVec 4) : (s.goto n).wp = s.wp := rfl
@[simp] theorem State.goto_sel (n : BitVec 4) : (s.goto n).sel = s.sel := rfl
@[simp] theorem State.goto_answers (n : BitVec 4) : (s.goto n).answers = s.answers := rfl
@[simp] theorem State.goto_draws (n : BitVec 4) : (s.goto n).draws = s.draws := rfl
@[simp] theorem State.goto_bench (n : BitVec 4) : (s.goto n).bench = s.bench := rfl
@[simp] theorem State.goto_trace (n : BitVec 4) : (s.goto n).trace = s.trace := rfl
@[simp] theorem State.goto_delivered (n : BitVec 4) : (s.goto n).delivered = s.delivered := rfl
@[simp] theorem State.goto_runFaults (n : BitVec 4) : (s.goto n).runFaults = s.runFaults := rfl

/-! `respond R` (10_state.md R27). -/

@[simp] theorem State.respond_cfg (r : Resp) : (s.respond r).cfg = s.cfg := rfl
@[simp] theorem State.respond_ctl (r : Resp) : (s.respond r).ctl = .idle := rfl
@[simp] theorem State.respond_phasePc (r : Resp) : (s.respond r).phasePc = 0 := rfl
@[simp] theorem State.respond_reqOp (r : Resp) : (s.respond r).reqOp = s.reqOp := rfl
@[simp] theorem State.respond_reqCs (r : Resp) : (s.respond r).reqCs = s.reqCs := rfl
@[simp] theorem State.respond_reqBlock (r : Resp) : (s.respond r).reqBlock = s.reqBlock := rfl
@[simp] theorem State.respond_reqPage (r : Resp) : (s.respond r).reqPage = s.reqPage := rfl
@[simp] theorem State.respond_reqLen (r : Resp) : (s.respond r).reqLen = s.reqLen := rfl
@[simp] theorem State.respond_dbuf (r : Resp) : (s.respond r).dbuf = s.dbuf := rfl
@[simp] theorem State.respond_idbuf (r : Resp) : (s.respond r).idbuf = s.idbuf := rfl
@[simp] theorem State.respond_statusReg (r : Resp) : (s.respond r).statusReg = s.statusReg := rfl
@[simp] theorem State.respond_resp (r : Resp) : (s.respond r).resp = r := rfl
@[simp] theorem State.respond_csSel (r : Resp) : (s.respond r).csSel = s.csSel := rfl
@[simp] theorem State.respond_wpAsserted (r : Resp) : (s.respond r).wpAsserted = s.wpAsserted := rfl
@[simp] theorem State.respond_requests (r : Resp) : (s.respond r).requests = s.requests := rfl
@[simp] theorem State.respond_hostTakes (r : Resp) : (s.respond r).hostTakes = s.hostTakes := rfl
@[simp] theorem State.respond_rst (r : Resp) : (s.respond r).rst = s.rst := rfl
@[simp] theorem State.respond_dies (r : Resp) : (s.respond r).dies = s.dies := rfl
@[simp] theorem State.respond_wp (r : Resp) : (s.respond r).wp = s.wp := rfl
@[simp] theorem State.respond_sel (r : Resp) : (s.respond r).sel = s.sel := rfl
@[simp] theorem State.respond_answers (r : Resp) : (s.respond r).answers = s.answers := rfl
@[simp] theorem State.respond_draws (r : Resp) : (s.respond r).draws = s.draws := rfl
@[simp] theorem State.respond_bench (r : Resp) : (s.respond r).bench = s.bench := rfl
@[simp] theorem State.respond_trace (r : Resp) : (s.respond r).trace = s.trace := rfl
@[simp] theorem State.respond_delivered (r : Resp) : (s.respond r).delivered = s.delivered := rfl
@[simp] theorem State.respond_runFaults (r : Resp) : (s.respond r).runFaults = s.runFaults := rfl

/-! `raise F` (10_state.md R27). -/

@[simp] theorem State.raise_cfg (f : FaultCode) : (s.raise f).cfg = s.cfg := rfl
@[simp] theorem State.raise_ctl (f : FaultCode) : (s.raise f).ctl = .idle := rfl
@[simp] theorem State.raise_phasePc (f : FaultCode) : (s.raise f).phasePc = 0 := rfl
@[simp] theorem State.raise_reqOp (f : FaultCode) : (s.raise f).reqOp = s.reqOp := rfl
@[simp] theorem State.raise_reqCs (f : FaultCode) : (s.raise f).reqCs = s.reqCs := rfl
@[simp] theorem State.raise_reqBlock (f : FaultCode) : (s.raise f).reqBlock = s.reqBlock := rfl
@[simp] theorem State.raise_reqPage (f : FaultCode) : (s.raise f).reqPage = s.reqPage := rfl
@[simp] theorem State.raise_reqLen (f : FaultCode) : (s.raise f).reqLen = s.reqLen := rfl
@[simp] theorem State.raise_dbuf (f : FaultCode) : (s.raise f).dbuf = s.dbuf := rfl
@[simp] theorem State.raise_idbuf (f : FaultCode) : (s.raise f).idbuf = s.idbuf := rfl
@[simp] theorem State.raise_statusReg (f : FaultCode) : (s.raise f).statusReg = s.statusReg := rfl
@[simp] theorem State.raise_resp (f : FaultCode) : (s.raise f).resp = .fault f := rfl
@[simp] theorem State.raise_csSel (f : FaultCode) : (s.raise f).csSel = s.csSel := rfl
@[simp] theorem State.raise_wpAsserted (f : FaultCode) : (s.raise f).wpAsserted = s.wpAsserted := rfl
@[simp] theorem State.raise_requests (f : FaultCode) : (s.raise f).requests = s.requests := rfl
@[simp] theorem State.raise_hostTakes (f : FaultCode) : (s.raise f).hostTakes = s.hostTakes := rfl
@[simp] theorem State.raise_rst (f : FaultCode) : (s.raise f).rst = s.rst := rfl
@[simp] theorem State.raise_dies (f : FaultCode) : (s.raise f).dies = s.dies := rfl
@[simp] theorem State.raise_wp (f : FaultCode) : (s.raise f).wp = s.wp := rfl
@[simp] theorem State.raise_sel (f : FaultCode) : (s.raise f).sel = s.sel := rfl
@[simp] theorem State.raise_answers (f : FaultCode) : (s.raise f).answers = s.answers := rfl
@[simp] theorem State.raise_draws (f : FaultCode) : (s.raise f).draws = s.draws := rfl
@[simp] theorem State.raise_bench (f : FaultCode) : (s.raise f).bench = s.bench := rfl
@[simp] theorem State.raise_trace (f : FaultCode) : (s.raise f).trace = s.trace := rfl
@[simp] theorem State.raise_delivered (f : FaultCode) : (s.raise f).delivered = s.delivered := rfl
@[simp] theorem State.raise_runFaults (f : FaultCode) : (s.raise f).runFaults = s.runFaults ++ [f] := rfl

/-! Consuming the response (10_state.md R34). -/

@[simp] theorem State.consume_cfg : (s.consume).cfg = s.cfg := rfl
@[simp] theorem State.consume_ctl : (s.consume).ctl = s.ctl := rfl
@[simp] theorem State.consume_phasePc : (s.consume).phasePc = s.phasePc := rfl
@[simp] theorem State.consume_reqOp : (s.consume).reqOp = s.reqOp := rfl
@[simp] theorem State.consume_reqCs : (s.consume).reqCs = s.reqCs := rfl
@[simp] theorem State.consume_reqBlock : (s.consume).reqBlock = s.reqBlock := rfl
@[simp] theorem State.consume_reqPage : (s.consume).reqPage = s.reqPage := rfl
@[simp] theorem State.consume_reqLen : (s.consume).reqLen = s.reqLen := rfl
@[simp] theorem State.consume_dbuf : (s.consume).dbuf = s.dbuf := rfl
@[simp] theorem State.consume_idbuf : (s.consume).idbuf = s.idbuf := rfl
@[simp] theorem State.consume_statusReg : (s.consume).statusReg = s.statusReg := rfl
@[simp] theorem State.consume_resp : (s.consume).resp = .none := rfl
@[simp] theorem State.consume_csSel : (s.consume).csSel = s.csSel := rfl
@[simp] theorem State.consume_wpAsserted : (s.consume).wpAsserted = s.wpAsserted := rfl
@[simp] theorem State.consume_requests : (s.consume).requests = s.requests := rfl
@[simp] theorem State.consume_hostTakes : (s.consume).hostTakes = s.hostTakes := rfl
@[simp] theorem State.consume_rst : (s.consume).rst = s.rst := rfl
@[simp] theorem State.consume_dies : (s.consume).dies = s.dies := rfl
@[simp] theorem State.consume_wp : (s.consume).wp = s.wp := rfl
@[simp] theorem State.consume_sel : (s.consume).sel = s.sel := rfl
@[simp] theorem State.consume_answers : (s.consume).answers = s.answers := rfl
@[simp] theorem State.consume_draws : (s.consume).draws = s.draws := rfl
@[simp] theorem State.consume_bench : (s.consume).bench = s.bench := rfl
@[simp] theorem State.consume_trace : (s.consume).trace = s.trace := rfl
@[simp] theorem State.consume_delivered : (s.consume).delivered = s.delivered ++ [s.resp] := rfl
@[simp] theorem State.consume_runFaults : (s.consume).runFaults = s.runFaults := rfl

/-! Acceptance (10_state.md R33). -/

@[simp] theorem State.accept_cfg (r : Request) : (s.accept r).cfg = s.cfg := rfl
@[simp] theorem State.accept_ctl (r : Request) : (s.accept r).ctl = .busy := rfl
@[simp] theorem State.accept_phasePc (r : Request) : (s.accept r).phasePc = 0 := rfl
@[simp] theorem State.accept_reqOp (r : Request) : (s.accept r).reqOp = wordOp r.word := rfl
@[simp] theorem State.accept_reqCs (r : Request) : (s.accept r).reqCs = wordCs r.word := rfl
@[simp] theorem State.accept_reqBlock (r : Request) : (s.accept r).reqBlock = wordBlock r.word := rfl
@[simp] theorem State.accept_reqPage (r : Request) : (s.accept r).reqPage = wordPage r.word := rfl
@[simp] theorem State.accept_reqLen (r : Request) : (s.accept r).reqLen = r.data.length := rfl
@[simp] theorem State.accept_dbuf (r : Request) : (s.accept r).dbuf = if wordOp r.word = 3 ∧ r.data.length = s.cfg.fullPageSize then r.data else s.dbuf := rfl
@[simp] theorem State.accept_idbuf (r : Request) : (s.accept r).idbuf = s.idbuf := rfl
@[simp] theorem State.accept_statusReg (r : Request) : (s.accept r).statusReg = s.statusReg := rfl
@[simp] theorem State.accept_resp (r : Request) : (s.accept r).resp = s.resp := rfl
@[simp] theorem State.accept_csSel (r : Request) : (s.accept r).csSel = s.csSel := rfl
@[simp] theorem State.accept_wpAsserted (r : Request) : (s.accept r).wpAsserted = s.wpAsserted := rfl
@[simp] theorem State.accept_requests (r : Request) : (s.accept r).requests = s.requests.tail := rfl
@[simp] theorem State.accept_hostTakes (r : Request) : (s.accept r).hostTakes = s.hostTakes := rfl
@[simp] theorem State.accept_rst (r : Request) : (s.accept r).rst = s.rst := rfl
@[simp] theorem State.accept_dies (r : Request) : (s.accept r).dies = s.dies := rfl
@[simp] theorem State.accept_wp (r : Request) : (s.accept r).wp = s.wp := rfl
@[simp] theorem State.accept_sel (r : Request) : (s.accept r).sel = s.sel := rfl
@[simp] theorem State.accept_answers (r : Request) : (s.accept r).answers = s.answers := rfl
@[simp] theorem State.accept_draws (r : Request) : (s.accept r).draws = s.draws := rfl
@[simp] theorem State.accept_bench (r : Request) : (s.accept r).bench = s.bench := rfl
@[simp] theorem State.accept_trace (r : Request) : (s.accept r).trace = [] := rfl
@[simp] theorem State.accept_delivered (r : Request) : (s.accept r).delivered = s.delivered := rfl
@[simp] theorem State.accept_runFaults (r : Request) : (s.accept r).runFaults = s.runFaults := rfl

/-! Reset (70_reset_and_hazards.md R220). -/

@[simp] theorem State.applyReset_cfg : (s.applyReset).cfg = s.cfg := rfl
@[simp] theorem State.applyReset_ctl : (s.applyReset).ctl = .idle := rfl
@[simp] theorem State.applyReset_phasePc : (s.applyReset).phasePc = 0 := rfl
@[simp] theorem State.applyReset_reqOp : (s.applyReset).reqOp = 0 := rfl
@[simp] theorem State.applyReset_reqCs : (s.applyReset).reqCs = 0 := rfl
@[simp] theorem State.applyReset_reqBlock : (s.applyReset).reqBlock = 0 := rfl
@[simp] theorem State.applyReset_reqPage : (s.applyReset).reqPage = 0 := rfl
@[simp] theorem State.applyReset_reqLen : (s.applyReset).reqLen = 0 := rfl
@[simp] theorem State.applyReset_dbuf : (s.applyReset).dbuf = fill s.cfg.fullPageSize 0x00 := rfl
@[simp] theorem State.applyReset_idbuf : (s.applyReset).idbuf = fill s.cfg.idLen 0x00 := rfl
@[simp] theorem State.applyReset_statusReg : (s.applyReset).statusReg = 0x00 := rfl
@[simp] theorem State.applyReset_resp : (s.applyReset).resp = .none := rfl
@[simp] theorem State.applyReset_csSel : (s.applyReset).csSel = none := rfl
@[simp] theorem State.applyReset_wpAsserted : (s.applyReset).wpAsserted = true := rfl
@[simp] theorem State.applyReset_requests : (s.applyReset).requests = s.requests := rfl
@[simp] theorem State.applyReset_hostTakes : (s.applyReset).hostTakes = s.hostTakes := rfl
@[simp] theorem State.applyReset_rst : (s.applyReset).rst = false := rfl
@[simp] theorem State.applyReset_dies : (s.applyReset).dies = s.abandonDie := rfl
@[simp] theorem State.applyReset_wp : (s.applyReset).wp = true := rfl
@[simp] theorem State.applyReset_sel : (s.applyReset).sel = none := rfl
@[simp] theorem State.applyReset_answers : (s.applyReset).answers = s.answers := rfl
@[simp] theorem State.applyReset_draws : (s.applyReset).draws = s.draws := rfl
@[simp] theorem State.applyReset_bench : (s.applyReset).bench = s.bench := rfl
@[simp] theorem State.applyReset_trace : (s.applyReset).trace = s.trace := rfl
@[simp] theorem State.applyReset_delivered : (s.applyReset).delivered = s.delivered := rfl
@[simp] theorem State.applyReset_runFaults : (s.applyReset).runFaults = s.runFaults := rfl

/-! The stores of a `DIN` (40_operations.md R121, R124, R127, R130). -/

@[simp] theorem storeId_cfg (l : List Byte) : (storeId l s).cfg = s.cfg := rfl
@[simp] theorem storeId_ctl (l : List Byte) : (storeId l s).ctl = s.ctl := rfl
@[simp] theorem storeId_phasePc (l : List Byte) : (storeId l s).phasePc = s.phasePc := rfl
@[simp] theorem storeId_reqOp (l : List Byte) : (storeId l s).reqOp = s.reqOp := rfl
@[simp] theorem storeId_reqCs (l : List Byte) : (storeId l s).reqCs = s.reqCs := rfl
@[simp] theorem storeId_reqBlock (l : List Byte) : (storeId l s).reqBlock = s.reqBlock := rfl
@[simp] theorem storeId_reqPage (l : List Byte) : (storeId l s).reqPage = s.reqPage := rfl
@[simp] theorem storeId_reqLen (l : List Byte) : (storeId l s).reqLen = s.reqLen := rfl
@[simp] theorem storeId_dbuf (l : List Byte) : (storeId l s).dbuf = s.dbuf := rfl
@[simp] theorem storeId_idbuf (l : List Byte) : (storeId l s).idbuf = l := rfl
@[simp] theorem storeId_statusReg (l : List Byte) : (storeId l s).statusReg = s.statusReg := rfl
@[simp] theorem storeId_resp (l : List Byte) : (storeId l s).resp = s.resp := rfl
@[simp] theorem storeId_csSel (l : List Byte) : (storeId l s).csSel = s.csSel := rfl
@[simp] theorem storeId_wpAsserted (l : List Byte) : (storeId l s).wpAsserted = s.wpAsserted := rfl
@[simp] theorem storeId_requests (l : List Byte) : (storeId l s).requests = s.requests := rfl
@[simp] theorem storeId_hostTakes (l : List Byte) : (storeId l s).hostTakes = s.hostTakes := rfl
@[simp] theorem storeId_rst (l : List Byte) : (storeId l s).rst = s.rst := rfl
@[simp] theorem storeId_dies (l : List Byte) : (storeId l s).dies = s.dies := rfl
@[simp] theorem storeId_wp (l : List Byte) : (storeId l s).wp = s.wp := rfl
@[simp] theorem storeId_sel (l : List Byte) : (storeId l s).sel = s.sel := rfl
@[simp] theorem storeId_answers (l : List Byte) : (storeId l s).answers = s.answers := rfl
@[simp] theorem storeId_draws (l : List Byte) : (storeId l s).draws = s.draws := rfl
@[simp] theorem storeId_bench (l : List Byte) : (storeId l s).bench = s.bench := rfl
@[simp] theorem storeId_trace (l : List Byte) : (storeId l s).trace = s.trace := rfl
@[simp] theorem storeId_delivered (l : List Byte) : (storeId l s).delivered = s.delivered := rfl
@[simp] theorem storeId_runFaults (l : List Byte) : (storeId l s).runFaults = s.runFaults := rfl

@[simp] theorem storeStatus_cfg (l : List Byte) : (storeStatus l s).cfg = s.cfg := rfl
@[simp] theorem storeStatus_ctl (l : List Byte) : (storeStatus l s).ctl = s.ctl := rfl
@[simp] theorem storeStatus_phasePc (l : List Byte) : (storeStatus l s).phasePc = s.phasePc := rfl
@[simp] theorem storeStatus_reqOp (l : List Byte) : (storeStatus l s).reqOp = s.reqOp := rfl
@[simp] theorem storeStatus_reqCs (l : List Byte) : (storeStatus l s).reqCs = s.reqCs := rfl
@[simp] theorem storeStatus_reqBlock (l : List Byte) : (storeStatus l s).reqBlock = s.reqBlock := rfl
@[simp] theorem storeStatus_reqPage (l : List Byte) : (storeStatus l s).reqPage = s.reqPage := rfl
@[simp] theorem storeStatus_reqLen (l : List Byte) : (storeStatus l s).reqLen = s.reqLen := rfl
@[simp] theorem storeStatus_dbuf (l : List Byte) : (storeStatus l s).dbuf = s.dbuf := rfl
@[simp] theorem storeStatus_idbuf (l : List Byte) : (storeStatus l s).idbuf = s.idbuf := rfl
@[simp] theorem storeStatus_statusReg (l : List Byte) : (storeStatus l s).statusReg = l.headD s.statusReg := rfl
@[simp] theorem storeStatus_resp (l : List Byte) : (storeStatus l s).resp = s.resp := rfl
@[simp] theorem storeStatus_csSel (l : List Byte) : (storeStatus l s).csSel = s.csSel := rfl
@[simp] theorem storeStatus_wpAsserted (l : List Byte) : (storeStatus l s).wpAsserted = s.wpAsserted := rfl
@[simp] theorem storeStatus_requests (l : List Byte) : (storeStatus l s).requests = s.requests := rfl
@[simp] theorem storeStatus_hostTakes (l : List Byte) : (storeStatus l s).hostTakes = s.hostTakes := rfl
@[simp] theorem storeStatus_rst (l : List Byte) : (storeStatus l s).rst = s.rst := rfl
@[simp] theorem storeStatus_dies (l : List Byte) : (storeStatus l s).dies = s.dies := rfl
@[simp] theorem storeStatus_wp (l : List Byte) : (storeStatus l s).wp = s.wp := rfl
@[simp] theorem storeStatus_sel (l : List Byte) : (storeStatus l s).sel = s.sel := rfl
@[simp] theorem storeStatus_answers (l : List Byte) : (storeStatus l s).answers = s.answers := rfl
@[simp] theorem storeStatus_draws (l : List Byte) : (storeStatus l s).draws = s.draws := rfl
@[simp] theorem storeStatus_bench (l : List Byte) : (storeStatus l s).bench = s.bench := rfl
@[simp] theorem storeStatus_trace (l : List Byte) : (storeStatus l s).trace = s.trace := rfl
@[simp] theorem storeStatus_delivered (l : List Byte) : (storeStatus l s).delivered = s.delivered := rfl
@[simp] theorem storeStatus_runFaults (l : List Byte) : (storeStatus l s).runFaults = s.runFaults := rfl

@[simp] theorem storePage_cfg (l : List Byte) : (storePage l s).cfg = s.cfg := rfl
@[simp] theorem storePage_ctl (l : List Byte) : (storePage l s).ctl = s.ctl := rfl
@[simp] theorem storePage_phasePc (l : List Byte) : (storePage l s).phasePc = s.phasePc := rfl
@[simp] theorem storePage_reqOp (l : List Byte) : (storePage l s).reqOp = s.reqOp := rfl
@[simp] theorem storePage_reqCs (l : List Byte) : (storePage l s).reqCs = s.reqCs := rfl
@[simp] theorem storePage_reqBlock (l : List Byte) : (storePage l s).reqBlock = s.reqBlock := rfl
@[simp] theorem storePage_reqPage (l : List Byte) : (storePage l s).reqPage = s.reqPage := rfl
@[simp] theorem storePage_reqLen (l : List Byte) : (storePage l s).reqLen = s.reqLen := rfl
@[simp] theorem storePage_dbuf (l : List Byte) : (storePage l s).dbuf = l := rfl
@[simp] theorem storePage_idbuf (l : List Byte) : (storePage l s).idbuf = s.idbuf := rfl
@[simp] theorem storePage_statusReg (l : List Byte) : (storePage l s).statusReg = s.statusReg := rfl
@[simp] theorem storePage_resp (l : List Byte) : (storePage l s).resp = s.resp := rfl
@[simp] theorem storePage_csSel (l : List Byte) : (storePage l s).csSel = s.csSel := rfl
@[simp] theorem storePage_wpAsserted (l : List Byte) : (storePage l s).wpAsserted = s.wpAsserted := rfl
@[simp] theorem storePage_requests (l : List Byte) : (storePage l s).requests = s.requests := rfl
@[simp] theorem storePage_hostTakes (l : List Byte) : (storePage l s).hostTakes = s.hostTakes := rfl
@[simp] theorem storePage_rst (l : List Byte) : (storePage l s).rst = s.rst := rfl
@[simp] theorem storePage_dies (l : List Byte) : (storePage l s).dies = s.dies := rfl
@[simp] theorem storePage_wp (l : List Byte) : (storePage l s).wp = s.wp := rfl
@[simp] theorem storePage_sel (l : List Byte) : (storePage l s).sel = s.sel := rfl
@[simp] theorem storePage_answers (l : List Byte) : (storePage l s).answers = s.answers := rfl
@[simp] theorem storePage_draws (l : List Byte) : (storePage l s).draws = s.draws := rfl
@[simp] theorem storePage_bench (l : List Byte) : (storePage l s).bench = s.bench := rfl
@[simp] theorem storePage_trace (l : List Byte) : (storePage l s).trace = s.trace := rfl
@[simp] theorem storePage_delivered (l : List Byte) : (storePage l s).delivered = s.delivered := rfl
@[simp] theorem storePage_runFaults (l : List Byte) : (storePage l s).runFaults = s.runFaults := rfl

@[simp] theorem storeNothing_cfg (l : List Byte) : (storeNothing l s).cfg = s.cfg := rfl
@[simp] theorem storeNothing_ctl (l : List Byte) : (storeNothing l s).ctl = s.ctl := rfl
@[simp] theorem storeNothing_phasePc (l : List Byte) : (storeNothing l s).phasePc = s.phasePc := rfl
@[simp] theorem storeNothing_reqOp (l : List Byte) : (storeNothing l s).reqOp = s.reqOp := rfl
@[simp] theorem storeNothing_reqCs (l : List Byte) : (storeNothing l s).reqCs = s.reqCs := rfl
@[simp] theorem storeNothing_reqBlock (l : List Byte) : (storeNothing l s).reqBlock = s.reqBlock := rfl
@[simp] theorem storeNothing_reqPage (l : List Byte) : (storeNothing l s).reqPage = s.reqPage := rfl
@[simp] theorem storeNothing_reqLen (l : List Byte) : (storeNothing l s).reqLen = s.reqLen := rfl
@[simp] theorem storeNothing_dbuf (l : List Byte) : (storeNothing l s).dbuf = s.dbuf := rfl
@[simp] theorem storeNothing_idbuf (l : List Byte) : (storeNothing l s).idbuf = s.idbuf := rfl
@[simp] theorem storeNothing_statusReg (l : List Byte) : (storeNothing l s).statusReg = s.statusReg := rfl
@[simp] theorem storeNothing_resp (l : List Byte) : (storeNothing l s).resp = s.resp := rfl
@[simp] theorem storeNothing_csSel (l : List Byte) : (storeNothing l s).csSel = s.csSel := rfl
@[simp] theorem storeNothing_wpAsserted (l : List Byte) : (storeNothing l s).wpAsserted = s.wpAsserted := rfl
@[simp] theorem storeNothing_requests (l : List Byte) : (storeNothing l s).requests = s.requests := rfl
@[simp] theorem storeNothing_hostTakes (l : List Byte) : (storeNothing l s).hostTakes = s.hostTakes := rfl
@[simp] theorem storeNothing_rst (l : List Byte) : (storeNothing l s).rst = s.rst := rfl
@[simp] theorem storeNothing_dies (l : List Byte) : (storeNothing l s).dies = s.dies := rfl
@[simp] theorem storeNothing_wp (l : List Byte) : (storeNothing l s).wp = s.wp := rfl
@[simp] theorem storeNothing_sel (l : List Byte) : (storeNothing l s).sel = s.sel := rfl
@[simp] theorem storeNothing_answers (l : List Byte) : (storeNothing l s).answers = s.answers := rfl
@[simp] theorem storeNothing_draws (l : List Byte) : (storeNothing l s).draws = s.draws := rfl
@[simp] theorem storeNothing_bench (l : List Byte) : (storeNothing l s).bench = s.bench := rfl
@[simp] theorem storeNothing_trace (l : List Byte) : (storeNothing l s).trace = s.trace := rfl
@[simp] theorem storeNothing_delivered (l : List Byte) : (storeNothing l s).delivered = s.delivered := rfl
@[simp] theorem storeNothing_runFaults (l : List Byte) : (storeNothing l s).runFaults = s.runFaults := rfl

end Sys2Proof.Machine
end

