-- ==== Sys2Proof/Laws/Device.lean ====
section
/-! SUPPORT. What a command cycle and a phase can do to the machine, said once: the lemmas later proofs cite instead of
unfolding `perform`. -/

namespace Sys2Proof.Machine

/-! ### Byte lists -/

@[simp] theorem fill_length (n : Nat) (b : Byte) : (fill n b).length = n := by simp [fill]

@[simp] theorem freeBytes_length (k n : Nat) : (freeBytes k n).length = n := by simp [freeBytes]

@[simp] theorem storeColumns_length (buf : List Byte) (col : Nat) (l : List Byte) :
    (storeColumns buf col l).length = buf.length := by
  induction l generalizing buf col with
  | nil => rfl
  | cons b t ih => rw [storeColumns, ih, List.length_set]

theorem programmed_length_le (cfg : Config) (d : Die) (row : Nat) :
    (d.programmed cfg row).length ≤ cfg.fullPageSize := by
  simp [Die.programmed, andBytes, List.length_zipWith]

/-! ### Addresses inside the image -/

theorem page_inside {cfg : Config} {row : Nat} (h : row < cfg.rows) :
    row * cfg.fullPageSize + cfg.fullPageSize ≤ cfg.imageSize := by
  have := Nat.mul_le_mul_right cfg.fullPageSize (Nat.succ_le_of_lt h)
  simpa [Config.imageSize, Nat.succ_mul] using this

theorem block_inside {cfg : Config} {row : Nat} (h : row < cfg.rows) :
    row / cfg.pagesPerBlock * cfg.blockSize + cfg.blockSize ≤ cfg.imageSize := by
  have h1 : row / cfg.pagesPerBlock < cfg.blocksPerCs := by
    apply Nat.div_lt_of_lt_mul
    rw [Nat.mul_comm]
    exact h
  have h2 := Nat.mul_le_mul_right cfg.blockSize (Nat.succ_le_of_lt h1)
  simp only [Nat.succ_mul] at h2
  refine Nat.le_trans h2 (Nat.le_of_eq ?_)
  simp [Config.imageSize, Config.rows, Config.blockSize, Nat.mul_assoc]

theorem decodePage_some {cfg : Config} {a : List Byte} {col row : Nat} (h : cfg.decodePage a = some (col, row)) :
    a.length = cfg.colCycles + cfg.rowCycles ∧ row < cfg.rows ∧ col < cfg.fullPageSize ∧
      col = leNat (a.take cfg.colCycles) ∧ row = leNat (a.drop cfg.colCycles) := by
  simp only [Config.decodePage] at h
  split at h
  · next hc =>
    simp only [Option.some.injEq, Prod.mk.injEq] at h
    obtain ⟨rfl, rfl⟩ := h
    exact ⟨hc.1, hc.2.1, hc.2.2, rfl, rfl⟩
  · cases h

theorem decodeBlock_some {cfg : Config} {a : List Byte} {block : Nat} (h : cfg.decodeBlock a = some block) :
    a.length = cfg.rowCycles ∧ leNat a < cfg.rows ∧ block = leNat a / cfg.pagesPerBlock := by
  simp only [Config.decodeBlock] at h
  split at h
  · next hc =>
    simp only [Option.some.injEq] at h
    exact ⟨hc.1, hc.2, h.symm⟩
  · cases h

/-! ### One effect on the selected die -/

/-- What happens to a die in one phase: it stays as 20_memory.md R60 says; its image changes only at a command
cycle that stores and at the wait that ends a program or erase; an array effect in progress comes only from the confirm of
one, in its mode, on the general device. -/
structure DieChange (cfg : Config) (storing waiting : Bool) (d d' : Die) : Prop where
  wf : Die.Wf cfg d → Die.Wf cfg d'
  image : storing = false → waiting = false ∨ d.pend = none → d'.image = d.image
  pend : d'.pend = none ∨ (d'.pend = d.pend ∧ d'.busy = d.busy) ∨
    (storing = true ∧ cfg.device = .general ∧ d'.busy = true ∧ (d.mode = .prog ∨ d.mode = .eraseSetup))
  unknown : d.unknown = true → d'.unknown = true

/-- `t` is `s` with some free values drawn and, if a die is selected, that die changed. -/
def DeviceEffect (storing : Bool) (s t : State) : Prop :=
  t = s ∨ ∃ c d d' n, s.sel = some c ∧ s.dies[c.toNat]? = some d ∧ t = (s.drew n).setDie c d' ∧
    DieChange s.cfg storing false d d'

theorem onSelected_next {s t : State} {f : BitVec 4 → Die → State} (h : s.onSelected f = .next t) :
    (s.sel = none ∧ t = s) ∨ ∃ c d, s.sel = some c ∧ s.dies[c.toNat]? = some d ∧ t = f c d := by
  unfold State.onSelected at h
  split at h
  · next hs => exact .inl ⟨hs, by simpa using h.symm⟩
  · next c hs =>
    split at h
    · cases h
    · next d hd => exact .inr ⟨c, d, hs, hd, by simpa using h.symm⟩

theorem onSelected_some {s : State} {f : BitVec 4 → Die → State} {c : BitVec 4} {d : Die} (hs : s.sel = some c)
    (hd : s.dies[c.toNat]? = some d) : s.onSelected f = .next (f c d) := by
  simp [State.onSelected, hs, hd]

theorem onSelected_none {s : State} {f : BitVec 4 → Die → State} (hs : s.sel = none) :
    s.onSelected f = .next s := by
  simp [State.onSelected, hs]

theorem onSelected_fault {s : State} {f : BitVec 4 → Die → State} {e : Fault} (h : s.onSelected f = .fault e) :
    e = .absentDie ∧ ∃ c, s.sel = some c ∧ s.dies[c.toNat]? = none := by
  unfold State.onSelected at h
  split at h
  · cases h
  · next c hs =>
    split at h
    · next hd => exact ⟨by simpa using h.symm, c, hs, hd⟩
    · cases h

theorem onSelected_not_refused {s : State} {f : BitVec 4 → Die → State} {r : Refusal} :
    s.onSelected f ≠ .refused r := by
  unfold State.onSelected
  split
  · simp
  · split <;> simp

theorem Die.disturbed_wf {cfg : Config} {d : Die} (h : Die.Wf cfg d) : Die.Wf cfg (d.disturbed cfg) := by
  unfold Die.disturbed
  split
  · exact ⟨h.canonical, h.inside, h.pbuf, h.preg, by simp⟩
  · exact h

/-- A disturbed die keeps its image, its mode and its buffers. -/
@[simp] theorem Die.disturbed_image (cfg : Config) (d : Die) : (d.disturbed cfg).image = d.image := by
  unfold Die.disturbed; split <;> rfl

@[simp] theorem Die.disturbed_mode (cfg : Config) (d : Die) : (d.disturbed cfg).mode = d.mode := by
  unfold Die.disturbed; split <;> rfl

@[simp] theorem Die.disturbed_abuf (cfg : Config) (d : Die) : (d.disturbed cfg).abuf = d.abuf := by
  unfold Die.disturbed; split <;> rfl

@[simp] theorem Die.disturbed_pbuf (cfg : Config) (d : Die) : (d.disturbed cfg).pbuf = d.pbuf := by
  unfold Die.disturbed; split <;> rfl

/-- The reference device is never busy, so nothing disturbs it. -/
theorem Die.disturbed_reference {cfg : Config} (d : Die) (h : cfg.device = .reference) : d.disturbed cfg = d := by
  simp [Die.disturbed, h]

/-- A general die that is not busy is not disturbed. -/
theorem Die.disturbed_ready {cfg : Config} {d : Die} (h : d.busy = false) : d.disturbed cfg = d := by
  simp [Die.disturbed, h]

/-- Disturbing a die again changes nothing, whatever was latched in between. -/
theorem Die.disturbed_disturbed {cfg : Config} {d d' : Die} (hb : d'.busy = (d.disturbed cfg).busy)
    (hu : d'.unknown = (d.disturbed cfg).unknown) (hp : d'.pend = (d.disturbed cfg).pend)
    (hl : d'.latched = (d.disturbed cfg).latched) : d'.disturbed cfg = d' := by
  unfold Die.disturbed at *
  split
  · next h =>
    split at hb
    · next h' => simp [h'] at hu hp hl; cases d'; simp_all
    · next h' => rw [hb] at h; exact absurd h h'
  · rfl

/-- Disturbing a die first changes nothing of what can happen to it. -/
theorem DieChange.of_disturbed {cfg : Config} {storing waiting : Bool} {d d' : Die}
    (h : DieChange cfg storing waiting (d.disturbed cfg) d') : DieChange cfg storing waiting d d' := by
  refine ⟨fun w => h.wf (Die.disturbed_wf w), fun hc hw => ?_, ?_, fun hu => h.unknown ?_⟩
  · rw [h.image hc (hw.imp id fun hp => ?_), Die.disturbed_image]
    unfold Die.disturbed
    split
    · rfl
    · exact hp
  · have hp := h.pend
    unfold Die.disturbed at hp
    split at hp
    · rcases hp with hp | hp | hp
      · exact .inl hp
      · exact .inl hp.1
      · exact .inr (.inr hp)
    · exact hp
  · unfold Die.disturbed
    split
    · rfl
    · exact hu

/-- The general shape of a command cycle: if each branch changes the selected die, the cycle is a device effect. -/
theorem commandCycle_effect {storing : Bool} {s t : State} {f : BitVec 4 → Die → State}
    (h : s.commandCycle f = .next t)
    (hf : ∀ c d, ∃ d' n, f c d = (s.drew n).setDie c d' ∧ DieChange s.cfg storing false d d') :
    DeviceEffect storing s t := by
  rcases onSelected_next h with ⟨-, rfl⟩ | ⟨c, d, hs, hd, rfl⟩
  · exact .inl rfl
  · obtain ⟨d', n, he, hw⟩ := hf c (d.disturbed s.cfg)
    exact .inr ⟨c, d, d', n, hs, hd, he, hw.of_disturbed⟩

theorem undefine_effect (storing : Bool) (s : State) (c : BitVec 4) (d : Die) :
    ∃ d' n, s.undefine c d = (s.drew n).setDie c d' ∧ DieChange s.cfg storing false d d' :=
  ⟨_, 2, rfl, fun h => ⟨h.canonical, h.inside, h.pbuf, h.preg, by simp⟩, fun _ _ => rfl, .inl rfl, fun h => by simp [h]⟩

theorem undefineDie_effect (s : State) (c : BitVec 4) (d : Die) :
    ∃ d' n, s.undefineDie c d = (s.drew n).setDie c d' ∧ DieChange s.cfg true false d d' :=
  ⟨_, s.cfg.imageSize + 2 * s.cfg.fullPageSize + 2 + 2, rfl, fun h => ⟨Memory.writeBytes_wf _ _ h.canonical,
    Memory.writeBytes_fits h.inside (by simp), by simp, by simp, by simp⟩, (fun h => nomatch h), .inl rfl,
    fun h => by simp_all⟩

theorem startOperation_effect (s : State) (c : BitVec 4) (d : Die) (off : Nat) (bytes : List Byte)
    (hg : s.cfg.device = .general) (hm : d.mode = .prog ∨ d.mode = .eraseSetup)
    (hin : off + bytes.length ≤ s.cfg.imageSize) :
    ∃ d' n, s.startOperation c d off bytes = (s.drew n).setDie c d' ∧ DieChange s.cfg true false d d' := by
  refine ⟨_, bytes.length, rfl, fun h => ⟨Memory.writeBytes_wf _ _ h.canonical,
    Memory.writeBytes_fits h.inside (by simpa using hin), h.pbuf, h.preg, ?_⟩, (fun h => nomatch h),
    .inr (.inr ⟨rfl, hg, rfl, hm⟩), id⟩
  intro p hp
  simp only at hp
  split at hp
  · cases hp
  · simp only [Option.some.injEq] at hp
    subst hp
    exact hin

theorem programReference_effect (s : State) (c : BitVec 4) (d : Die) (row : Nat) (h : row < s.cfg.rows) :
    ∃ d' n, s.programReference c d row = (s.drew n).setDie c d' ∧ DieChange s.cfg true false d d' := by
  unfold State.programReference
  split
  · exact ⟨_, 0, rfl, fun h => ⟨h.canonical, h.inside, h.pbuf, h.preg, h.pend⟩, fun _ _ => rfl, .inr (.inl ⟨rfl, rfl⟩), id⟩
  · refine ⟨_, 0, rfl, fun hw => ⟨Memory.writeBytes_wf _ _ hw.canonical, Memory.writeBytes_fits hw.inside ?_,
      hw.pbuf, hw.preg, hw.pend⟩, (fun h => nomatch h), .inr (.inl ⟨rfl, rfl⟩), id⟩
    have := programmed_length_le s.cfg d row
    have := page_inside h
    omega

theorem eraseReference_effect (s : State) (c : BitVec 4) (d : Die) (row : Nat) (h : row < s.cfg.rows) :
    ∃ d' n, s.eraseReference c d (row / s.cfg.pagesPerBlock) = (s.drew n).setDie c d' ∧
      DieChange s.cfg true false d d' := by
  unfold State.eraseReference
  split
  · exact ⟨_, 0, rfl, fun h => ⟨h.canonical, h.inside, h.pbuf, h.preg, h.pend⟩, fun _ _ => rfl, .inr (.inl ⟨rfl, rfl⟩), id⟩
  · refine ⟨_, 0, rfl, fun hw => ⟨Memory.writeBytes_wf _ _ hw.canonical, Memory.writeBytes_fits hw.inside ?_,
      hw.pbuf, hw.preg, hw.pend⟩, (fun h => nomatch h), .inr (.inl ⟨rfl, rfl⟩), id⟩
    simpa using block_inside h

theorem loadPage_change {cfg : Config} (storing : Bool) (d : Die) (col row : Nat) :
    DieChange cfg storing false d (d.loadPage cfg col row) :=
  ⟨fun h => ⟨h.canonical, h.inside, h.pbuf, by simp [Die.loadPage], by simp [Die.loadPage]⟩, fun _ _ => rfl, .inl rfl, id⟩

/-- A die that keeps what a command cycle by itself never touches. -/
theorem plain_change {cfg : Config} {d d' : Die} (storing : Bool) (hi : d'.image = d.image)
    (hpb : Die.Wf cfg d → d'.pbuf.length = cfg.fullPageSize) (hpr : d'.preg = d.preg) (hpe : d'.pend = d.pend)
    (hb : d'.busy = d.busy) (hu : d'.unknown = d.unknown) : DieChange cfg storing false d d' :=
  ⟨fun h => ⟨hi ▸ h.canonical, hi ▸ h.inside, hpb h, hpr ▸ h.preg, hpe ▸ h.pend⟩, fun _ _ => hi, .inr (.inl ⟨hpe, hb⟩),
    hu.trans⟩

theorem readConfirm_effect {s t : State} (h : execCmdReadConfirm s = .next t) : DeviceEffect s.readsNowhere s t := by
  rcases onSelected_next h with ⟨-, rfl⟩ | ⟨c, d, hs, hd, rfl⟩
  · exact .inl rfl
  · have ofEffect : ∀ {u : State}, (∃ d' n, u = (s.drew n).setDie c d' ∧
        DieChange s.cfg s.readsNowhere false (d.disturbed s.cfg) d') → DeviceEffect s.readsNowhere s u :=
      fun ⟨d', n, he, hc⟩ => .inr ⟨c, d, d', n, hs, hd, he, hc.of_disturbed⟩
    beta_reduce
    split
    · next hm =>
      split
      · exact ofEffect ⟨_, 0, rfl, loadPage_change _ _ _ _⟩
      · next ha =>
        have hr : s.readsNowhere = true := by
          simp only [Die.disturbed_mode, Die.disturbed_abuf] at hm ha
          simp [State.readsNowhere, hs, hd, hm, ha]
        rw [hr] at ofEffect ⊢
        exact ofEffect (undefineDie_effect s c _)
    · exact ofEffect (undefine_effect _ s c _)

theorem programConfirm_effect {s t : State} (h : execCmdProgramConfirm s = .next t) : DeviceEffect true s t := by
  refine commandCycle_effect h fun c d => ?_
  split
  · next hm =>
    split
    · next col row ha =>
      have hr := (decodePage_some ha).2.1
      split
      · exact programReference_effect s c d row hr
      · next hg =>
        refine startOperation_effect s c d _ _ hg (.inl hm) ?_
        have := programmed_length_le s.cfg d row
        have := page_inside hr
        omega
    · exact undefineDie_effect s c d
  · exact undefine_effect _ s c d

theorem eraseConfirm_effect {s t : State} (h : execCmdEraseConfirm s = .next t) : DeviceEffect true s t := by
  refine commandCycle_effect h fun c d => ?_
  split
  · next hm =>
    split
    · next block ha =>
      obtain ⟨-, hr, rfl⟩ := decodeBlock_some ha
      split
      · exact eraseReference_effect s c d _ hr
      · next hg => exact startOperation_effect s c d _ _ hg (.inr hm) (by simpa using block_inside hr)
    · exact undefineDie_effect s c d
  · exact undefine_effect _ s c d

/-- What each of the eight command cycles can do: a device effect. -/
theorem nandCmd_effect {k : NandCmd} {s t : State} (h : exec (Instr.ofNandCmd k) s = .next t) :
    DeviceEffect (s.stores k) s t := by
  cases k with
  | readId =>
    exact commandCycle_effect (f := fun c d => s.setDie c { d with mode := .id, abuf := [], rptr := 0 }) h
      fun c d => ⟨_, 0, rfl, plain_change _ rfl (fun h => h.pbuf) rfl rfl rfl rfl⟩
  | readSetup =>
    exact commandCycle_effect (f := fun c d => s.setDie c { d with mode := .readSetup, abuf := [] }) h
      fun c d => ⟨_, 0, rfl, plain_change _ rfl (fun h => h.pbuf) rfl rfl rfl rfl⟩
  | readConfirm => exact (show s.stores .readConfirm = s.readsNowhere by simp [State.stores]) ▸ readConfirm_effect h
  | programSetup =>
    exact commandCycle_effect
      (f := fun c d => s.setDie c { d with mode := .prog, abuf := [], pbuf := fill s.cfg.fullPageSize 0xFF }) h
      fun c d => ⟨_, 0, rfl, plain_change _ rfl (fun _ => by simp) rfl rfl rfl rfl⟩
  | programConfirm => exact programConfirm_effect h
  | eraseSetup =>
    exact commandCycle_effect (f := fun c d => s.setDie c { d with mode := .eraseSetup, abuf := [] }) h
      fun c d => ⟨_, 0, rfl, plain_change _ rfl (fun h => h.pbuf) rfl rfl rfl rfl⟩
  | eraseConfirm => exact eraseConfirm_effect h
  | readStatus =>
    exact commandCycle_effect
      (f := fun c d => s.setDie c { d with mode := .status, status := statusByte s.wp d.fail }) h
      fun c d => ⟨_, 0, rfl, plain_change _ rfl (fun h => h.pbuf) rfl rfl rfl rfl⟩

/-- A command byte is its command cycle, or none of the eight. -/
theorem commandByteCycle_eq (b : Byte) (s : State) : commandByteCycle b s =
    match nandCmdOf s.cfg b with
    | some k => exec (Instr.ofNandCmd k) s
    | none => unknownCommandCycle s := by
  unfold commandByteCycle
  split <;> simp_all [Instr.ofNandCmd, exec]

theorem unknownCommand_effect {s t : State} (h : unknownCommandCycle s = .next t) : DeviceEffect false s t :=
  commandCycle_effect h fun c d => undefine_effect _ s c d

/-- What any command byte can do: a device effect. -/
theorem commandByteCycle_effect {b : Byte} {s t : State} (h : commandByteCycle b s = .next t) :
    DeviceEffect (s.storesIn (.cmd b)) s t := by
  rw [commandByteCycle_eq] at h
  split at h
  · next k hk =>
    have : s.storesIn (.cmd b) = s.stores k := by simp [State.storesIn, hk]
    rw [this]
    exact nandCmd_effect h
  · next hk =>
    have : s.storesIn (.cmd b) = false := by simp [State.storesIn, hk]
    rw [this]
    exact unknownCommand_effect h

theorem commandByteCycle_fault {b : Byte} {s : State} {e : Fault} (h : commandByteCycle b s = .fault e) :
    e = .absentDie ∧ ∃ c, s.sel = some c ∧ s.dies[c.toNat]? = none := by
  unfold commandByteCycle at h
  split at h <;> exact onSelected_fault h

theorem commandByteCycle_not_refused {b : Byte} {s : State} {r : Refusal} : commandByteCycle b s ≠ .refused r := by
  unfold commandByteCycle
  split <;> exact onSelected_not_refused

/-! ### Phases -/

/-- The dice after a phase: as before, but perhaps the selected one. -/
def DiesEffect (p : Phase) (s t : State) : Prop :=
  t.dies = s.dies ∨ ∃ c d d', s.sel = some c ∧ s.dies[c.toNat]? = some d ∧ t.dies = s.dies.set c.toNat d' ∧
    DieChange s.cfg (s.storesIn p) p.waits d d'

/-- Everything a completed phase does. -/
structure Performed (p : Phase) (s : State) (r : Completion) (t : State) : Prop where
  regs : State.SameRegisters s t
  bench : t.bench = s.bench
  trace : t.trace = s.trace ++ [⟨p, r⟩]
  csSel : t.csSel = p.nextCsSel s.csSel
  wpAsserted : t.wpAsserted = p.nextWp s.wpAsserted
  wp : t.wp = p.nextWp s.wp
  sel : t.sel = p.nextSel s.sel
  dies : DiesEffect p s t
  completes : p.Completes r

theorem State.SameRegisters.rfl' (s : State) : State.SameRegisters s s :=
  ⟨rfl, rfl, rfl, rfl, rfl, rfl, rfl, rfl, rfl, rfl, rfl, rfl, rfl, rfl, rfl, rfl, rfl⟩

/-- A device effect, logged as a phase that hands nothing back and moves no line. -/
theorem performed_of_effect {p : Phase} {s t : State} (h : DeviceEffect (s.storesIn p) s t) (hq : p.waits = false)
    (hc : ∀ x, p.nextCsSel x = x) (hw : ∀ x, p.nextWp x = x) (hs : ∀ x, p.nextSel x = x)
    (hr : p.Completes .unit) : Performed p s .unit (t.logPhase p .unit) := by
  rcases h with rfl | ⟨c, d, d', n, hsel, hd, rfl, hwf⟩
  · exact ⟨⟨rfl, rfl, rfl, rfl, rfl, rfl, rfl, rfl, rfl, rfl, rfl, rfl, rfl, rfl, rfl, rfl, rfl⟩, rfl, rfl,
      (hc _).symm, (hw _).symm, (hw _).symm, (hs _).symm, .inl rfl, hr⟩
  · exact ⟨⟨rfl, rfl, rfl, rfl, rfl, rfl, rfl, rfl, rfl, rfl, rfl, rfl, rfl, rfl, rfl, rfl, rfl⟩, rfl, rfl,
      (hc _).symm, (hw _).symm, (hw _).symm, (hs _).symm, .inr ⟨c, d, d', hsel, hd, rfl, hq ▸ hwf⟩, hr⟩

theorem ofEffect_done {p : Phase} {o : Host.Outcome State Fault Refusal} {r : Completion} {t : State}
    (h : PhaseResult.ofEffect p o = .done r t) : ∃ t0, o = .next t0 ∧ r = .unit ∧ t = t0.logPhase p .unit := by
  cases o with
  | next s =>
    simp only [PhaseResult.ofEffect, PhaseResult.done.injEq] at h
    exact ⟨s, rfl, h.1.symm, h.2.symm⟩
  | fault f => cases h
  | refused f => cases h

theorem ofEffect_fault {p : Phase} {o : Host.Outcome State Fault Refusal} {f : Fault}
    (h : PhaseResult.ofEffect p o = .fault f) : o = .fault f := by
  cases o <;> simp_all [PhaseResult.ofEffect]

theorem ofEffect_refused {p : Phase} {o : Host.Outcome State Fault Refusal} {f : Refusal}
    (h : PhaseResult.ofEffect p o = .refused f) : o = .refused f := by
  cases o <;> simp_all [PhaseResult.ofEffect]

theorem ofEffect_not_hold {p : Phase} {o : Host.Outcome State Fault Refusal} {t : State} :
    PhaseResult.ofEffect p o ≠ .hold t := by
  cases o <;> simp [PhaseResult.ofEffect]

theorem knownBytes_length_le (cfg : Config) (d : Die) (n : Nat) : (d.knownBytes cfg n).length ≤ n := by
  unfold Die.knownBytes
  split <;> (try split) <;> simp

theorem lawBytes_length_le {d : Die} {n : Nat} {l : List Byte} (h : d.lawBytes n = some l) : l.length ≤ n := by
  unfold Die.lawBytes at h
  split at h
  · cases h
  · split at h
    · simp only [Option.some.injEq] at h
      subst h
      simp
    · cases hl : d.latched with
      | none => simp [hl] at h
      | some st =>
        simp only [hl, Option.map_some, Option.some.injEq] at h
        subst h
        simp
    all_goals cases h

/-- `answers` and `draws` moved on, and nothing else. -/
def Answered (s t : State) : Prop := ∃ a n, t = { s with answers := a, draws := n }

theorem padFree_spec {s t : State} {known l : List Byte} {n : Nat} (hk : known.length ≤ n)
    (h : s.padFree known n = (l, t)) : l.length = n ∧ Answered s t := by
  simp only [State.padFree, Prod.mk.injEq] at h
  obtain ⟨rfl, rfl⟩ := h
  exact ⟨by simp; omega, s.answers, _, rfl⟩

theorem answerBytes_spec {s t : State} {l : List Byte} {n : Nat} (h : s.answerBytes n = some (l, t)) :
    l.length = n ∧ Answered s t := by
  unfold State.answerBytes at h
  split at h
  · simp only [Option.some.injEq, Prod.mk.injEq] at h
    obtain ⟨rfl, rfl⟩ := h
    exact ⟨by simp, s.answers, _, rfl⟩
  · split at h
    · next hl =>
      simp only [Option.some.injEq, Prod.mk.injEq] at h
      obtain ⟨rfl, rfl⟩ := h
      exact ⟨hl, _, s.draws, rfl⟩
    · cases h
  · cases h
  · cases h

theorem answerBytes_none {s : State} {n : Nat} (h : s.answerBytes n = none) : s.AnswerBreaks (.din n) := by
  unfold State.answerBytes at h
  split at h
  · cases h
  · next l rest he =>
    split at h
    · cases h
    · next hl => exact ⟨_, _, he, fun _ hb => by cases hb; exact hl⟩
  · next he => exact ⟨_, _, he, fun _ hb => nomatch hb⟩
  · next he => exact ⟨_, _, he, fun _ hb => nomatch hb⟩

theorem dieBytes_spec {s t : State} {d : Die} {l : List Byte} {n : Nat} (h : s.dieBytes d n = some (l, t)) :
    l.length = n ∧ Answered s t := by
  unfold State.dieBytes at h
  split at h
  · exact padFree_spec (knownBytes_length_le _ _ _) (by simpa using h)
  · split at h
    · next l' hl => exact padFree_spec (lawBytes_length_le hl) (by simpa using h)
    · exact answerBytes_spec h

theorem dieBytes_none {s : State} {d : Die} {n : Nat} (h : s.dieBytes d n = none) :
    s.cfg.device = .general ∧ s.AnswerBreaks (.din n) := by
  unfold State.dieBytes at h
  split at h
  · cases h
  · next hg =>
    split at h
    · cases h
    · exact ⟨hg, answerBytes_none h⟩

theorem noDieBytes_spec {s t : State} {l : List Byte} {n : Nat} (h : s.noDieBytes n = some (l, t)) :
    l.length = n ∧ Answered s t := by
  unfold State.noDieBytes at h
  split at h
  · exact padFree_spec (known := []) (Nat.zero_le n) (Option.some.inj h)
  · exact answerBytes_spec h

theorem noDieBytes_none {s : State} {n : Nat} (h : s.noDieBytes n = none) :
    s.cfg.device = .general ∧ s.AnswerBreaks (.din n) := by
  unfold State.noDieBytes at h
  split at h
  · cases h
  · next hg => exact ⟨hg, answerBytes_none h⟩

theorem afterDin_change {cfg : Config} (storing : Bool) (d : Die) (n : Nat) :
    DieChange cfg storing false d (d.afterDin n) := by
  unfold Die.afterDin
  split <;> exact ⟨fun h => ⟨h.canonical, h.inside, h.pbuf, h.preg, h.pend⟩, fun _ _ => rfl, .inr (.inl ⟨rfl, rfl⟩), id⟩

theorem becomeReady_change {cfg : Config} (storing : Bool) (d : Die) (st : Byte) :
    DieChange cfg storing true d (d.becomeReady cfg st) := by
  unfold Die.becomeReady
  split
  · exact ⟨fun h => ⟨h.canonical, h.inside, h.pbuf, h.preg, by simp⟩, fun _ _ => rfl, .inl rfl, fun h => by simp [h]⟩
  · split
    · next p hp =>
      refine ⟨fun h => ⟨?_, ?_, h.pbuf, h.preg, by simp⟩, fun _ hw => ?_, .inl rfl, id⟩
      · simp only
        split
        · exact Memory.writeBytes_wf _ _ h.canonical
        · exact h.canonical
      · simp only
        split
        · exact Memory.writeBytes_fits h.inside (h.pend p hp)
        · exact h.inside
      · rcases hw with hw | hw
        · cases hw
        · rw [hp] at hw
          cases hw
    · next hp => exact ⟨fun h => ⟨h.canonical, h.inside, h.pbuf, h.preg, h.pend⟩, fun _ _ => rfl, .inl hp, id⟩

theorem becomeReady_pend (cfg : Config) (d : Die) (st : Byte) : (d.becomeReady cfg st).pend = none := by
  unfold Die.becomeReady
  split
  · rfl
  · split
    · rfl
    · next hp => exact hp

theorem timedOut_change {cfg : Config} (storing : Bool) (d : Die) : DieChange cfg storing true d d.timedOut :=
  ⟨fun h => ⟨h.canonical, h.inside, h.pbuf, h.preg, by simp [Die.timedOut]⟩, fun _ _ => rfl, .inl rfl, fun _ => rfl⟩

theorem answerWait_spec {s t : State} {a : WaitAnswer} (h : s.answerWait = some (a, t)) : Answered s t := by
  unfold State.answerWait at h
  split at h
  · simp only [Option.some.injEq, Prod.mk.injEq] at h
    exact ⟨s.answers, s.draws + 1, h.2.symm⟩
  · simp only [Option.some.injEq, Prod.mk.injEq] at h
    exact ⟨_, s.draws, h.2.symm⟩
  · simp only [Option.some.injEq, Prod.mk.injEq] at h
    exact ⟨_, s.draws, h.2.symm⟩
  · cases h

/-- A wait answered READY, supplied from outside or free. -/
theorem State.WaitAnswersReady.answerWait {s : State} (h : s.WaitAnswersReady) :
    ∃ st l n, s.answerWait = some (.ready st, { s with answers := l, draws := n }) := by
  rcases h with ⟨st, rest, h⟩ | ⟨h, hf⟩
  · exact ⟨st, rest, s.draws, by simp [State.answerWait, h]⟩
  · exact ⟨Config.freeByte s.draws, [], s.draws + 1, by simp [State.answerWait, h, hf, State.drew]⟩

/-- A wait answered that the die is busy, supplied from outside or free. -/
theorem State.WaitAnswersBusy.answerWait {s : State} (h : s.WaitAnswersBusy) :
    ∃ l n, s.answerWait = some (.busy, { s with answers := l, draws := n }) := by
  rcases h with ⟨rest, h⟩ | ⟨h, hf⟩
  · exact ⟨rest, s.draws, by simp [State.answerWait, h]⟩
  · exact ⟨[], s.draws + 1, by simp [State.answerWait, h, hf, State.drew]⟩

theorem answerWait_none {s : State} (h : s.answerWait = none) (b : ReadyBound) : s.AnswerBreaks (.waitRdy b) := by
  unfold State.answerWait at h
  split at h
  · cases h
  · cases h
  · cases h
  · next he => exact ⟨_, _, he, _, rfl⟩

/-- The machine with its answers moved on and the selected die replaced, logged as a phase that moves no line. -/
theorem performed_of_answer {p : Phase} {s t : State} {r : Completion} (ha : Answered s t)
    (hc : ∀ x, p.nextCsSel x = x) (hw : ∀ x, p.nextWp x = x) (hs : ∀ x, p.nextSel x = x) (hr : p.Completes r) :
    Performed p s r (t.logPhase p r) := by
  obtain ⟨a, n, rfl⟩ := ha
  exact ⟨⟨rfl, rfl, rfl, rfl, rfl, rfl, rfl, rfl, rfl, rfl, rfl, rfl, rfl, rfl, rfl, rfl, rfl⟩, rfl, rfl,
    (hc _).symm, (hw _).symm, (hw _).symm, (hs _).symm, .inl rfl, hr⟩

theorem performed_of_answer_die {p : Phase} {s t : State} {r : Completion} {c : BitVec 4} {d d' : Die}
    (ha : Answered s t) (hsel : s.sel = some c) (hd : s.dies[c.toNat]? = some d)
    (hwf : DieChange s.cfg (s.storesIn p) p.waits d d')
    (hc : ∀ x, p.nextCsSel x = x) (hw : ∀ x, p.nextWp x = x) (hs : ∀ x, p.nextSel x = x) (hr : p.Completes r) :
    Performed p s r ((t.setDie c d').logPhase p r) := by
  obtain ⟨a, n, rfl⟩ := ha
  exact ⟨⟨rfl, rfl, rfl, rfl, rfl, rfl, rfl, rfl, rfl, rfl, rfl, rfl, rfl, rfl, rfl, rfl, rfl⟩, rfl, rfl,
    (hc _).symm, (hw _).symm, (hw _).symm, (hs _).symm, .inr ⟨c, d, d', hsel, hd, rfl, hwf⟩, hr⟩

theorem finishWait_done_none {bound : ReadyBound} {s u t : State} {a : WaitAnswer} {r : Completion}
    (ha : Answered s u) (h : finishWait bound none (a, u) = .done r t) : Performed (.waitRdy bound) s r t := by
  cases a with
  | ready st =>
    simp only [finishWait, PhaseResult.done.injEq] at h
    obtain ⟨rfl, rfl⟩ := h
    exact performed_of_answer ha (fun _ => rfl) (fun _ => rfl) (fun _ => rfl) (.inl rfl)
  | busy =>
    cases bound with
    | inf => cases h
    | polls k =>
      simp only [finishWait, PhaseResult.done.injEq] at h
      obtain ⟨rfl, rfl⟩ := h
      exact performed_of_answer ha (fun _ => rfl) (fun _ => rfl) (fun _ => rfl) (.inr rfl)

theorem finishWait_done_some {bound : ReadyBound} {s u t : State} {a : WaitAnswer} {r : Completion} {c : BitVec 4}
    {d : Die} (ha : Answered s u) (hsel : s.sel = some c) (hd : s.dies[c.toNat]? = some d)
    (h : finishWait bound (some (c, d)) (a, u) = .done r t) : Performed (.waitRdy bound) s r t := by
  have hcfg : u.cfg = s.cfg := by
    obtain ⟨a, n, rfl⟩ := ha
    rfl
  cases a with
  | ready st =>
    simp only [finishWait, PhaseResult.done.injEq] at h
    obtain ⟨rfl, rfl⟩ := h
    exact performed_of_answer_die ha hsel hd (by rw [hcfg]; exact becomeReady_change _ d st) (fun _ => rfl) (fun _ => rfl)
      (fun _ => rfl) (.inl rfl)
  | busy =>
    cases bound with
    | inf => cases h
    | polls k =>
      simp only [finishWait, PhaseResult.done.injEq] at h
      obtain ⟨rfl, rfl⟩ := h
      exact performed_of_answer_die ha hsel hd (timedOut_change _ d) (fun _ => rfl) (fun _ => rfl) (fun _ => rfl) (.inr rfl)

theorem performWaitRdy_done {bound : ReadyBound} {s t : State} {r : Completion}
    (h : performWaitRdy bound s = .done r t) : Performed (.waitRdy bound) s r t := by
  have hready : ∀ t : State, PhaseResult.done .ready (s.logPhase (.waitRdy bound) .ready) = .done r t →
      Performed (.waitRdy bound) s r t := by
    intro t h
    simp only [PhaseResult.done.injEq] at h
    obtain ⟨rfl, rfl⟩ := h
    exact performed_of_answer ⟨s.answers, s.draws, rfl⟩ (fun _ => rfl) (fun _ => rfl) (fun _ => rfl) (.inl rfl)
  unfold performWaitRdy at h
  split at h
  · exact hready t h
  · unfold waitGeneral at h
    split at h
    · split at h
      · next a ha => exact finishWait_done_none (answerWait_spec ha) h
      · cases h
    · next c hs =>
      split at h
      · cases h
      · next d hd =>
        split at h
        · exact hready t h
        · split at h
          · next a ha => exact finishWait_done_some (answerWait_spec ha) hs hd h
          · cases h

/-- A completed wait leaves no array effect in progress on its die. -/
theorem performWaitRdy_pend {bound : ReadyBound} {s t : State} {r : Completion} {c : BitVec 4} {d : Die}
    (h : performWaitRdy bound s = .done r t) (hg : s.cfg.device = .general) (hs : s.sel = some c)
    (hd : s.dies[c.toNat]? = some d) (hb : d.pend ≠ none → d.busy = true) :
    ∀ d', t.dies[c.toNat]? = some d' → d'.pend = none := by
  have hlt : c.toNat < s.dies.length := (List.getElem?_eq_some_iff.mp hd).1
  simp only [performWaitRdy, hg, waitGeneral, hs, hd] at h
  split at h
  · next hc =>
    simp only [PhaseResult.done.injEq] at h
    obtain ⟨-, rfl⟩ := h
    intro d' hd'
    rw [show d = d' by simpa [hd] using hd'] at hb hc
    by_contra hp
    simp [hb hp] at hc
  · split at h
    · next a ha =>
      obtain ⟨a, u⟩ := a
      obtain ⟨l, n, hu⟩ := answerWait_spec ha
      have hdies : u.dies = s.dies := by rw [hu]
      intro d' hd'
      cases a with
      | ready st =>
        simp only [finishWait, PhaseResult.done.injEq] at h
        rw [← h.2] at hd'
        simp [hdies, List.getElem?_set_self hlt] at hd'
        rw [← hd']
        exact becomeReady_pend _ _ _
      | busy =>
        cases bound with
        | inf => cases h
        | polls k =>
          simp only [finishWait, PhaseResult.done.injEq] at h
          rw [← h.2] at hd'
          simp [hdies, List.getElem?_set_self hlt] at hd'
          rw [← hd']
          rfl
    · cases h

theorem performDin_done {n : Nat} {s t : State} {r : Completion} (h : performDin n s = .done r t) :
    Performed (.din n) s r t := by
  unfold performDin at h
  split at h
  · split at h
    · next l u hb =>
      simp only [PhaseResult.done.injEq] at h
      obtain ⟨rfl, rfl⟩ := h
      have hb := noDieBytes_spec hb
      exact performed_of_answer hb.2 (fun _ => rfl) (fun _ => rfl) (fun _ => rfl) ⟨l, rfl, hb.1⟩
    · cases h
  · next c hs =>
    split at h
    · cases h
    · next d hd =>
      simp only at h
      split at h
      · next l u hb =>
        simp only [PhaseResult.done.injEq] at h
        obtain ⟨rfl, rfl⟩ := h
        have hb := dieBytes_spec hb
        exact performed_of_answer_die hb.2 hs hd (afterDin_change _ _ n).of_disturbed (fun _ => rfl)
          (fun _ => rfl) (fun _ => rfl) ⟨l, rfl, hb.1⟩
      · cases h

/-- A completed phase, whichever it is. -/
theorem perform_done {p : Phase} {s t : State} {r : Completion} (h : perform p s = .done r t) :
    Performed p s r t := by
  cases p with
  | select c =>
    simp only [perform, performSelect] at h
    split at h
    · obtain ⟨u, hu, rfl, rfl⟩ := ofEffect_done h
      simp only [Host.Outcome.next.injEq] at hu
      subst hu
      exact ⟨⟨rfl, rfl, rfl, rfl, rfl, rfl, rfl, rfl, rfl, rfl, rfl, rfl, rfl, rfl, rfl, rfl, rfl⟩, rfl, rfl, rfl,
        rfl, rfl, rfl, .inl rfl, rfl⟩
    · cases h
  | deselect =>
    obtain ⟨u, hu, rfl, rfl⟩ := ofEffect_done h
    rcases onSelected_next hu with ⟨hs, rfl⟩ | ⟨c, d, hs, hd, rfl⟩
    · exact ⟨⟨rfl, rfl, rfl, rfl, rfl, rfl, rfl, rfl, rfl, rfl, rfl, rfl, rfl, rfl, rfl, rfl, rfl⟩, rfl, rfl, rfl,
        rfl, rfl, hs, .inl rfl, rfl⟩
    · exact ⟨⟨rfl, rfl, rfl, rfl, rfl, rfl, rfl, rfl, rfl, rfl, rfl, rfl, rfl, rfl, rfl, rfl, rfl⟩, rfl, rfl, rfl,
        rfl, rfl, rfl, .inr ⟨c, d, _, hs, hd, rfl, fun h => ⟨h.canonical, h.inside, h.pbuf, h.preg, h.pend⟩, fun _ _ => rfl,
          .inr (.inl ⟨rfl, rfl⟩), id⟩, rfl⟩
  | setWp v =>
    simp only [perform, performSetWp] at h
    obtain ⟨u, hu, rfl, rfl⟩ := ofEffect_done h
    simp only [Host.Outcome.next.injEq] at hu
    subst hu
    exact ⟨⟨rfl, rfl, rfl, rfl, rfl, rfl, rfl, rfl, rfl, rfl, rfl, rfl, rfl, rfl, rfl, rfl, rfl⟩, rfl, rfl, rfl,
      rfl, rfl, rfl, .inl rfl, rfl⟩
  | cmd b =>
    obtain ⟨u, hu, rfl, rfl⟩ := ofEffect_done h
    exact performed_of_effect (commandByteCycle_effect hu) rfl (fun _ => rfl) (fun _ => rfl) (fun _ => rfl) rfl
  | addr l =>
    obtain ⟨u, hu, rfl, rfl⟩ := ofEffect_done h
    refine performed_of_effect ?_ rfl (fun _ => rfl) (fun _ => rfl) (fun _ => rfl) rfl
    rcases onSelected_next hu with ⟨-, rfl⟩ | ⟨c, d, hs, hd, rfl⟩
    · exact .inl rfl
    · exact .inr ⟨c, d, _, 0, hs, hd, rfl, DieChange.of_disturbed ⟨fun w =>
        ⟨w.canonical, w.inside, w.pbuf, w.preg, w.pend⟩, fun _ _ => rfl, .inr (.inl ⟨rfl, rfl⟩), id⟩⟩
  | dout l =>
    obtain ⟨u, hu, rfl, rfl⟩ := ofEffect_done h
    refine performed_of_effect ?_ rfl (fun _ => rfl) (fun _ => rfl) (fun _ => rfl) rfl
    rcases onSelected_next hu with ⟨-, rfl⟩ | ⟨c, d, hs, hd, rfl⟩
    · exact .inl rfl
    · simp only
      split
      · split
        · exact .inr ⟨c, d, _, 0, hs, hd, rfl, DieChange.of_disturbed ⟨fun w =>
            ⟨w.canonical, w.inside, by simpa using w.pbuf, w.preg, w.pend⟩, fun _ _ => rfl, .inr (.inl ⟨rfl, rfl⟩), id⟩⟩
        · obtain ⟨d', n, he, hw⟩ := undefine_effect _ s c (d.disturbed s.cfg)
          exact .inr ⟨c, d, d', n, hs, hd, he, hw.of_disturbed⟩
      · exact .inr ⟨c, d, _, 0, hs, hd, rfl, DieChange.of_disturbed ⟨id, fun _ _ => rfl, .inr (.inl ⟨rfl, rfl⟩), id⟩⟩
  | din n => exact performDin_done h
  | waitRdy b => exact performWaitRdy_done h

/-- A phase faults only at a die that does not exist. -/
theorem perform_fault {p : Phase} {s : State} {f : Fault} (h : perform p s = .fault f) :
    f = .absentDie ∧ ((∃ c, p = .select c ∧ s.cfg.numCs ≤ c.toNat) ∨ ∃ c, s.sel = some c ∧ s.dies[c.toNat]? = none) := by
  cases p with
  | select c =>
    simp only [perform, performSelect] at h
    split at h
    · cases h
    · next hc =>
      simp only [PhaseResult.fault.injEq] at h
      exact ⟨h.symm, .inl ⟨c, rfl, by omega⟩⟩
  | deselect => have := onSelected_fault (ofEffect_fault h); exact ⟨this.1, .inr this.2⟩
  | setWp v => cases h
  | cmd b => have := commandByteCycle_fault (ofEffect_fault h); exact ⟨this.1, .inr this.2⟩
  | addr l => have := onSelected_fault (ofEffect_fault h); exact ⟨this.1, .inr this.2⟩
  | dout l => have := onSelected_fault (ofEffect_fault h); exact ⟨this.1, .inr this.2⟩
  | din n =>
    simp only [perform, performDin] at h
    split at h
    · split at h <;> cases h
    · next c hs =>
      split at h
      · next hd =>
        simp only [PhaseResult.fault.injEq] at h
        exact ⟨h.symm, .inr ⟨c, hs, hd⟩⟩
      · split at h <;> cases h
  | waitRdy b =>
    have hfin : ∀ t a, finishWait b t a ≠ .fault f := by
      rintro t ⟨a, u⟩
      cases a <;> cases b <;> simp [finishWait]
    simp only [perform, performWaitRdy] at h
    split at h
    · cases h
    · unfold waitGeneral at h
      split at h
      · split at h
        · exact absurd h (hfin _ _)
        · cases h
      · next c hs =>
        split at h
        · next hd =>
          simp only [PhaseResult.fault.injEq] at h
          exact ⟨h.symm, .inr ⟨c, hs, hd⟩⟩
        · split at h
          · cases h
          · split at h
            · exact absurd h (hfin _ _)
            · cases h

/-- A phase is refused only where the general device's supplied answer breaks the driver port contract. -/
theorem perform_refused {p : Phase} {s : State} {r : Refusal} (h : perform p s = .refused r) :
    r = .driverContract ∧ s.cfg.device = .general ∧ s.AnswerBreaks p := by
  cases p with
  | select c =>
    simp only [perform, performSelect] at h
    split at h <;> cases h
  | deselect => exact absurd (ofEffect_refused h) onSelected_not_refused
  | setWp v => cases h
  | cmd b => exact absurd (ofEffect_refused h) commandByteCycle_not_refused
  | addr l => exact absurd (ofEffect_refused h) onSelected_not_refused
  | dout l => exact absurd (ofEffect_refused h) onSelected_not_refused
  | din n =>
    simp only [perform, performDin] at h
    split at h
    · split at h
      · cases h
      · next hb =>
        simp only [PhaseResult.refused.injEq] at h
        exact ⟨h.symm, noDieBytes_none hb⟩
    · split at h
      · cases h
      · split at h
        · cases h
        · next hb =>
          simp only [PhaseResult.refused.injEq] at h
          exact ⟨h.symm, dieBytes_none hb⟩
  | waitRdy b =>
    have hfin : ∀ t a, finishWait b t a ≠ .refused r := by
      rintro t ⟨a, u⟩
      cases a <;> cases b <;> simp [finishWait]
    simp only [perform, performWaitRdy] at h
    split at h
    · cases h
    · next hg =>
      unfold waitGeneral at h
      split at h
      · split at h
        · exact absurd h (hfin _ _)
        · next ha =>
          simp only [PhaseResult.refused.injEq] at h
          exact ⟨h.symm, hg, answerWait_none ha b⟩
      · split at h
        · cases h
        · split at h
          · cases h
          · split at h
            · exact absurd h (hfin _ _)
            · next ha =>
              simp only [PhaseResult.refused.injEq] at h
              exact ⟨h.symm, hg, answerWait_none ha b⟩

theorem finishWait_hold {bound : ReadyBound} {target : Option (BitVec 4 × Die)} {a : WaitAnswer} {u t : State}
    (h : finishWait bound target (a, u) = .hold t) : bound = .inf ∧ t = u := by
  cases a with
  | ready st => cases h
  | busy =>
    cases bound with
    | inf =>
      simp only [finishWait, PhaseResult.hold.injEq] at h
      exact ⟨rfl, h.symm⟩
    | polls k => cases h

/-- A phase holds only as `WAIT_RDY` under INF on the general device, and then only the answers move on. -/
theorem perform_hold {p : Phase} {s t : State} (h : perform p s = .hold t) :
    p = .waitRdy .inf ∧ s.cfg.device = .general ∧ Answered s t := by
  cases p with
  | select c =>
    simp only [perform, performSelect] at h
    split at h <;> cases h
  | deselect => exact absurd h ofEffect_not_hold
  | setWp v => cases h
  | cmd b => exact absurd h ofEffect_not_hold
  | addr l => exact absurd h ofEffect_not_hold
  | dout l => exact absurd h ofEffect_not_hold
  | din n =>
    simp only [perform, performDin] at h
    split at h
    · split at h <;> cases h
    · split at h
      · cases h
      · split at h <;> cases h
  | waitRdy b =>
    simp only [perform, performWaitRdy] at h
    split at h
    · cases h
    · next hg =>
      unfold waitGeneral at h
      split at h
      · split at h
        · next a ha =>
          obtain ⟨hb, rfl⟩ := finishWait_hold h
          exact ⟨by rw [hb], hg, answerWait_spec ha⟩
        · cases h
      · split at h
        · cases h
        · split at h
          · cases h
          · split at h
            · next a ha =>
              obtain ⟨hb, rfl⟩ := finishWait_hold h
              exact ⟨by rw [hb], hg, answerWait_spec ha⟩
            · cases h

end Sys2Proof.Machine
end

