-- ==== Sys2Proof/Laws/PerInstr.lean ====
section
/-! SUPPORT. Per instruction: its encoded word is one its row of spec/opcode_table.json admits. -/

namespace Sys2Proof.Laws.TableRow

/-- A row of the opcode table: how many bits it gives the instruction, which of them are fixed, and to what. -/
structure Row where
  width : Nat
  mask : Nat
  pattern : Nat
  deriving DecidableEq, Repr

/-- The row of each instruction, copied from the table. -/
def rowOf : Instr → Row
  | .identify _ => ⟨32, 0xF0FFFFFF, 0x10000000⟩
  | .eraseBlock _ _ => ⟨32, 0xF00000FF, 0x20000000⟩
  | .programPage _ _ _ => ⟨32, 0xF0000000, 0x30000000⟩
  | .readPage _ _ _ => ⟨32, 0xF0000000, 0x40000000⟩
  | .select _ => ⟨4, 0xF, 0x1⟩
  | .deselect => ⟨4, 0xF, 0x2⟩
  | .setWp _ => ⟨4, 0xF, 0x3⟩
  | .cmd _ => ⟨4, 0xF, 0x4⟩
  | .addr _ => ⟨4, 0xF, 0x5⟩
  | .dout _ => ⟨4, 0xF, 0x6⟩
  | .din _ => ⟨4, 0xF, 0x7⟩
  | .waitRdy _ => ⟨4, 0xF, 0x8⟩
  | .cmdReadId => ⟨8, 0xFF, 0x90⟩
  | .cmdReadSetup => ⟨8, 0xFF, 0x00⟩
  | .cmdReadConfirm => ⟨8, 0xFF, 0x30⟩
  | .cmdProgramSetup => ⟨8, 0xFF, 0x80⟩
  | .cmdProgramConfirm => ⟨8, 0xFF, 0x10⟩
  | .cmdEraseSetup => ⟨8, 0xFF, 0x60⟩
  | .cmdEraseConfirm => ⟨8, 0xFF, 0xD0⟩
  | .cmdReadStatus => ⟨8, 0xFF, 0x70⟩

/-- Whether a word has a row's width and fixed bits. A phase record's row gives its kind alone. -/
def Row.admits (r : Row) : Encoded → Prop
  | .request w => r.width = 32 ∧ w.toNat &&& r.mask = r.pattern
  | .phase p => r.width = 4 ∧ p.kind.toNat &&& r.mask = r.pattern
  | .command b => r.width = 8 ∧ b.toNat &&& r.mask = r.pattern

/-- An instruction's word, command bytes at their defaults, fits its row. -/
def Statement (i : Instr) : Prop := (rowOf i).admits (encode Config.tcfg i)

/-- Fixed bits of a request word, checked on the word. -/
theorem admits_request {w : BitVec 32} {mask pattern : BitVec 32} (h : w &&& mask = pattern) :
    Row.admits ⟨32, mask.toNat, pattern.toNat⟩ (.request w) :=
  ⟨rfl, by rw [← h]; exact (BitVec.toNat_and w mask).symm⟩

/-- The kind of a phase record, all of it fixed. -/
theorem admits_phase {p : PhaseRecord} {kind : BitVec 4} (h : p.kind = kind) :
    Row.admits ⟨4, 0xF, kind.toNat⟩ (.phase p) :=
  ⟨rfl, by rw [h]; exact congrArg BitVec.toNat (BitVec.and_allOnes (x := kind))⟩

/-- A command byte, all of it fixed. -/
theorem admits_command (b : Byte) : Row.admits ⟨8, 0xFF, b.toNat⟩ (.command b) :=
  ⟨rfl, congrArg BitVec.toNat (BitVec.and_allOnes (x := b))⟩

/-- Fixed bits of a packed request word, field by field. -/
theorem packWord_and (op cs o c : BitVec 4) (block b : BitVec 16) (page p : BitVec 8) :
    packWord op cs block page &&& packWord o c b p = packWord (op &&& o) (cs &&& c) (block &&& b) (page &&& p) := by
  unfold packWord
  rw [BitVec.and_append, BitVec.and_append, BitVec.and_append]

theorem identify (cs : BitVec 4) : Statement (.identify cs) :=
  admits_request (mask := packWord 0xF 0 0xFFFF 0xFF) (pattern := packWord 1 0 0 0) (by simp [packWord_and])

theorem eraseBlock (cs : BitVec 4) (block : BitVec 16) : Statement (.eraseBlock cs block) :=
  admits_request (mask := packWord 0xF 0 0 0xFF) (pattern := packWord 2 0 0 0) (by simp [packWord_and])

theorem programPage (cs : BitVec 4) (block : BitVec 16) (page : BitVec 8) : Statement (.programPage cs block page) :=
  admits_request (mask := packWord 0xF 0 0 0) (pattern := packWord 3 0 0 0) (by simp [packWord_and])

theorem readPage (cs : BitVec 4) (block : BitVec 16) (page : BitVec 8) : Statement (.readPage cs block page) :=
  admits_request (mask := packWord 0xF 0 0 0) (pattern := packWord 4 0 0 0) (by simp [packWord_and])

theorem select (c : BitVec 4) : Statement (.select c) := admits_phase rfl

theorem deselect : Statement .deselect := admits_phase rfl

theorem setWp (v : Bool) : Statement (.setWp v) := admits_phase rfl

theorem cmd (b : Byte) : Statement (.cmd b) := admits_phase rfl

theorem addr (l : List Byte) : Statement (.addr l) := admits_phase rfl

theorem dout (l : List Byte) : Statement (.dout l) := admits_phase rfl

theorem din (n : Nat) : Statement (.din n) := admits_phase rfl

theorem waitRdy (t : ReadyBound) : Statement (.waitRdy t) := admits_phase rfl

theorem cmdReadId : Statement .cmdReadId := admits_command _

theorem cmdReadSetup : Statement .cmdReadSetup := admits_command _

theorem cmdReadConfirm : Statement .cmdReadConfirm := admits_command _

theorem cmdProgramSetup : Statement .cmdProgramSetup := admits_command _

theorem cmdProgramConfirm : Statement .cmdProgramConfirm := admits_command _

theorem cmdEraseSetup : Statement .cmdEraseSetup := admits_command _

theorem cmdEraseConfirm : Statement .cmdEraseConfirm := admits_command _

theorem cmdReadStatus : Statement .cmdReadStatus := admits_command _

end Sys2Proof.Laws.TableRow
end

