-- ==== Sys2Proof/Laws/Requests.lean ====
section
/-! SUPPORT. What a step of a request in progress can do, said once for the four operations. -/

namespace Sys2Proof.Machine

/-- The phase list of the request in the latch (40_operations.md R121, R124, R127, R130). -/
def State.latchPhases (s : State) : List Phase :=
  match s.reqOp.toNat with
  | 1 => identifyPhases s.cfg s.reqCs
  | 2 => eraseBlockPhases s.cfg s.reqCs s.reqBlock
  | 3 => programPagePhases s.cfg s.reqCs s.reqBlock s.reqPage s.dbuf
  | 4 => readPagePhases s.cfg s.reqCs s.reqBlock s.reqPage
  | _ => []

/-- Where the request in the latch puts the bytes of its `DIN`. -/
def opStore (op : BitVec 4) : List Byte → State → State :=
  match op.toNat with
  | 1 => storeId
  | 2 => storeStatus
  | 3 => storeStatus
  | 4 => storePage
  | _ => storeNothing

/-- The cleanup path of the request in the latch. -/
def opPath (op : BitVec 4) : CleanupPath :=
  match op.toNat with
  | 2 => .protect
  | 3 => .protect
  | 4 => .deselect
  | _ => .never

/-- The response of the request in the latch. -/
def State.latchResp (s : State) : Resp :=
  match s.reqOp.toNat with
  | 1 => .id s.idbuf
  | 2 => .ok s.pass
  | 3 => .ok s.pass
  | 4 => .page s.dbuf
  | _ => .none

theorem latched_eq (s : State) : s.latched = decodeFields s.reqOp s.reqCs s.reqBlock s.reqPage :=
  decodeRequest_packWord _ _ _ _

/-- A latch that holds no request fails the first checks (60_exceptions.md R193). -/
theorem latched_error {s : State} {e : DecodeError} (h : s.latched = .error e) :
    s.latchCheck = some (.raise .reservedRequest) := by
  rw [latched_eq] at h
  have hop : ∀ k : BitVec 4, s.reqOp = k → s.reqOp.toNat = k.toNat := fun k h => by rw [h]
  unfold State.latchCheck requestCheck
  unfold decodeFields at h
  split at h
  · next h1 =>
    split at h
    · cases h
    · next hc =>
      have : s.reqOp = 1 := BitVec.eq_of_toNat_eq h1
      rw [if_neg (by simp [this]), if_pos ⟨this, by tauto⟩]
  · next h1 =>
    split at h
    · cases h
    · next hc =>
      have : s.reqOp = 2 := BitVec.eq_of_toNat_eq h1
      rw [if_neg (by simp [this]), if_neg (by simp [this]), if_pos ⟨this, hc⟩]
  · cases h
  · cases h
  · next h1 h2 h3 h4 =>
    rw [if_pos]
    rintro (hk | hk | hk | hk)
    · exact h1 (hop 1 hk)
    · exact h2 (hop 2 hk)
    · exact h3 (hop 3 hk)
    · exact h4 (hop 4 hk)

/-- One step of the request in the latch, the same for the four operations: the checks, then its phase list. -/
theorem runRequest_latched {s : State} {i : Instr} (h : s.latched = .ok i) :
    runRequest s = exec i s ∧
    exec i s = afterChecks s.latchCheck s
      (listStep s.latchPhases (opStore s.reqOp) (opPath s.reqOp) State.latchResp s) := by
  refine ⟨by simp [runRequest, h], ?_⟩
  have hl : ∀ (l : List Phase) st path (f g : State → Resp), f s = g s →
      listStep l st path f s = listStep l st path g s := by
    intro l st path f g hfg
    simp [listStep, hfg]
  rw [latched_eq] at h
  rcases decodeFields_ok h with ⟨ho, hb, hp, rfl⟩ | ⟨ho, hp, rfl⟩ | ⟨ho, rfl⟩ | ⟨ho, rfl⟩
  · simp only [exec, execIdentify, State.latchCheck, ho, hb, hp, State.latchPhases, opStore, opPath]
    exact congrArg _ (hl _ _ _ _ _ (by simp [State.latchResp, ho]))
  · simp only [exec, execEraseBlock, State.latchCheck, ho, hp, State.latchPhases, opStore, opPath]
    exact congrArg _ (hl _ _ _ _ _ (by simp [State.latchResp, ho]))
  · simp only [exec, execProgramPage, State.latchCheck, ho, State.latchPhases, opStore, opPath]
    exact congrArg _ (hl _ _ _ _ _ (by simp [State.latchResp, ho]))
  · simp only [exec, execReadPage, State.latchCheck, ho, State.latchPhases, opStore, opPath]
    exact congrArg _ (hl _ _ _ _ _ (by simp [State.latchResp, ho]))

/-! ### Inversions -/

/-- What the controller does with a phase's result. -/
theorem settle_next {store : List Byte → State → State} {path : CleanupPath} {r : PhaseResult} {t : State}
    (h : settle store path r = .next t) :
    (∃ s, r = .hold s ∧ t = s) ∨ (∃ s, r = .done .timeout s ∧ t = s.goto path.entry) ∨
    (∃ s, (r = .done .unit s ∨ r = .done .ready s) ∧ t = s.bumpPc) ∨
    (∃ l s, r = .done (.bytes l) s ∧ t = (store l s).bumpPc) := by
  cases r with
  | hold s => exact .inl ⟨s, rfl, by simpa [settle] using h.symm⟩
  | fault f => cases h
  | refused f => cases h
  | done c s =>
    cases c with
    | unit => exact .inr (.inr (.inl ⟨s, .inl rfl, by simpa [settle] using h.symm⟩))
    | ready => exact .inr (.inr (.inl ⟨s, .inr rfl, by simpa [settle] using h.symm⟩))
    | timeout => exact .inr (.inl ⟨s, rfl, by simpa [settle] using h.symm⟩)
    | bytes l => exact .inr (.inr (.inr ⟨l, s, rfl, by simpa [settle] using h.symm⟩))

theorem settle_fault {store : List Byte → State → State} {path : CleanupPath} {r : PhaseResult} {f : Fault}
    (h : settle store path r = .fault f) : r = .fault f := by
  cases r with
  | done c s => cases c <;> cases h
  | hold s => cases h
  | fault g => simpa [settle] using h
  | refused g => cases h

theorem settle_refused {store : List Byte → State → State} {path : CleanupPath} {r : PhaseResult} {f : Refusal}
    (h : settle store path r = .refused f) : r = .refused f := by
  cases r with
  | done c s => cases c <;> cases h
  | hold s => cases h
  | fault g => cases h
  | refused g => simpa [settle] using h

/-- A step of a phase list: a phase, the response, or a step of the cleanup path. -/
theorem listStep_cases {phases : List Phase} {store : List Byte → State → State} {path : CleanupPath}
    {finish : State → Resp} (s : State) :
    (∃ p, phases[s.phasePc.toNat]? = some p ∧
      listStep phases store path finish s = settle store path (perform p s)) ∨
    (s.phasePc.toNat = phases.length ∧ listStep phases store path finish s = .next (s.respond (finish s))) ∨
    (phases.length < s.phasePc.toNat ∧ listStep phases store path finish s = cleanupStep path s) := by
  unfold listStep
  split
  · next p hp => exact .inl ⟨p, hp, rfl⟩
  · next hp =>
    have := List.getElem?_eq_none_iff.mp hp
    split
    · next he => exact .inr (.inl ⟨he, rfl⟩)
    · next he => exact .inr (.inr ⟨by omega, rfl⟩)

/-- A step of a cleanup path (60_exceptions.md R196). -/
theorem cleanupStep_cases (path : CleanupPath) (s : State) :
    (path = .protect ∧ s.phasePc.toNat = 12 ∧
      cleanupStep path s = settle storeNothing path (perform (.setWp true) s)) ∨
    (path ≠ .never ∧ s.phasePc.toNat = 13 ∧
      cleanupStep path s = settle storeNothing path (perform .deselect s)) ∨
    (path ≠ .never ∧ s.phasePc.toNat = 14 ∧ cleanupStep path s = .next (s.raise .deviceTimeout)) ∨
    (cleanupStep path s = .fault .phaseCounter ∧
      ¬(path = .protect ∧ 12 ≤ s.phasePc.toNat ∧ s.phasePc.toNat ≤ 14) ∧
      ¬(path = .deselect ∧ 13 ≤ s.phasePc.toNat ∧ s.phasePc.toNat ≤ 14)) := by
  unfold cleanupStep
  split
  · next h => exact .inl ⟨rfl, h, rfl⟩
  · next h => exact .inr (.inl ⟨by simp, h, rfl⟩)
  · next h => exact .inr (.inr (.inl ⟨by simp, h, rfl⟩))
  · next h => exact .inr (.inl ⟨by simp, h, rfl⟩)
  · next h => exact .inr (.inr (.inl ⟨by simp, h, rfl⟩))
  · next h1 h2 h3 h4 h5 =>
    refine .inr (.inr (.inr ⟨rfl, ?_, ?_⟩))
    · rintro ⟨hp, ha, hb⟩
      have : s.phasePc.toNat = 12 ∨ s.phasePc.toNat = 13 ∨ s.phasePc.toNat = 14 := by omega
      rcases this with hk | hk | hk
      · exact h1 hp hk
      · exact h2 hp hk
      · exact h3 hp hk
    · rintro ⟨hp, ha, hb⟩
      have : s.phasePc.toNat = 13 ∨ s.phasePc.toNat = 14 := by omega
      rcases this with hk | hk
      · exact h4 hp hk
      · exact h5 hp hk

/-- Running on from a step that completes. -/
theorem stepN_next {n : Nat} {s t : State} (h : step s = .next t) : stepN (n + 1) s = stepN n t := by
  rw [stepN, h]

/-- What a step can be: the one inversion of `step`. -/
theorem step_cases (s : State) :
    (s.cfg.valid = false ∧ step s = .refused .badConfiguration) ∨
    (s.cfg.valid = true ∧ s.rst = true ∧ step s = .next s.applyReset) ∨
    (s.cfg.valid = true ∧ s.rst = false ∧ ∃ item rest, s.bench = item :: rest ∧
      step s = runBench item { s with bench := rest }) ∨
    (s.cfg.valid = true ∧ s.rst = false ∧ s.bench = [] ∧ s.ctl = .busy ∧ step s = runRequest s) ∨
    (s.cfg.valid = true ∧ s.rst = false ∧ s.bench = [] ∧ s.ctl = .idle ∧ step s = .next s.idleTurn) := by
  unfold step
  split
  · next hv =>
    split
    · next hr => exact .inr (.inl ⟨hv, hr, rfl⟩)
    · next hr =>
      have hr : s.rst = false := by simpa using hr
      split
      · next item rest hb => exact .inr (.inr (.inl ⟨hv, hr, item, rest, hb, rfl⟩))
      · next hb =>
        split
        · next hc => exact .inr (.inr (.inr (.inl ⟨hv, hr, hb, hc, rfl⟩)))
        · next hc => exact .inr (.inr (.inr (.inr ⟨hv, hr, hb, hc, rfl⟩)))
  · next hv => exact .inl ⟨by simpa using hv, rfl⟩

end Sys2Proof.Machine
end

