-- ==== Sys2Proof/Laws/PhaseLists.lean ====
section
/-! SUPPORT. The phase lists of 40_operations.md index by index: what a later proof needs of the phase at `phase_pc`. -/

namespace Sys2Proof.Machine

/-- What the phase list says of the phase at an index. -/
structure PhaseAt (cfg : Config) (op cs : BitVec 4) (k : Nat) (p : Phase) : Prop where
  next : k + 1 ≤ phaseCount op
  bound : k ≤ 10
  csSel : p.nextCsSel (if selectedAt op k = true then some cs else none) =
    if selectedAt op (k + 1) = true then some cs else none
  sel : selectedAt op (k + 1) = true → ∀ x, (selectedAt op k = true → x = some cs) → p.nextSel x = some cs
  wp : p.nextWp (!releasedAt op k) = !releasedAt op (k + 1)
  confirms : p.confirms cfg = true → (op = 2 ∧ k = 4) ∨ (op = 3 ∧ k = 5)
  readConfirms : ∀ b, p = .cmd b → nandCmdOf cfg b = some .readConfirm → op = 4 ∧ k = 3
  waits : p.waits = true → (op = 2 ∧ k = 5) ∨ (op = 3 ∧ k = 6) ∨ (op = 4 ∧ k = 4)
  wait : (op = 2 ∧ k = 5) ∨ (op = 3 ∧ k = 6) ∨ (op = 4 ∧ k = 4) → p = .waitRdy cfg.readyTimeout
  din : ∀ n, p = .din n → (op = 1 ∧ k = 3 ∧ n = cfg.idLen) ∨ (op = 2 ∧ k = 7 ∧ n = 1) ∨ (op = 3 ∧ k = 8 ∧ n = 1) ∨
    (op = 4 ∧ k = 5 ∧ n = cfg.fullPageSize)
  select : ∀ c, p = .select c → k = 0 ∧ c = cs
  first : k = 0 → p = .select cs
  selected : k ≠ 0 → selectedAt op k = true

theorem identifyPhases_at {cfg : Config} (cs : BitVec 4) {k : Nat} {p : Phase} (hn : cfg.commandList.Nodup)
    (h : (identifyPhases cfg cs)[k]? = some p) : PhaseAt cfg 1 cs k p := by
  have c0 := nandCmdOf_commandByte hn .readId
  simp only [Config.commandByte] at c0
  have hk : k < 5 := by
    have := (List.getElem?_eq_some_iff.mp h).1
    simpa [identifyPhases] using this
  interval_cases k <;>
    (simp only [identifyPhases, List.getElem?_cons_zero, List.getElem?_cons_succ, Option.some.injEq] at h
     subst h
     constructor <;>
       simp +decide [releasedAt, Phase.nextCsSel, Phase.nextWp, Phase.nextSel, Phase.waits, c0, Phase.confirms])

theorem eraseBlockPhases_at {cfg : Config} (cs : BitVec 4) (b : BitVec 16) {k : Nat} {p : Phase} (hn : cfg.commandList.Nodup)
    (h : (eraseBlockPhases cfg cs b)[k]? = some p) : PhaseAt cfg 2 cs k p := by
  have c0 := nandCmdOf_commandByte hn .eraseSetup
  have c1 := nandCmdOf_commandByte hn .eraseConfirm
  have c2 := nandCmdOf_commandByte hn .readStatus
  simp only [Config.commandByte] at c0 c1 c2
  have hk : k < 10 := by
    have := (List.getElem?_eq_some_iff.mp h).1
    simpa [eraseBlockPhases] using this
  interval_cases k <;>
    (simp only [eraseBlockPhases, List.getElem?_cons_zero, List.getElem?_cons_succ, Option.some.injEq] at h
     subst h
     constructor <;>
       simp +decide [releasedAt, Phase.nextCsSel, Phase.nextWp, Phase.nextSel, Phase.waits, c0, c1, c2, Phase.confirms])

theorem programPagePhases_at {cfg : Config} (cs : BitVec 4) (b : BitVec 16) (pg : BitVec 8) (l : List Byte) {k : Nat} {p : Phase} (hn : cfg.commandList.Nodup)
    (h : (programPagePhases cfg cs b pg l)[k]? = some p) : PhaseAt cfg 3 cs k p := by
  have c0 := nandCmdOf_commandByte hn .programSetup
  have c1 := nandCmdOf_commandByte hn .programConfirm
  have c2 := nandCmdOf_commandByte hn .readStatus
  simp only [Config.commandByte] at c0 c1 c2
  have hk : k < 11 := by
    have := (List.getElem?_eq_some_iff.mp h).1
    simpa [programPagePhases] using this
  interval_cases k <;>
    (simp only [programPagePhases, List.getElem?_cons_zero, List.getElem?_cons_succ, Option.some.injEq] at h
     subst h
     constructor <;>
       simp +decide [releasedAt, Phase.nextCsSel, Phase.nextWp, Phase.nextSel, Phase.waits, c0, c1, c2, Phase.confirms])

theorem readPagePhases_at {cfg : Config} (cs : BitVec 4) (b : BitVec 16) (pg : BitVec 8) {k : Nat} {p : Phase} (hn : cfg.commandList.Nodup)
    (h : (readPagePhases cfg cs b pg)[k]? = some p) : PhaseAt cfg 4 cs k p := by
  have c0 := nandCmdOf_commandByte hn .readSetup
  have c1 := nandCmdOf_commandByte hn .readConfirm
  simp only [Config.commandByte] at c0 c1
  have hk : k < 7 := by
    have := (List.getElem?_eq_some_iff.mp h).1
    simpa [readPagePhases] using this
  interval_cases k <;>
    (simp only [readPagePhases, List.getElem?_cons_zero, List.getElem?_cons_succ, Option.some.injEq] at h
     subst h
     constructor <;>
       simp +decide [releasedAt, Phase.nextCsSel, Phase.nextWp, Phase.nextSel, Phase.waits, c0, c1, Phase.confirms])

/-- The phase a request's list has at `phase_pc`. -/
theorem latchPhases_at {s : State} {p : Phase} (hn : s.cfg.commandList.Nodup)
    (h : s.latchPhases[s.phasePc.toNat]? = some p) : PhaseAt s.cfg s.reqOp s.reqCs s.phasePc.toNat p := by
  unfold State.latchPhases at h
  split at h
  · next ho => rw [show s.reqOp = 1 from BitVec.eq_of_toNat_eq ho]; exact identifyPhases_at _ hn h
  · next ho => rw [show s.reqOp = 2 from BitVec.eq_of_toNat_eq ho]; exact eraseBlockPhases_at _ _ hn h
  · next ho => rw [show s.reqOp = 3 from BitVec.eq_of_toNat_eq ho]; exact programPagePhases_at _ _ _ _ hn h
  · next ho => rw [show s.reqOp = 4 from BitVec.eq_of_toNat_eq ho]; exact readPagePhases_at _ _ _ hn h
  · simp at h

/-- Every operation's phase list has its length (40_operations.md R132). -/
theorem latchPhases_length {s : State} : s.latchPhases.length = phaseCount s.reqOp := by
  unfold State.latchPhases phaseCount
  split <;> simp_all [identifyPhases, eraseBlockPhases, programPagePhases, readPagePhases]

end Sys2Proof.Machine
end

