-- ==== Sys2Proof/Laws/Runs.lean ====
section
/-! SUPPORT. Steps and runs of a request in progress: one inversion of a busy controller's step, and each phase's result
in every state a request runs through. -/

namespace Sys2Proof.Machine

/-! ### What the checks leave -/

/-- The command bytes of a legal configuration are pairwise distinct (00_scope.md R10). -/
theorem valid_nodup {cfg : Config} (h : cfg.valid = true) : cfg.commandList.Nodup := by
  simp [Config.valid, Config.limits] at h
  exact h.2.2.2.2.2.2.2.2.2.2.2.2.2.2.1

/-- A latch that holds a request holds one of the four operations. -/
theorem latch_ok_op {s : State} {i : Instr} (h : s.latched = .ok i) :
    s.reqOp = 1 ∨ s.reqOp = 2 ∨ s.reqOp = 3 ∨ s.reqOp = 4 := by
  rw [latched_eq] at h
  rcases decodeFields_ok h with ⟨ho, _⟩ | ⟨ho, _⟩ | ⟨ho, _⟩ | ⟨ho, _⟩ <;> simp [ho]

/-- A request past its checks names a chip select there is (60_exceptions.md R193). -/
theorem checks_cs {s : State} (h : s.latchCheck = none) : s.reqCs.toNat < s.cfg.numCs := by
  unfold State.latchCheck requestCheck at h
  split at h <;> [skip; split at h <;> [skip; split at h <;> [skip; split at h <;> [skip; split at h <;> [skip; split at h]]]]] <;> simp_all [outOfRange]

/-- A request past its checks names a block there is (60_exceptions.md R193). -/
theorem checks_block {s : State} (h : s.latchCheck = none) (ho : s.reqOp = 2 ∨ s.reqOp = 3 ∨ s.reqOp = 4) :
    s.reqBlock.toNat < s.cfg.blocksPerCs := by
  unfold State.latchCheck requestCheck at h
  split at h <;> [skip; split at h <;> [skip; split at h <;> [skip; split at h <;> [skip; split at h <;> [skip; split at h]]]]] <;> simp_all [outOfRange]

/-- A request past its checks names a page there is (60_exceptions.md R193). -/
theorem checks_page {s : State} (h : s.latchCheck = none) (ho : s.reqOp = 3 ∨ s.reqOp = 4) :
    s.reqPage.toNat < s.cfg.pagesPerBlock := by
  unfold State.latchCheck requestCheck at h
  split at h <;> [skip; split at h <;> [skip; split at h <;> [skip; split at h <;> [skip; split at h <;> [skip; split at h]]]]] <;> simp_all [outOfRange]

/-- The fields of a latched IDENTIFY. -/
theorem latch_identify {s : State} {cs} (h : s.latched = .ok (.identify cs)) : s.reqOp = 1 ∧ s.reqCs = cs := by
  rw [latched_eq] at h
  rcases decodeFields_ok h with ⟨ho, _, _, e⟩ | ⟨_, _, e⟩ | ⟨_, e⟩ | ⟨_, e⟩ <;> cases e
  exact ⟨ho, rfl⟩

/-- The fields of a latched ERASE_BLOCK. -/
theorem latch_erase {s : State} {cs b} (h : s.latched = .ok (.eraseBlock cs b)) :
    s.reqOp = 2 ∧ s.reqCs = cs ∧ s.reqBlock = b ∧ s.reqPage = 0 := by
  rw [latched_eq] at h
  rcases decodeFields_ok h with ⟨ho, _, _, e⟩ | ⟨ho, h2, e⟩ | ⟨_, e⟩ | ⟨_, e⟩ <;> cases e
  exact ⟨ho, rfl, rfl, h2⟩

/-- The fields of a latched PROGRAM_PAGE. -/
theorem latch_program {s : State} {cs b p} (h : s.latched = .ok (.programPage cs b p)) :
    s.reqOp = 3 ∧ s.reqCs = cs ∧ s.reqBlock = b ∧ s.reqPage = p := by
  rw [latched_eq] at h
  rcases decodeFields_ok h with ⟨ho, _, _, e⟩ | ⟨ho, h2, e⟩ | ⟨ho, e⟩ | ⟨_, e⟩ <;> cases e
  exact ⟨ho, rfl, rfl, rfl⟩

/-- The fields of a latched READ_PAGE. -/
theorem latch_read {s : State} {cs b p} (h : s.latched = .ok (.readPage cs b p)) :
    s.reqOp = 4 ∧ s.reqCs = cs ∧ s.reqBlock = b ∧ s.reqPage = p := by
  rw [latched_eq] at h
  rcases decodeFields_ok h with ⟨ho, _, _, e⟩ | ⟨ho, h2, e⟩ | ⟨ho, e⟩ | ⟨ho, e⟩ <;> cases e
  exact ⟨ho, rfl, rfl, rfl⟩

/-- `phase_pc` as a number. -/
theorem pc_ne_zero {s : State} : s.phasePc ≠ 0 ↔ s.phasePc.toNat ≠ 0 := by
  constructor
  · intro h h'; exact h (BitVec.eq_of_toNat_eq h')
  · intro h h'; exact h (by rw [h']; rfl)

/-- `phase_pc` moves on without wrapping. -/
theorem toNat_succ {b : BitVec 4} (h : b.toNat ≤ 10) : (b + 1).toNat = b.toNat + 1 := by
  rw [BitVec.toNat_add]; simp; omega

/-- A program stores one page. -/
theorem programmed_length {cfg : Config} {d : Die} (h : d.pbuf.length = cfg.fullPageSize) (row : Nat) :
    (d.programmed cfg row).length = cfg.fullPageSize := by
  simp [Die.programmed, andBytes, List.length_zipWith, h]

/-- What a program stores in one byte (20_memory.md R68). -/
theorem programmed_get {cfg : Config} {d : Die} (h : d.pbuf.length = cfg.fullPageSize) (row k : Nat) (hk : k < cfg.fullPageSize)
    (h2 : k < (d.programmed cfg row).length) :
    (d.programmed cfg row)[k] = Memory.read d.image (row * cfg.fullPageSize + k) &&& d.pbuf.getD k 0xFF := by
  simp [Die.programmed, andBytes, List.getD_eq_getElem?_getD, List.getElem?_eq_getElem (show k < d.pbuf.length by omega)]

/-- A die changed in all but its image changes no byte of any image. -/
theorem sameImages_set {s t : State} {c : BitVec 4} {d d' : Die} (hd :
    s.dies[c.toNat]? = some d) (h : t.dies = s.dies.set c.toNat d')
    (hi : d'.image = d.image) : State.SameImages s t := by
  intro c' a
  unfold State.imageByte
  rw [h]
  by_cases hc : c.toNat = c'
  · subst hc; rw [List.getElem?_set_self (List.getElem?_eq_some_iff.mp hd).1, hd]; simp [hi]
  · rw [List.getElem?_set_ne hc]

/-- A die whose image is written at one place is as before elsewhere. -/
theorem imageByte_write {s t : State} {c : BitVec 4} {d d' : Die} {off : Nat} {l : List Byte} {c' a : Nat} (hd :
    s.dies[c.toNat]? = some d) (h : t.dies = s.dies.set c.toNat d')
    (hi : d'.image = Memory.writeBytes d.image off l) (hw : Memory.wf d.image = true) (ho : c' ≠ c.toNat ∨ a < off ∨ off + l.length ≤ a) :
    t.imageByte c' a = s.imageByte c' a := by
  unfold State.imageByte
  rw [h]
  by_cases hc : c.toNat = c'
  · subst hc; rw [List.getElem?_set_self (List.getElem?_eq_some_iff.mp hd).1, hd]; simp [hi]
    exact Memory.read_writeBytes_outside hw (by simpa using ho)
  · rw [List.getElem?_set_ne hc]

/-- A phase changes no die but the selected one. -/
theorem performed_others {p : Phase} {s t : State} {r : Completion} (h : Performed p s r t) :
    State.SameOtherDies s t := by
  rcases h.dies with h | ⟨c, d, d', hs, hd, h, _⟩
  · exact ⟨by rw [h], fun _ _ => by rw [h]⟩
  · refine ⟨by rw [h]; simp, fun c' hc => ?_⟩
    rw [hs] at hc; simp at hc
    rw [h, List.getElem?_set_ne hc]

/-- A phase that neither stores nor ends an array effect changes no byte of any image. -/
theorem performed_images {p : Phase} {s t : State} {r : Completion} (h : Performed p s r t)
    (h1 : s.storesIn p = false)
    (h2 : p.waits = true → ∀ (c : Nat) (d : Die), s.dies[c]? = some d → d.pend = none) : State.SameImages s t := by
  rcases h.dies with h | ⟨c, d, d', hs, hd, h, hc⟩
  · intro c a; unfold State.imageByte; rw [h]
  · refine sameImages_set hd h (hc.image h1 ?_)
    cases hw : p.waits
    · exact .inl rfl
    · exact .inr (h2 hw _ _ hd)

/-- A phase that may change the array is the confirm of a program or erase, or a read confirm whose die waits for one with
no address it can decode. -/
theorem storesIn_cases {s : State} {p : Phase} (h : s.storesIn p = true) : p.confirms s.cfg = true ∨
    ∃ b c d, p = .cmd b ∧ nandCmdOf s.cfg b = some .readConfirm ∧ s.sel = some c ∧ s.dies[c.toNat]? = some d ∧
      d.mode = .readSetup ∧ s.cfg.decodePage d.abuf = none := by
  cases p <;> simp only [State.storesIn, reduceCtorEq] at h
  next b =>
  cases hk : nandCmdOf s.cfg b with
  | none => simp [hk] at h
  | some k =>
  simp only [hk, Option.any_some, State.stores, Bool.or_eq_true, Bool.and_eq_true, decide_eq_true_eq] at h
  rcases h with h | ⟨rfl, h⟩
  · exact .inl (by simp [Phase.confirms, hk, h])
  · refine .inr ⟨b, ?_⟩
    unfold State.readsNowhere at h
    split at h
    · cases h
    · next c hs =>
      split at h
      · cases h
      · next d hd =>
        simp only [Bool.and_eq_true, decide_eq_true_eq, Option.isNone_iff_eq_none] at h
        exact ⟨c, d, rfl, hk, hs, hd, h.1, h.2⟩

/-! ### What the phases of a request latch -/

/-- A setup command leaves the selected die as its rule says. -/
theorem setup_die {s u : State} {r : Completion} {K : NandCmd} {g : Die → Die} {c : BitVec 4} {d' : Die}
    (hn : s.cfg.commandList.Nodup)
    (he : exec (Instr.ofNandCmd K) s = s.commandCycle (fun c d => s.setDie c (g d))) (hs : s.sel = some c)
    (h : perform (.cmd (s.cfg.commandByte K)) s = .done r u) (hd' : u.dies[c.toNat]? = some d') :
    ∃ d, s.dies[c.toNat]? = some d ∧ d' = g (d.disturbed s.cfg) := by
  obtain ⟨t, ht, -, rfl⟩ := ofEffect_done h
  rw [commandByteCycle_eq, nandCmdOf_commandByte hn] at ht
  simp only at ht
  rw [he] at ht
  rcases onSelected_next ht with ⟨hs', -⟩ | ⟨c', d, hs', hd, rfl⟩
  · rw [hs] at hs'; cases hs'
  · rw [hs] at hs'; cases hs'
    have : (s.dies.set c.toNat (g (d.disturbed s.cfg)))[c.toNat]? = some d' := hd'
    rw [List.getElem?_set_self (List.getElem?_eq_some_iff.mp hd).1] at this
    exact ⟨d, hd, (Option.some.inj this).symm⟩

/-- ADDR keeps the selected die's mode and appends its bytes. -/
theorem addr_die {s u : State} {r : Completion} {l : List Byte} {c : BitVec 4} {d' : Die} (hs : s.sel = some c)
    (h : perform (.addr l) s = .done r u) (hd' : u.dies[c.toNat]? = some d') :
    ∃ d, s.dies[c.toNat]? = some d ∧ d'.mode = d.mode ∧ d'.abuf = d.abuf ++ l := by
  obtain ⟨t, ht, -, rfl⟩ := ofEffect_done h
  rcases onSelected_next ht with ⟨hs', -⟩ | ⟨c', d, hs', hd, rfl⟩
  · rw [hs] at hs'; cases hs'
  · rw [hs] at hs'; cases hs'
    simp only [State.logPhase, State.setDie, List.getElem?_set_self (List.getElem?_eq_some_iff.mp hd).1,
      Option.some.injEq] at hd'
    subst hd'
    exact ⟨d, hd, by simp, by simp⟩

/-- DOUT in mode PROG with a full address keeps the selected die's mode and address bytes. -/
theorem dout_die {s u : State} {r : Completion} {l : List Byte} {c : BitVec 4} {d' : Die} (hs : s.sel = some c)
    (hm : ∀ d, s.dies[c.toNat]? = some d → d.mode = .prog ∧ d.abuf.length = s.cfg.colCycles + s.cfg.rowCycles)
    (h : perform (.dout l) s = .done r u) (hd' : u.dies[c.toNat]? = some d') :
    ∃ d, s.dies[c.toNat]? = some d ∧ d'.mode = d.mode ∧ d'.abuf = d.abuf := by
  obtain ⟨t, ht, -, rfl⟩ := ofEffect_done h
  rcases onSelected_next ht with ⟨hs', -⟩ | ⟨c', d, hs', hd, rfl⟩
  · rw [hs] at hs'; cases hs'
  · rw [hs] at hs'; cases hs'
    obtain ⟨h1, h2⟩ := hm d hd
    simp only [Die.disturbed_mode, Die.disturbed_abuf, h1, Config.decodeCol, h2, if_true, State.logPhase, State.setDie,
      List.getElem?_set_self (List.getElem?_eq_some_iff.mp hd).1, Option.some.injEq] at hd'
    subst hd'
    exact ⟨d, hd, by simp [h1], by simp⟩

/-- Address cycles are as many as asked for. -/
theorem leBytes_length (n v : Nat) : (leBytes n v).length = n := by
  induction n generalizing v with
  | zero => rfl
  | succ n ih => simp [leBytes, ih]

/-- Each phase of a list latches what its request needs: `latchAt` at one index gives it at the next. -/
theorem latchAt_next {s u : State} {p : Phase} {r : Completion} (hn : s.cfg.commandList.Nodup)
    (hp : s.latchPhases[s.phasePc.toNat]? = some p) (hu : perform p s = .done r u)
    (hs : s.phasePc.toNat ≠ 0 → s.sel = some s.reqCs)
    (hl : ∀ m a, latchAt s.cfg s.reqOp s.reqBlock s.reqPage s.phasePc.toNat = some (m, a) →
      ∀ d, s.dies[s.reqCs.toNat]? = some d → d.mode = m ∧ d.abuf = a) :
    ∀ m a, latchAt s.cfg s.reqOp s.reqBlock s.reqPage (s.phasePc.toNat + 1) = some (m, a) →
      ∀ d, u.dies[s.reqCs.toNat]? = some d → d.mode = m ∧ d.abuf = a := by
  intro m a hma d' hd'
  have viaAddr : ∀ {m : Mode} {l : List Byte}, s.sel = some s.reqCs →
      (∀ m' a', m = m' → [] = a' → ∀ d, s.dies[s.reqCs.toNat]? = some d → d.mode = m' ∧ d.abuf = a') →
      perform (.addr l) s = .done r u → d'.mode = m ∧ d'.abuf = l := by
    intro m l hs hl hu
    obtain ⟨d, hd, h1, h2⟩ := addr_die hs hu hd'
    simp [h1, h2, hl _ _ rfl rfl d hd]
  generalize s.phasePc.toNat = k at hp hs hl hma
  unfold latchAt at hma
  split at hma <;> rename_i ho hk <;> simp only [Option.some.injEq, Prod.mk.injEq, reduceCtorEq] at hma <;>
    obtain ⟨rfl, rfl⟩ := hma <;> simp only [Nat.reduceEqDiff] at hk <;> subst hk <;>
    simp only [State.latchPhases, ho, identifyPhases, eraseBlockPhases, programPagePhases, readPagePhases,
      List.getElem?_cons_zero, List.getElem?_cons_succ, Option.some.injEq] at hp <;> subst hp <;>
    have hs := hs (by decide) <;> simp only [latchAt, ho, Option.some.injEq, Prod.mk.injEq, and_imp] at hl
  · obtain ⟨d, -, rfl⟩ := setup_die (K := .readId) (g := fun d => { d with mode := .id, abuf := [], rptr := 0 }) hn rfl hs hu hd'
    exact ⟨rfl, rfl⟩
  · exact viaAddr hs hl hu
  · obtain ⟨d, -, rfl⟩ := setup_die (K := .eraseSetup) (g := fun d => { d with mode := .eraseSetup, abuf := [] }) hn rfl hs hu hd'
    exact ⟨rfl, rfl⟩
  · exact viaAddr hs hl hu
  · obtain ⟨d, -, rfl⟩ := setup_die (K := .programSetup) (g := fun d => { d with mode := .prog, abuf := [], pbuf := fill s.cfg.fullPageSize 0xFF }) hn rfl hs hu hd'
    exact ⟨rfl, rfl⟩
  · exact viaAddr hs hl hu
  · obtain ⟨d, hd, h1, h2⟩ := dout_die hs (fun d hd => by
      simp [hl _ _ rfl rfl d hd, Config.fullAddress, Config.colBytes, Config.rowBytes, leBytes_length]) hu hd'
    simp [h1, h2, hl _ _ rfl rfl d hd]
  · obtain ⟨d, -, rfl⟩ := setup_die (K := .readSetup) (g := fun d => { d with mode := .readSetup, abuf := [] }) hn rfl hs hu hd'
    exact ⟨rfl, rfl⟩
  · exact viaAddr hs hl hu

/-! ### A step of a busy controller -/

/-- What a step of a busy controller in a legal state can be: reset, a check that ends the request, a wait that holds, a
phase of the list, a wait that times out, the cleanup path, the response. -/
inductive BusyStep (s : State) : State → Prop
  | reset : s.rst = true → BusyStep s s.applyReset
  | checked (e) : s.phasePc = 0 → s.latchCheck = some e → BusyStep s (s.finishCheck e)
  | hold (l n) : (s.reqOp = 2 ∧ s.phasePc.toNat = 5) ∨ (s.reqOp = 3 ∧ s.phasePc.toNat = 6) ∨ (s.reqOp = 4 ∧ s.phasePc.toNat = 4) →
    BusyStep s { s with answers := l, draws := n }
  | phase (p r u l) : s.latchCheck = none → s.latchPhases[s.phasePc.toNat]? = some p → perform p s =
    .done r u → r ≠ .timeout →
      (r = .unit ∨ r = .ready ∨ r = .bytes l) →
    BusyStep s ((match r with | .bytes l => opStore s.reqOp l u | _ => u).bumpPc)
  | timeout (p u) : s.latchCheck = none → s.latchPhases[s.phasePc.toNat]? = some p → p.waits = true → perform p s =
    .done .timeout u → BusyStep s (u.goto (opPath s.reqOp).entry)
  | cleanWp (u) : (s.reqOp = 2 ∨ s.reqOp = 3) → s.phasePc.toNat = 12 → perform (.setWp true) s =
    .done .unit u → BusyStep s u.bumpPc
  | cleanDesel (u) : (s.reqOp = 2 ∨ s.reqOp = 3 ∨ s.reqOp = 4) → s.phasePc.toNat = 13 → perform .deselect s =
    .done .unit u → BusyStep s u.bumpPc
  | raised : (s.reqOp = 2 ∨ s.reqOp = 3 ∨ s.reqOp = 4) → s.phasePc.toNat = 14 → BusyStep s (s.raise .deviceTimeout)
  | respond : s.latchCheck = none → s.phasePc.toNat = phaseCount s.reqOp → BusyStep s (s.respond s.latchResp)

/-- The one inversion of a step of a busy controller. -/
theorem busyStep {s t : State} (hi : s.Inv) (hb : s.ctl = .busy) (h : step s = .next t) : BusyStep s t := by
  rcases step_cases s with ⟨hv, he⟩ | ⟨_, hr, he⟩ | ⟨_, _, it, rest, hbb, _⟩ | ⟨_, _, _, hc, he⟩ | ⟨_, _, _, hc, he⟩
  · rw [he] at h; cases h
  · rw [he] at h; cases h; exact .reset hr
  · rw [hi.bench] at hbb; cases hbb
  · rw [he] at h
    cases hl : s.latched with
    | error e =>
      simp [runRequest, hl] at h; subst h
      have h0 : s.phasePc = 0 := by
        by_contra h0
        have := hi.busyChecked hb h0
        rw [latched_error hl] at this; cases this
      exact .checked (.raise .reservedRequest) h0 (latched_error hl)
    | ok i =>
      have hop := latch_ok_op hl
      rw [(runRequest_latched hl).1, (runRequest_latched hl).2] at h
      unfold afterChecks at h
      by_cases hchk : s.latchCheck = none
      case neg =>
        obtain ⟨e, he⟩ := Option.ne_none_iff_exists'.mp hchk
        split at h
        · next h0 => rw [he] at h; cases h; exact .checked e h0 he
        · next h0 => exact absurd (hi.busyChecked hc h0) hchk
      case pos =>
        simp only [hchk, ite_self] at h
        rcases listStep_cases (phases := s.latchPhases) (store := opStore s.reqOp) (path := opPath s.reqOp)
          (finish := State.latchResp) s with ⟨p, hp, he⟩ | ⟨hk, he⟩ | ⟨hk, he⟩
        · rw [he] at h
          have A := latchPhases_at (valid_nodup hi.cfg) hp
          rcases settle_next h with ⟨u, hu, rfl⟩ | ⟨u, hu, rfl⟩ | ⟨u, hu, rfl⟩ | ⟨l, u, hu, rfl⟩
          · obtain ⟨hpw, _, l, n, rfl⟩ := perform_hold hu
            exact .hold _ _ (A.waits (by rw [hpw]; rfl))
          · have hcm := (perform_done hu).completes
            exact .timeout p u hchk hp (by cases p <;> simp [Phase.Completes] at hcm; rfl) hu
          · rcases hu with hu | hu
            · exact .phase p .unit u [] hchk hp hu (by simp) (.inl rfl)
            · exact .phase p .ready u [] hchk hp hu (by simp) (.inr (.inl rfl))
          · exact .phase p (.bytes l) u l hchk hp hu (by simp) (.inr (.inr rfl))
        · rw [he] at h; cases h
          rw [latchPhases_length] at hk
          exact .respond hchk hk
        · rw [he] at h
          have dn : ∀ p r u, perform p s = .done r u → p.Completes r := fun p r u hu => (perform_done hu).completes
          have hpath : ∀ x, opPath s.reqOp = x → x ≠ .never → s.reqOp = 2 ∨ s.reqOp = 3 ∨ s.reqOp = 4 := by
            rcases hop with ho | ho | ho | ho <;> simp [ho, opPath]
          rcases cleanupStep_cases (opPath s.reqOp) s with ⟨hpa, hpc, he⟩ | ⟨hpa, hpc, he⟩ | ⟨hpa, hpc, he⟩ | ⟨he, h1, h2⟩
          · rw [he] at h
            have ho : s.reqOp = 2 ∨ s.reqOp = 3 := by
              rcases hop with ho | ho | ho | ho <;> simp [ho, opPath] at hpa ⊢
            rcases settle_next h with ⟨u, hu, rfl⟩ | ⟨u, hu, rfl⟩ | ⟨u, hu, rfl⟩ | ⟨l, u, hu, rfl⟩
            · cases (perform_hold hu).1
            · cases dn _ _ _ hu
            · rcases hu with hu | hu
              · exact .cleanWp u ho hpc hu
              · cases dn _ _ _ hu
            · cases dn _ _ _ hu
          · rw [he] at h
            rcases settle_next h with ⟨u, hu, rfl⟩ | ⟨u, hu, rfl⟩ | ⟨u, hu, rfl⟩ | ⟨l, u, hu, rfl⟩
            · cases (perform_hold hu).1
            · cases dn _ _ _ hu
            · rcases hu with hu | hu
              · exact .cleanDesel u (hpath _ rfl hpa) hpc hu
              · cases dn _ _ _ hu
            · cases dn _ _ _ hu
          · rw [he] at h; cases h
            exact .raised (hpath _ rfl hpa) hpc
          · rw [he] at h; cases h
  · rw [hb] at hc; cases hc

/-! ### The states inside a request -/

/-- Every state a request started at `s` runs through while its die is selected. -/
def inRequest (s : State) (c : BitVec 4) (k : BitVec 4) (wa w : Bool) (D : Die) (tr : List TraceEntry) (db id : List Byte) (st : Byte) (n : Nat) (ans : List Answer) : State :=
  { s with phasePc := k, csSel := some c, sel := some c, wpAsserted := wa, wp := w, dies := s.dies.set c.toNat D, trace := s.trace ++ tr, dbuf := db, idbuf := id, statusReg := st, draws := n, answers := ans }

section

variable {s : State} {i : Instr} {c k : BitVec 4} {wa w : Bool} {D : Die} {tr : List TraceEntry} {db id : List Byte}
  {st : Byte} {n : Nat} {ans : List Answer}

/-- A step inside a request performs the phase its list has at `phase_pc`. -/
theorem inRequest_step (h : s.Starts i) {p : Phase} (hp :
    (inRequest s c k wa w D tr db id st n ans).latchPhases[k.toNat]? = some p) :
    step (inRequest s c k wa w D tr db id st n ans) =
    settle (opStore s.reqOp) (opPath s.reqOp) (perform p (inRequest s c k wa w D tr db id st n ans)) := by
  have hv := h.inv.cfg
  have e1 : step (inRequest s c k wa w D tr db id st n ans) = runRequest (inRequest s c k wa w D tr db id st n ans) := by
    unfold step
    rw [if_pos (show (inRequest s c k wa w D tr db id st n ans).cfg.valid = true from hv), if_neg (by change ¬ (s.rst = true); rw [h.rst]; decide)]
    have hb : (inRequest s c k wa w D tr db id st n ans).bench = [] := h.inv.bench
    have hc : (inRequest s c k wa w D tr db id st n ans).ctl = .busy := h.busy
    rw [hb]; simp only [hc]
  have hl : (inRequest s c k wa w D tr db id st n ans).latched = .ok i := h.latch
  have hch : (inRequest s c k wa w D tr db id st n ans).latchCheck = none := h.checked
  rw [e1, (runRequest_latched hl).1, (runRequest_latched hl).2]
  unfold afterChecks
  rw [hch]
  simp only [ite_self]
  unfold listStep
  have : (inRequest s c k wa w D tr db id st n ans).phasePc = k := rfl
  rw [this, hp]
  rfl

/-- The last step of a request responds. -/
theorem inRequest_end (h : s.Starts i) (hk : k.toNat = phaseCount s.reqOp) :
    step { inRequest s c k wa w D tr db id st n ans with csSel := none, sel := none } = .next (State.respond { inRequest s c k wa w D tr db id st n ans with csSel := none, sel := none } (State.latchResp { inRequest s c k wa w D tr db id st n ans with csSel := none, sel := none })) := by
  generalize hu : { inRequest s c k wa w D tr db id st n ans with csSel := none, sel := none } = u
  have hl : u.latched = .ok i := by rw [← hu]; exact h.latch
  have hch : u.latchCheck = none := by rw [← hu]; exact h.checked
  have e1 : step u = runRequest u := by
    have hv : u.cfg.valid = true := by rw [← hu]; exact h.inv.cfg
    have hr : u.rst = false := by rw [← hu]; exact h.rst
    have hb : u.bench = [] := by rw [← hu]; exact h.inv.bench
    have hc : u.ctl = .busy := by rw [← hu]; exact h.busy
    simp [step, hv, hr, hb, hc]
  rw [e1, (runRequest_latched hl).1, (runRequest_latched hl).2]
  unfold afterChecks
  rw [hch]
  simp only [ite_self]
  have hlen : u.latchPhases.length = k.toNat := by rw [latchPhases_length, hk, ← hu]; rfl
  have hpc : u.phasePc = k := by rw [← hu]; rfl
  unfold listStep
  rw [hpc, List.getElem?_eq_none (by omega)]
  simp only [if_pos hlen.symm]

theorem inRequest_die (hc : c.toNat < s.dies.length) :
    (inRequest s c k wa w D tr db id st n ans).dies[c.toNat]? = some D := by
  simp [inRequest, List.getElem?_set_self hc]

theorem inRequest_setDie {D' : Die} :
    (inRequest s c k wa w D tr db id st n ans).setDie c D' = inRequest s c k wa w D' tr db id st n ans := by
  simp [inRequest, State.setDie]

/-- A command phase inside a request is the command cycle of its byte. -/
theorem inRequest_cmd (hc : c.toNat < s.dies.length) (hn : s.cfg.commandList.Nodup) (K : NandCmd) {f : BitVec 4 → Die → State} {D' : Die} {n' : Nat}
    (he : exec (Instr.ofNandCmd K) (inRequest s c k wa w D tr db id st n ans) = (inRequest s c k wa w D tr db id st n ans).commandCycle f)
    (hf : f c (D.disturbed s.cfg) = inRequest s c k wa w D' tr db id st n' ans) :
    perform (.cmd (s.cfg.commandByte K)) (inRequest s c k wa w D tr db id st n ans) =
    .done .unit (inRequest s c k wa w D' (tr ++ [⟨.cmd (s.cfg.commandByte K), .unit⟩]) db id st n' ans) := by
  have : commandByteCycle (s.cfg.commandByte K) (inRequest s c k wa w D tr db id st n ans) = .next (inRequest s c k wa w D' tr db id st n' ans) := by
    rw [commandByteCycle_eq]
    rw [show (inRequest s c k wa w D tr db id st n ans).cfg = s.cfg from rfl, nandCmdOf_commandByte hn]
    simp only
    rw [he]
    unfold State.commandCycle
    rw [onSelected_some rfl (inRequest_die hc)]
    rw [← hf]; rfl
  simp only [perform, performCmd, this, PhaseResult.ofEffect]
  simp [State.logPhase, inRequest]

theorem inRequest_setWp {v : Bool} :
    perform (.setWp v) (inRequest s c k wa w D tr db id st n ans) =
    .done .unit (inRequest s c k v v D (tr ++ [⟨.setWp v, .unit⟩]) db id st n ans) := by
  simp [perform, performSetWp, PhaseResult.ofEffect, State.logPhase, inRequest]

theorem inRequest_desel (hc : c.toNat < s.dies.length) :
    perform .deselect (inRequest s c k wa w D tr db id st n ans) =
    .done .unit { inRequest s c k wa w { D with mode := .idle, abuf := [] } (tr ++ [⟨.deselect, .unit⟩]) db id st n ans with csSel := none, sel := none } := by
  simp [perform, performDeselect, PhaseResult.ofEffect, State.logPhase, inRequest, State.onSelected, hc, State.setDie]

theorem inRequest_addr (hc : c.toNat < s.dies.length) {l : List Byte} (hd : D.disturbed s.cfg = D) :
    perform (.addr l) (inRequest s c k wa w D tr db id st n ans) =
    .done .unit (inRequest s c k wa w { D with abuf := D.abuf ++ l } (tr ++ [⟨.addr l, .unit⟩]) db id st n ans) := by
  simp [perform, performAddr, PhaseResult.ofEffect, State.logPhase, inRequest, State.onSelected, hc, State.setDie, hd]

theorem inRequest_dout (hc : c.toNat < s.dies.length) {l : List Byte} {col : Nat} (hd : D.disturbed s.cfg = D) (hm : D.mode = .prog) (ha : s.cfg.decodeCol D.abuf = some col) :
    perform (.dout l) (inRequest s c k wa w D tr db id st n ans) =
    .done .unit (inRequest s c k wa w { D with pbuf := storeColumns D.pbuf col l } (tr ++ [⟨.dout l, .unit⟩]) db id st n ans) := by
  simp [perform, performDout, PhaseResult.ofEffect, State.logPhase, inRequest, State.onSelected, hc, State.setDie, hd, hm, ha]

theorem inRequest_wait_ref (hr : s.cfg.device = .reference) {b : ReadyBound} :
    perform (.waitRdy b) (inRequest s c k wa w D tr db id st n ans) =
    .done .ready (inRequest s c k wa w D (tr ++ [⟨.waitRdy b, .ready⟩]) db id st n ans) := by
  simp [perform, performWaitRdy, inRequest, hr, State.logPhase]

theorem inRequest_wait_gen (hc : c.toNat < s.dies.length) (hg : s.cfg.device = .general) {b : ReadyBound} {sb : Byte} {rest} (hb : D.busy = true) :
    perform (.waitRdy b) (inRequest s c k wa w D tr db id st n (.ready sb :: rest)) =
    .done .ready (inRequest s c k wa w (D.becomeReady s.cfg sb) (tr ++ [⟨.waitRdy b, .ready⟩]) db id st n rest) := by
  simp [perform, performWaitRdy, inRequest, hg, State.logPhase, waitGeneral, hc, hb, State.answerWait, finishWait, State.setDie]

theorem inRequest_din (hc : c.toNat < s.dies.length) {m : Nat} {l : List Byte} (hd : D.disturbed s.cfg = D)
    (hl : (s.cfg.device = .reference ∧ D.knownBytes s.cfg m = l) ∨ (s.cfg.device = .general ∧ D.lawBytes m = some l)) (hlen : l.length = m) :
    perform (.din m) (inRequest s c k wa w D tr db id st n ans) =
    .done (.bytes l) (inRequest s c k wa w (D.afterDin m) (tr ++ [⟨.din m, .bytes l⟩]) db id st n ans) := by
  rcases hl with ⟨h1, h2⟩ | ⟨h1, h2⟩ <;>
  simp [perform, performDin, inRequest, hc, hd, State.dieBytes, h1, h2, hlen, State.padFree, State.drew, freeBytes, State.setDie, State.logPhase]

/-- A wait on a busy general die that is answered READY, supplied from outside or free. -/
theorem inRequest_wait_ready (hc : c.toNat < s.dies.length) (hg : s.cfg.device = .general) {b : ReadyBound}
    (hb : D.busy = true) (ha : (inRequest s c k wa w D tr db id st n ans).WaitAnswersReady) :
    ∃ sb n' ans', perform (.waitRdy b) (inRequest s c k wa w D tr db id st n ans) =
      .done .ready (inRequest s c k wa w (D.becomeReady s.cfg sb) (tr ++ [⟨.waitRdy b, .ready⟩]) db id st n' ans') := by
  obtain ⟨sb, l, m, h⟩ := ha.answerWait
  refine ⟨sb, m, l, ?_⟩
  simp only [perform, performWaitRdy, show (inRequest s c k wa w D tr db id st n ans).cfg.device = .general from hg,
    waitGeneral, h]
  simp [inRequest, hc, hb, finishWait, State.setDie, State.logPhase]

/-- A `DIN` of a general die whose bytes no law fixes: those supplied from outside, or free ones. -/
theorem inRequest_din_drawn (hc : c.toNat < s.dies.length) {m : Nat} {l : List Byte} (hd : D.disturbed s.cfg = D)
    (hg : s.cfg.device = .general) (hl : D.lawBytes m = none)
    (ha : (∃ rest, ans = .bytes l :: rest ∧ l.length = m) ∨ (ans = [] ∧ l = freeBytes n m)) :
    ∃ n' ans', perform (.din m) (inRequest s c k wa w D tr db id st n ans) =
      .done (.bytes l) (inRequest s c k wa w (D.afterDin m) (tr ++ [⟨.din m, .bytes l⟩]) db id st n' ans') := by
  rcases ha with ⟨rest, rfl, hlen⟩ | ⟨rfl, rfl⟩
  · exact ⟨n, rest, by simp [perform, performDin, inRequest, hc, hd, State.dieBytes, hg, hl, hlen, State.answerBytes,
      State.setDie, State.logPhase]⟩
  · exact ⟨n + m, [], by simp [perform, performDin, inRequest, hc, hd, State.dieBytes, hg, hl, State.answerBytes,
      State.drew, State.setDie, State.logPhase]⟩

theorem inRequest_simple (hc : c.toNat < s.dies.length) (hn : s.cfg.commandList.Nodup) (K : NandCmd) (g : Die → Die)
    (hd : D.disturbed s.cfg = D)
    (he : exec (Instr.ofNandCmd K) (inRequest s c k wa w D tr db id st n ans) = (inRequest s c k wa w D tr db id st n ans).commandCycle (fun c d => (inRequest s c k wa w D tr db id st n ans).setDie c (g d)))
    : perform (.cmd (s.cfg.commandByte K)) (inRequest s c k wa w D tr db id st n ans) =
    .done .unit (inRequest s c k wa w (g D) (tr ++ [⟨.cmd (s.cfg.commandByte K), .unit⟩]) db id st n ans) :=
  inRequest_cmd hc hn K (f := fun c d => (inRequest s c k wa w D tr db id st n ans).setDie c (g d)) he (by rw [hd]; exact inRequest_setDie)

theorem inRequest_readId (hc : c.toNat < s.dies.length) (hn : s.cfg.commandList.Nodup) (hd : D.disturbed s.cfg = D) :
    perform (.cmd s.cfg.cmds.readId) (inRequest s c k wa w D tr db id st n ans) =
    .done .unit (inRequest s c k wa w { D with mode := .id, abuf := [], rptr := 0 } (tr ++ [⟨.cmd s.cfg.cmds.readId, .unit⟩]) db id st n ans) :=
  inRequest_simple hc hn .readId (fun d => { d with mode := .id, abuf := [], rptr := 0 }) hd rfl

/-- `CMD_READ_ID` on any die, busy or not. -/
theorem inRequest_readId_any (hc : c.toNat < s.dies.length) (hn : s.cfg.commandList.Nodup) :
    perform (.cmd s.cfg.cmds.readId) (inRequest s c k wa w D tr db id st n ans) =
    .done .unit (inRequest s c k wa w { D.disturbed s.cfg with mode := .id, abuf := [], rptr := 0 }
      (tr ++ [⟨.cmd s.cfg.cmds.readId, .unit⟩]) db id st n ans) :=
  inRequest_cmd hc hn .readId
    (f := fun c d => (inRequest s c k wa w D tr db id st n ans).setDie c { d with mode := .id, abuf := [], rptr := 0 })
    rfl inRequest_setDie

theorem inRequest_readSetup (hc : c.toNat < s.dies.length) (hn : s.cfg.commandList.Nodup)
    (hd : D.disturbed s.cfg = D) :
    perform (.cmd s.cfg.cmds.readSetup) (inRequest s c k wa w D tr db id st n ans) =
    .done .unit (inRequest s c k wa w { D with mode := .readSetup, abuf := [] } (tr ++ [⟨.cmd s.cfg.cmds.readSetup, .unit⟩]) db id st n ans) :=
  inRequest_simple hc hn .readSetup (fun d => { d with mode := .readSetup, abuf := [] }) hd rfl

theorem inRequest_programSetup (hc : c.toNat < s.dies.length) (hn : s.cfg.commandList.Nodup)
    (hd : D.disturbed s.cfg = D) :
    perform (.cmd s.cfg.cmds.programSetup) (inRequest s c k wa w D tr db id st n ans) =
    .done .unit (inRequest s c k wa w { D with mode := .prog, abuf := [], pbuf := fill s.cfg.fullPageSize 0xFF } (tr ++ [⟨.cmd s.cfg.cmds.programSetup, .unit⟩]) db id st n ans) :=
  inRequest_simple hc hn .programSetup (fun d => { d with mode := .prog, abuf := [], pbuf := fill s.cfg.fullPageSize 0xFF }) hd rfl

theorem inRequest_eraseSetup (hc : c.toNat < s.dies.length) (hn : s.cfg.commandList.Nodup)
    (hd : D.disturbed s.cfg = D) :
    perform (.cmd s.cfg.cmds.eraseSetup) (inRequest s c k wa w D tr db id st n ans) =
    .done .unit (inRequest s c k wa w { D with mode := .eraseSetup, abuf := [] } (tr ++ [⟨.cmd s.cfg.cmds.eraseSetup, .unit⟩]) db id st n ans) :=
  inRequest_simple hc hn .eraseSetup (fun d => { d with mode := .eraseSetup, abuf := [] }) hd rfl

theorem inRequest_readStatus (hc : c.toNat < s.dies.length) (hn : s.cfg.commandList.Nodup)
    (hd : D.disturbed s.cfg = D) :
    perform (.cmd s.cfg.cmds.readStatus) (inRequest s c k wa w D tr db id st n ans) =
    .done .unit (inRequest s c k wa w { D with mode := .status, status := statusByte w D.fail } (tr ++ [⟨.cmd s.cfg.cmds.readStatus, .unit⟩]) db id st n ans) :=
  inRequest_simple hc hn .readStatus (fun d => { d with mode := .status, status := statusByte w d.fail }) hd rfl

theorem inRequest_confirm (hc : c.toNat < s.dies.length) (hn : s.cfg.commandList.Nodup) (K : NandCmd) {f : BitVec 4 → Die → State} {D' : Die} {n' : Nat}
    (hd : D.disturbed s.cfg = D)
    (he : exec (Instr.ofNandCmd K) (inRequest s c k wa w D tr db id st n ans) = (inRequest s c k wa w D tr db id st n ans).commandCycle f)
    (hf : f c D = inRequest s c k wa w D' tr db id st n' ans) :
    perform (.cmd (s.cfg.commandByte K)) (inRequest s c k wa w D tr db id st n ans) =
    .done .unit (inRequest s c k wa w D' (tr ++ [⟨.cmd (s.cfg.commandByte K), .unit⟩]) db id st n' ans) :=
  inRequest_cmd hc hn K he (by rw [hd]; exact hf)

theorem inRequest_readConfirm (hc : c.toNat < s.dies.length) (hn : s.cfg.commandList.Nodup)
    (hd : D.disturbed s.cfg = D) {col row : Nat}
    (hm : D.mode = .readSetup) (ha : s.cfg.decodePage D.abuf = some (col, row)) :
    perform (.cmd s.cfg.cmds.readConfirm) (inRequest s c k wa w D tr db id st n ans) =
    .done .unit (inRequest s c k wa w (D.loadPage s.cfg col row) (tr ++ [⟨.cmd s.cfg.cmds.readConfirm, .unit⟩]) db id st n ans) := by
  refine inRequest_confirm hc hn .readConfirm hd (by simp only [Instr.ofNandCmd, exec, execCmdReadConfirm]; rfl) ?_
  rw [show (inRequest s c k wa w D tr db id st n ans).cfg = s.cfg from rfl]
  simp only [hm, if_true, ha]; exact inRequest_setDie

theorem inRequest_programConfirm_ref (hc : c.toNat < s.dies.length) (hn : s.cfg.commandList.Nodup)
    (hr : s.cfg.device = .reference) {col row : Nat}
    (hm : D.mode = .prog) (ha : s.cfg.decodePage D.abuf = some (col, row)) {fails : Bool}
    (hf : fails = s.cfg.injected c (row / s.cfg.pagesPerBlock) .program) :
    perform (.cmd s.cfg.cmds.programConfirm) (inRequest s c k wa false D tr db id st n ans) =
    .done .unit (inRequest s c k wa false (if fails = true then D.finish false true else
      Die.finish { D with image := Memory.writeBytes D.image (row * s.cfg.fullPageSize) (D.programmed s.cfg row) } false false) (tr ++ [⟨.cmd s.cfg.cmds.programConfirm, .unit⟩]) db id st n ans) := by
  refine inRequest_confirm hc hn .programConfirm (Die.disturbed_reference D hr) (by simp only [Instr.ofNandCmd, exec, execCmdProgramConfirm]; rfl) ?_
  rw [show (inRequest s c k wa false D tr db id st n ans).cfg = s.cfg from rfl]
  simp only [hm, if_true, ha, hr]
  unfold State.programReference
  rw [show (inRequest s c k wa false D tr db id st n ans).wp = false from rfl, show (inRequest s c k wa false D tr db id st n ans).cfg = s.cfg from rfl, ← hf]
  cases fails <;> simp [inRequest_setDie, hm]

theorem inRequest_eraseConfirm_ref (hc : c.toNat < s.dies.length) (hn : s.cfg.commandList.Nodup)
    (hr : s.cfg.device = .reference) {block : Nat}
    (hm : D.mode = .eraseSetup) (ha : s.cfg.decodeBlock D.abuf = some block) {fails : Bool}
    (hf : fails = s.cfg.injected c block .erase) :
    perform (.cmd s.cfg.cmds.eraseConfirm) (inRequest s c k wa false D tr db id st n ans) =
    .done .unit (inRequest s c k wa false (if fails = true then D.finish false true else
      Die.finish { D with image := Memory.writeBytes D.image (block * s.cfg.blockSize) (fill s.cfg.blockSize 0xFF) } false false) (tr ++ [⟨.cmd s.cfg.cmds.eraseConfirm, .unit⟩]) db id st n ans) := by
  refine inRequest_confirm hc hn .eraseConfirm (Die.disturbed_reference D hr) (by simp only [Instr.ofNandCmd, exec, execCmdEraseConfirm]; rfl) ?_
  rw [show (inRequest s c k wa false D tr db id st n ans).cfg = s.cfg from rfl]
  simp only [hm, if_true, ha, hr]
  unfold State.eraseReference
  rw [show (inRequest s c k wa false D tr db id st n ans).wp = false from rfl, show (inRequest s c k wa false D tr db id st n ans).cfg = s.cfg from rfl, ← hf]
  cases fails <;> simp [inRequest_setDie, hm]

/-- A general die starts its operation. -/
theorem inRequest_start {off bytes} (hu : D.unknown = false) :
    (inRequest s c k wa w D tr db id st n ans).startOperation c D off bytes =
    inRequest s c k wa w { D with
      image := Memory.writeBytes D.image off (freeBytes n bytes.length)
      mode := .idle
      busy := true
      pend := some ⟨off, bytes⟩
      latched := none } tr db id st (n + bytes.length) ans := by
  simp [State.startOperation, inRequest, hu, State.setDie, State.drew]

theorem inRequest_programConfirm_gen (hc : c.toNat < s.dies.length) (hn : s.cfg.commandList.Nodup) (hr : s.cfg.device = .general) (hb : D.busy = false)
    (hu : D.unknown = false) {col row : Nat}
    (hm : D.mode = .prog) (ha : s.cfg.decodePage D.abuf = some (col, row)) :
    perform (.cmd s.cfg.cmds.programConfirm) (inRequest s c k wa w D tr db id st n ans) =
    .done .unit (inRequest s c k wa w { D with
      image := Memory.writeBytes D.image (row * s.cfg.fullPageSize) (freeBytes n (D.programmed s.cfg row).length)
      mode := .idle
      busy := true
      pend := some ⟨row * s.cfg.fullPageSize, D.programmed s.cfg row⟩
      latched := none } (tr ++ [⟨.cmd s.cfg.cmds.programConfirm, .unit⟩]) db id st (n + (D.programmed s.cfg row).length) ans) := by
  refine inRequest_confirm hc hn .programConfirm (Die.disturbed_ready hb) (by simp only [Instr.ofNandCmd, exec, execCmdProgramConfirm]; rfl) ?_
  rw [show (inRequest s c k wa w D tr db id st n ans).cfg = s.cfg from rfl]
  simp only [hm, if_true, ha, hr]
  exact inRequest_start hu

theorem inRequest_eraseConfirm_gen (hc : c.toNat < s.dies.length) (hn : s.cfg.commandList.Nodup) (hr : s.cfg.device = .general) (hb : D.busy = false)
    (hu : D.unknown = false) {block : Nat}
    (hm : D.mode = .eraseSetup) (ha : s.cfg.decodeBlock D.abuf = some block) :
    perform (.cmd s.cfg.cmds.eraseConfirm) (inRequest s c k wa w D tr db id st n ans) =
    .done .unit (inRequest s c k wa w { D with
      image := Memory.writeBytes D.image (block * s.cfg.blockSize) (freeBytes n s.cfg.blockSize)
      mode := .idle
      busy := true
      pend := some ⟨block * s.cfg.blockSize, fill s.cfg.blockSize 0xFF⟩
      latched := none } (tr ++ [⟨.cmd s.cfg.cmds.eraseConfirm, .unit⟩]) db id st (n + s.cfg.blockSize) ans) := by
  refine inRequest_confirm hc hn .eraseConfirm (Die.disturbed_ready hb) (by simp only [Instr.ofNandCmd, exec, execCmdEraseConfirm]; rfl) ?_
  rw [show (inRequest s c k wa w D tr db id st n ans).cfg = s.cfg from rfl]
  simp only [hm, if_true, ha, hr]
  rw [inRequest_start hu]; simp

end

/-! ### Runs -/

/-- The die of a request past its checks is there. -/
theorem starts_die {s : State} {i : Instr}
    (h : s.Starts i) : ∃ d, s.dies[s.reqCs.toNat]? = some d ∧ s.reqCs.toNat < s.dies.length := by
  have := checks_cs h.checked
  rw [← h.inv.dies] at this
  exact ⟨_, List.getElem?_eq_getElem this, this⟩

/-- The first phase of a request selects its die. -/
theorem start_step {s : State} {i : Instr} (h : s.Starts i) {d : Die} (hd : s.dies[s.reqCs.toNat]? = some d) :
    step s = .next (inRequest s s.reqCs 1 true s.wp d [⟨.select s.reqCs, .unit⟩] s.dbuf s.idbuf s.statusReg s.draws s.answers) := by
  have hv := h.inv.cfg
  have e1 : step s = runRequest s := by simp [step, hv, h.rst, h.inv.bench, h.busy]
  rw [e1, (runRequest_latched h.latch).1, (runRequest_latched h.latch).2]
  unfold afterChecks
  rw [h.checked]
  simp only [ite_self]
  have hop := latch_ok_op h.latch
  have hp : s.latchPhases[s.phasePc.toNat]? = some (.select s.reqCs) := by
    rw [h.pc]
    rcases hop with h | h | h | h <;> simp [State.latchPhases, h, identifyPhases, eraseBlockPhases, programPagePhases, readPagePhases]
  unfold listStep
  rw [hp]
  have hcs := checks_cs h.checked
  have hw : s.wpAsserted = true := by
    have := h.inv.busyWp h.busy
    rw [h.pc] at this
    rw [this]; unfold releasedAt; split <;> simp
  have hset : s.dies.set s.reqCs.toNat d = s.dies := by
    rw [List.getElem?_eq_some_iff] at hd
    obtain ⟨hh, rfl⟩ := hd
    exact List.set_getElem_self hh
  simp [perform, performSelect, hcs, PhaseResult.ofEffect, settle, State.bumpPc, State.logPhase, h.pc, inRequest, hset, hw]

theorem inRequest_bump {s : State} {c k : BitVec 4} {wa w D tr db id st n ans} :
    (inRequest s c k wa w D tr db id st n ans).bumpPc = inRequest s c (k+1) wa w D tr db id st n ans := rfl

/-- One step of a run, the phase known, for a phase that hands no bytes back. -/
theorem inRequest_run {s : State} {i : Instr} {k c : BitVec 4} {wa w D tr db id st n ans} {p : Phase} {r : Completion} {t : State}
    (h : s.Starts i)
    (hp : (inRequest s c k wa w D tr db id st n ans).latchPhases[k.toNat]? = some p) (he :
    perform p (inRequest s c k wa w D tr db id st n ans) = .done r t)
    (hr : r = .unit ∨ r = .ready) (m : Nat) :
    stepN (m+1) (inRequest s c k wa w D tr db id st n ans) = stepN m t.bumpPc := by
  apply stepN_next
  rw [inRequest_step h hp, he]
  rcases hr with rfl | rfl <;> rfl

/-- One step of a run, the phase known, for a `DIN`. -/
theorem inRequest_run_din {s : State} {i : Instr} {k c : BitVec 4} {wa w D tr db id st n ans} {p : Phase} {l : List Byte} {t : State}
    (h : s.Starts i)
    (hp : (inRequest s c k wa w D tr db id st n ans).latchPhases[k.toNat]? = some p) (he :
    perform p (inRequest s c k wa w D tr db id st n ans) = .done (.bytes l) t)
    (m : Nat) : stepN (m+1) (inRequest s c k wa w D tr db id st n ans) = stepN m (opStore s.reqOp l t).bumpPc := by
  apply stepN_next
  rw [inRequest_step h hp, he]; rfl

end Sys2Proof.Machine
end

