-- ==== Sys2Proof/Tests/Slice0.lean ====
section
/-! SUPPORT. Small tests: ill-formed operands, words written out from the spec, the vectors of 95_test_vectors.md one step
at a time, and for each statement with hypotheses a state and operands that meet them. -/

namespace Sys2Proof.Tests

open Sys2Proof Sys2Proof.Machine

/-! ### Small states -/

/-- TCFG with the general device. -/
def gcfg : Config := { Config.tcfg with device := .general }

/-- The controller after reset, a request just accepted. -/
def accepted (cfg : Config) (w : BitVec 32) (data : List Byte) : State := (State.powerOn cfg).accept ⟨w, data⟩

/-- A request before the phase at index `k` of its list, its die 0 or 1 changed by `f`. -/
def atPhase (cfg : Config) (w : BitVec 32) (data : List Byte) (k : BitVec 4) (f : Die → Die) : State :=
  let s := accepted cfg w data
  { s with
    phasePc := k
    csSel := if selectedAt s.reqOp k.toNat then some s.reqCs else none
    sel := if selectedAt s.reqOp k.toNat then some s.reqCs else none
    wpAsserted := !releasedAt s.reqOp k.toNat
    wp := !releasedAt s.reqOp k.toNat
    dies := s.dies.modify s.reqCs.toNat f }

/-- Six bytes of payload (95_test_vectors.md V40). -/
def payload : List Byte := [0x11, 0x22, 0x33, 0x44, 0x55, 0x66]

/-- The device with chip select 0 selected and its die changed. -/
def withDie (cfg : Config) (f : Die → Die) : State :=
  { State.powerOn cfg with sel := some 0, dies := (State.powerOn cfg).dies.modify 0 f }

/-- The die that `withDie` leaves at chip select 0. -/
def dieOf (cfg : Config) (f : Die → Die) : Die := f (Die.powerOn cfg 0)

/-- The selected die's part of a state. -/
def die0 (s : State) : Die := s.dies.getD 0 (Die.powerOn s.cfg 0)

/-- A request of the general device waiting at its WAIT_RDY, die 0 busy with `pend` in progress. -/
def waiting (op pc : BitVec 4) (wp : Bool) (pend : Option Pending) (bound : ReadyBound) (answers : List Answer) :
    State :=
  { withDie { gcfg with readyTimeout := bound } (fun d => { d with busy := true, pend := pend }) with
    ctl := .busy, reqOp := op, phasePc := pc, reqLen := 6, csSel := some 0, wpAsserted := wp, wp := wp
    answers := answers }

/-- An erase of block 0 waiting. -/
def waitingErase (bound : ReadyBound) (answers : List Answer) : State :=
  waiting 2 5 false (some ⟨0, fill 24 0xFF⟩) bound answers

/-- A program of page 0 of block 0 waiting. -/
def waitingProgram (bound : ReadyBound) (answers : List Answer) : State :=
  waiting 3 6 false (some ⟨0, fill 6 0x00⟩) bound answers

/-- A read of page 0 of block 0 waiting. -/
def waitingRead (bound : ReadyBound) (answers : List Answer) : State := waiting 4 4 true none bound answers

/-! ### Checking the invariant on one state -/

/-- One die, checked. -/
def dieCheck (cfg : Config) (d : Die) : Bool :=
  Memory.wf d.image && cfg.imageFits d.image && decide (d.pbuf.length = cfg.fullPageSize) &&
    decide (d.preg.length = cfg.fullPageSize) &&
    match d.pend with
    | some p => decide (p.off + p.bytes.length ≤ cfg.imageSize)
    | none => true

/-- The array effects in progress, checked. -/
def pendCheck (s : State) : Bool :=
  (List.range s.dies.length).all (fun c => match s.dies[c]? with
    | some d => decide (d.pend = none ∨ (s.cfg.device = .general ∧ d.busy = true ∧ s.ctl = .busy ∧ s.reqCs.toNat = c ∧
        ((s.reqOp = 2 ∧ s.phasePc = 5) ∨ (s.reqOp = 3 ∧ s.phasePc = 6))))
    | none => true)

/-- The payload length of a response, checked. -/
def respCheck (cfg : Config) : Resp → Bool
  | .none => true
  | .id l => decide (l.length = cfg.idLen)
  | .ok _ => true
  | .page l => decide (l.length = cfg.fullPageSize)
  | .absent => true
  | .fault _ => true

/-- The mode and the address bytes of the request's die, checked. -/
def latchCheck (s : State) : Bool :=
  match latchAt s.cfg s.reqOp s.reqBlock s.reqPage s.phasePc.toNat, s.dies[s.reqCs.toNat]? with
  | some (m, a), some d => decide (d.mode = m ∧ d.abuf = a)
  | _, _ => true

/-- The invariant, checked. -/
def invCheck (s : State) : Bool :=
  s.cfg.valid && decide (s.bench = []) && decide (s.dies.length = s.cfg.numCs) && s.dies.all (dieCheck s.cfg) &&
  decide (s.dbuf.length = s.cfg.fullPageSize) && decide (s.idbuf.length = s.cfg.idLen) && respCheck s.cfg s.resp &&
  decide (s.wp = s.wpAsserted) && decide (s.sel = s.csSel) && s.sel.all (fun c => decide (c.toNat < s.cfg.numCs)) &&
  (match s.ctl with
    | .idle => decide (s.phasePc = 0 ∧ s.csSel = none ∧ s.wpAsserted = true)
    | .busy => decide (s.resp = .none) && legalPc s.reqOp s.phasePc.toNat &&
        decide (s.csSel = if selectedAt s.reqOp s.phasePc.toNat = true then some s.reqCs else none) &&
        decide (s.wpAsserted = !releasedAt s.reqOp s.phasePc.toNat) &&
        decide (s.phasePc = 0 ∨ s.latchCheck = none) &&
        decide (selectedAt s.reqOp s.phasePc.toNat = false ∨ s.sel = some s.reqCs) && latchCheck s) &&
  pendCheck s

theorem dieWf_of_check {cfg : Config} {d : Die} (h : dieCheck cfg d = true) : Die.Wf cfg d := by
  simp only [dieCheck, Bool.and_eq_true, decide_eq_true_eq] at h
  obtain ⟨⟨⟨⟨h1, h2⟩, h3⟩, h4⟩, h5⟩ := h
  exact ⟨h1, h2, h3, h4, fun p hp => by simpa [hp] using h5⟩

theorem pend_of_check {s : State} (h : pendCheck s = true) (c : Nat) (d : Die) (hd : s.dies[c]? = some d)
    (hp : d.pend ≠ none) : s.cfg.device = .general ∧ d.busy = true ∧ s.ctl = .busy ∧ s.reqCs.toNat = c ∧
      ((s.reqOp = 2 ∧ s.phasePc = 5) ∨ (s.reqOp = 3 ∧ s.phasePc = 6)) := by
  have hc := (List.all_eq_true.mp h) c (List.mem_range.mpr (List.getElem?_eq_some_iff.mp hd).1)
  rw [hd] at hc
  exact (of_decide_eq_true hc).resolve_left hp

/-- A state that passes the check is legal. -/
theorem inv_of_check {s : State} (h : invCheck s = true) : s.Inv := by
  simp only [invCheck, Bool.and_eq_true, decide_eq_true_eq] at h
  obtain ⟨⟨⟨⟨⟨⟨⟨⟨⟨⟨⟨h1, h2⟩, h3⟩, h4⟩, h5⟩, h6⟩, h7⟩, hw⟩, hl⟩, h8⟩, h9⟩, h10⟩ := h
  refine ⟨h1, h2, h3, fun d hd => dieWf_of_check (List.all_eq_true.mp h4 d hd), h5, h6, ?_, hw, hl, ?_, ?_, ?_, ?_, ?_,
    ?_, ?_, ?_, ?_, pend_of_check h10⟩
  · revert h7; cases s.resp <;> simp [respCheck, Resp.wf]
  · intro c hc; rw [hc] at h8; simpa using h8
  all_goals
    intro hc
    rw [hc] at h9
    simp only [Bool.and_eq_true, decide_eq_true_eq] at h9
  · exact h9
  · exact h9.1.1.1.1.1.1
  · exact h9.1.1.1.1.1.2
  · exact h9.1.1.1.1.2
  · exact h9.1.1.1.2
  · exact fun h0 => h9.1.1.2.resolve_left h0
  · exact fun hs => h9.1.2.resolve_left (by simp [hs])
  · intro m a hma d hd
    have := h9.2
    simp only [latchCheck, hma, hd, decide_eq_true_eq] at this
    exact this

/-- A request that has been accepted, checked. -/
def startsCheck (s : State) (i : Instr) : Bool :=
  invCheck s && decide (s.rst = false) && decide (s.ctl = .busy) && decide (s.phasePc = 0) &&
    (match s.latched with
      | .ok j => decide (j = i)
      | .error _ => false) &&
    decide (s.latchCheck = none)

theorem starts_of_check {s : State} {i : Instr} (h : startsCheck s i = true) : s.Starts i := by
  simp only [startsCheck, Bool.and_eq_true, decide_eq_true_eq] at h
  obtain ⟨⟨⟨⟨⟨h1, h2⟩, h3⟩, h4⟩, h5⟩, h6⟩ := h
  refine ⟨inv_of_check h1, h2, h3, h4, ?_, h6⟩
  cases hl : s.latched with
  | error e => rw [hl] at h5; cases h5
  | ok j => rw [hl] at h5; rw [of_decide_eq_true h5]

/-- What a step answers, read through `f`. -/
def got {α : Type} (f : State → α) : Host.Outcome State Fault Refusal → Option α
  | .next t => some (f t)
  | .fault _ => none
  | .refused _ => none

/-- The fault a step stops with. -/
def faulted : Host.Outcome State Fault Refusal → Option Fault
  | .next _ => none
  | .fault f => some f
  | .refused _ => none

/-- The refusal a step stops with. -/
def refused : Host.Outcome State Fault Refusal → Option Refusal
  | .next _ => none
  | .fault _ => none
  | .refused r => some r

/-! ### Well-formedness: one ill-formed term for each check -/

theorem test_wf_accepts : ([.select 1, .cmd 0x90, .addr [0], .dout payload, .din 1, .waitRdy .inf,
    .waitRdy (.polls 1)] : List Phase).all (Phase.wf Config.tcfg) = true := by decide

theorem test_wf_refuses_select_outside_num_cs : Instr.wf Config.tcfg (.select 2) = false := by decide

theorem test_wf_refuses_unknown_command_byte : Instr.wf Config.tcfg (.cmd 0xFF) = false := by decide

theorem test_wf_refuses_no_address_byte : Instr.wf Config.tcfg (.addr []) = false := by decide

theorem test_wf_refuses_six_address_bytes : Instr.wf Config.tcfg (.addr payload) = false := by decide

theorem test_wf_refuses_short_page : Instr.wf Config.tcfg (.dout [0x11]) = false := by decide

theorem test_wf_refuses_reading_nothing : Instr.wf Config.tcfg (.din 0) = false := by decide

theorem test_wf_refuses_bound_zero : Instr.wf Config.tcfg (.waitRdy (.polls 0)) = false := by decide

/-! ### Decoding: words written out bit by bit from 30_encoding.md -/

-- R90, R91: OP 0001 | CS 0001 | BLOCK 0 | PAGE 0 (V2).
theorem test_decode_identify : decodeRequest 0b0001_0001_0000000000000000_00000000#32 = .ok (.identify 1) := by decide

-- OP 0010 | CS 0000 | BLOCK 3 | PAGE 0 (V3).
theorem test_decode_erase_block :
    decodeRequest 0b0010_0000_0000000000000011_00000000#32 = .ok (.eraseBlock 0 3) := by decide

-- OP 0011 | CS 0000 | BLOCK 2 | PAGE 3 (V5).
theorem test_decode_program_page :
    decodeRequest 0b0011_0000_0000000000000010_00000011#32 = .ok (.programPage 0 2 3) := by decide

-- OP 0100 | CS 1111 | BLOCK 65535 | PAGE 255 (V17).
theorem test_decode_read_page :
    decodeRequest 0b0100_1111_1111111111111111_11111111#32 = .ok (.readPage 15 65535 255) := by decide

-- V8, V10, V11, V12, V13: reserved operations and reserved fields.
theorem test_decode_reserved_requests :
    decodeRequest 0x00000000 = .error .reservedOpcode ∧ decodeRequest 0xF0000000 = .error .reservedOpcode ∧
    decodeRequest 0x10000001 = .error .reservedField ∧ decodeRequest 0x10000100 = .error .reservedField ∧
    decodeRequest 0x20000301 = .error .reservedField := by decide

-- R95: the kinds 0x1 to 0x8.
theorem test_decode_phases :
    decodePhase ⟨0b0001, .cs 1⟩ = .ok (.select 1) ∧ decodePhase ⟨0b0010, .none⟩ = .ok .deselect ∧
    decodePhase ⟨0b0011, .level true⟩ = .ok (.setWp true) ∧ decodePhase ⟨0b0100, .byte 0x90⟩ = .ok (.cmd 0x90) ∧
    decodePhase ⟨0b0101, .bytes [0x0C, 0x00]⟩ = .ok (.addr [0x0C, 0x00]) ∧
    decodePhase ⟨0b0110, .bytes payload⟩ = .ok (.dout payload) ∧ decodePhase ⟨0b0111, .count 5⟩ = .ok (.din 5) ∧
    decodePhase ⟨0b1000, .bound .inf⟩ = .ok (.waitRdy .inf) := by decide

-- R95: kinds 0x0 and 0x9 to 0xF are never emitted; an argument is of its kind's form.
theorem test_decode_reserved_phases :
    decodePhase ⟨0, .none⟩ = .error .reservedPhaseKind ∧ decodePhase ⟨0xF, .none⟩ = .error .reservedPhaseKind ∧
    decodePhase ⟨1, .byte 0⟩ = .error .phaseArgument ∧ decodePhase ⟨2, .count 1⟩ = .error .phaseArgument := by decide

-- R100: the eight command bytes at their defaults.
theorem test_decode_commands :
    [0x90, 0x00, 0x30, 0x80, 0x10, 0x60, 0xD0, 0x70].map (decodeCommand Config.tcfg) =
      [.ok .cmdReadId, .ok .cmdReadSetup, .ok .cmdReadConfirm, .ok .cmdProgramSetup, .ok .cmdProgramConfirm,
        .ok .cmdEraseSetup, .ok .cmdEraseConfirm, .ok .cmdReadStatus] := by decide

-- R94, R190: response kinds and fault codes on the port.
theorem test_response_records :
    encodeResp .none = ⟨0, .none⟩ ∧ encodeResp (.id [0x01]) = ⟨1, .bytes [0x01]⟩ ∧
    encodeResp (.ok false) = ⟨2, .bit false⟩ ∧ encodeResp (.page []) = ⟨3, .bytes []⟩ ∧
    encodeResp .absent = ⟨4, .none⟩ ∧ encodeResp (.fault .reservedRequest) = ⟨5, .code 0x04⟩ := by decide

theorem test_table_words :
    decodeTableWord 32 0x40000203 = some (.readPage 0 2 3) ∧ decodeTableWord 8 0x02 = some .deselect ∧
    decodeTableWord 8 0xD0 = some .cmdEraseConfirm ∧ decodeTableWord 32 0x50000000 = none := by decide

/-! ### Text (R106, R107) -/

theorem test_request_text :
    (WrittenRequest.programPage 0 0 0 (.fill 0xA5)).text = "PROGRAM_PAGE 0, 0, 0, fill(0xA5)" ∧
    ((WrittenRequest.programPage 0 2 3 (.list payload)).request Config.tcfg).word = 0x30000203 ∧
    ((WrittenRequest.eraseBlock 0 255).request Config.tcfg).word = 0x2000FF00 := by decide

theorem test_trace_text :
    [TraceEntry.mk .deselect .unit, ⟨.cmd 0xD0, .unit⟩, ⟨.addr [0x0C, 0x00], .unit⟩, ⟨.din 1, .bytes [0xE0]⟩,
      ⟨.waitRdy .inf, .timeout⟩, ⟨.setWp false, .unit⟩].map TraceEntry.text =
    ["DESELECT", "CMD 0xD0", "ADDR 0C 00", "DIN 1 -> [E0]", "WAIT_RDY -> TIMEOUT", "SET_WP 0"] := by decide

/-! ### Address cycles (95_test_vectors.md section 3.2) -/

/-- LCFG, XCFG and NCFG of section 3.2: pages per block, blocks, row cycles. -/
def sized (pages blocks : Nat) : Config :=
  { Config.tcfg with pagesPerBlock := pages, blocksPerCs := blocks, rowCycles := Config.defaultRowCycles blocks pages }

theorem test_address_bytes :
    Config.tcfg.fullAddress 2 3 = [0x00, 0x00, 0x0B, 0x00] ∧ Config.tcfg.blockAddress 3 = [0x0C, 0x00] ∧
    (sized 64 1024).fullAddress 1023 63 = [0x00, 0x00, 0xFF, 0xFF] ∧
    (sized 64 1024).blockAddress 1023 = [0xC0, 0xFF] ∧
    (sized 64 4096).fullAddress 4095 63 = [0x00, 0x00, 0xFF, 0xFF, 0x03] ∧
    (sized 64 4096).blockAddress 4095 = [0xC0, 0xFF, 0x03] ∧
    (sized 3 4).fullAddress 2 1 = [0x00, 0x00, 0x07, 0x00] := by decide

/-! ### The status interpreter (section 3.7) -/

theorem test_status_pass :
    [0xE0, 0xE1, 0x60, 0x61, 0x00, 0xFF, 0x02, 0x80, 0xFE].map (statusPass Config.tcfg) =
      [true, false, true, false, true, false, true, true, true] ∧
    statusPass { Config.tcfg with statusFailMask := 0x03 } 0x02 = false := by decide

/-! ### Requests, one step each -/

/-- The next step after acceptance: the response, or none where the first phase runs. -/
def firstResp (w : BitVec 32) (data : List Byte) : Option Resp := got State.resp (step (accepted Config.tcfg w data))

-- V8 to V18, V34, V37, V38: the checks in their order.
theorem test_checks :
    [0x00000000, 0xF0000000, 0x10000001, 0x20000301, 0x15000005].map (fun w => firstResp w []) =
      List.replicate 5 (some (.fault .reservedRequest)) ∧
    [0x1F000000, 0x12000000, 0x2000FF00, 0x20000400, 0x22000000].map (fun w => firstResp w []) =
      List.replicate 5 (some (.fault .outOfRangeAddress)) ∧
    [0x4FFFFFFF, 0x40000004, 0x40000400, 0x42000000].map (fun w => firstResp w []) =
      List.replicate 4 (some .absent) := by decide

-- V42 to V48: length after range.
theorem test_program_checks :
    firstResp 0x30000000 [1, 2, 3, 4, 5] = some (.fault .badLength) ∧
    firstResp 0x30000000 [] = some (.fault .badLength) ∧
    firstResp 0x30000004 [1, 2, 3] = some (.fault .outOfRangeAddress) ∧
    firstResp 0x30000000 payload = some .none := by decide

-- V46, V42: only a payload of the right length is copied at acceptance.
theorem test_acceptance_copies_the_payload :
    (accepted Config.tcfg 0x30000004 payload).dbuf = payload ∧
    (accepted Config.tcfg 0x30000000 [1, 2]).dbuf = fill 6 0 ∧ (accepted Config.tcfg 0x30000000 [1, 2]).reqLen = 2 := by
  decide

-- V32: DIN of the identifier; V85: the second read goes on where the first ended.
theorem test_identify_reads_the_identifier :
    got State.idbuf (step (atPhase Config.tcfg 0x10000000 [] 3 (fun d => { d with mode := .id, abuf := [0x00] }))) =
      some [0x01, 0x23, 0x45, 0x67, 0x89] := by decide

-- V39: the injected erase reports 0xE1, and the response is OK(0).
theorem test_erase_injected :
    got (fun t => ((die0 t).image, (die0 t).fail)) (step
      (atPhase { Config.tcfg with inject := [⟨0, 1, .erase⟩] } 0x20000100 [] 4
        (fun d => { d with mode := .eraseSetup, abuf := [0x04, 0x00], image := [(24, 0x00)] }))) =
      some ([(24, 0x00)], true) := by decide

-- V31: the erase of block 3 fills bytes 72 to 95; byte 71 stays.
theorem test_erase_fills_the_block :
    got (fun t => ((die0 t).image, (die0 t).fail, (die0 t).status)) (step (atPhase Config.tcfg 0x20000300 [] 4
      (fun d => { d with mode := .eraseSetup, abuf := [0x0C, 0x00], image := [(71, 0x00), (72, 0x00), (95, 0x00)] }))) =
      some ([(71, 0x00)], false, 0xE0) := by decide

-- V45: the program ANDs.
theorem test_program_ands :
    got (fun t => Memory.readBytes (die0 t).image 6 6) (exec .cmdProgramConfirm { withDie Config.tcfg (fun d =>
      { d with mode := .prog, abuf := [0, 0, 1, 0], pbuf := [0x0F, 0x3C, 0xFF, 0x00, 0xAA, 0x55],
               image := Memory.writeBytes [] 6 (fill 6 0xF0) }) with wp := false }) =
      some [0x00, 0x30, 0xF0, 0x00, 0xA0, 0x50] := by decide

-- V40, V60: the page read is the page programmed, at image bytes 66 to 71.
theorem test_read_loads_the_page :
    got (fun t => (die0 t).preg) (step (atPhase Config.tcfg 0x40000203 [] 3
      (fun d => { d with mode := .readSetup, abuf := [0x00, 0x00, 0x0B, 0x00], image := Memory.writeBytes [] 66 payload }))) =
      some payload := by decide

-- R121, R124, R127, R130: the responses.
theorem test_responses :
    got State.resp (step (atPhase Config.tcfg 0x20000000 [] 10 id)) = some (.ok true) ∧
    got State.resp (step (atPhase Config.tcfg 0x30000000 payload 11 id)) = some (.ok true) ∧
    got State.resp (step (atPhase Config.tcfg 0x10000000 [] 5 id)) = some (.id (fill 5 0)) ∧
    got State.resp (step (atPhase Config.tcfg 0x40000000 [] 7 id)) = some (.page (fill 6 0)) := by decide

-- V41, V51, V66: the wait that times out goes to the cleanup path.
theorem test_timeout_goes_to_the_cleanup_path :
    got State.phasePc (step (waitingErase (.polls 8) [.timeout])) = some 12 ∧
    got State.phasePc (step (waitingProgram (.polls 8) [.timeout])) = some 12 ∧
    got State.phasePc (step (waitingRead (.polls 8) [.timeout])) = some 13 ∧
    got State.phasePc (step (waitingErase .inf [.timeout])) = some 5 := by decide

theorem test_cleanup_raises :
    got (fun t => (t.resp, t.runFaults)) (step (atPhase gcfg 0x20000000 [] 14 id)) =
      some (.fault .deviceTimeout, [.deviceTimeout]) := by decide

-- V52, V53: the general device's law at READY with a passing status; the status byte is the one drawn.
theorem test_ready_applies_the_law :
    got (fun t => ((die0 t).image, (die0 t).latched)) (step (waitingProgram (.polls 8) [.ready 0xC0])) =
      some ([(0, 0), (1, 0), (2, 0), (3, 0), (4, 0), (5, 0)], some 0xC0) := by decide

-- V90: reset.
theorem test_reset_state :
    State.reset.reqReady = true ∧ State.reset.respValid = false ∧ State.reset.wpAsserted = true ∧
    (die0 State.reset).status = 0x60 ∧ State.reset.dies.length = 2 := by decide

-- V94, 70 R229: reset past the confirm command; the lines follow the outputs.
theorem test_reset_in_a_request :
    got (fun t => (t.csSel, t.wpAsserted, t.resp, (die0 t).unknown))
      (step { waitingProgram (.polls 8) [] with rst := true }) = some (none, true, .none, true) ∧
    got (fun t => (t.sel, t.wp)) (step { waitingProgram (.polls 8) [] with rst := true }) = some (none, true) := by
  decide

-- 93 U30, 20 R78: on the general device a protected erase is in progress as any other, its block 72 to 95.
theorem test_general_erase_under_protection :
    got (fun t => ((die0 t).busy, (die0 t).pend)) (exec .cmdEraseConfirm
      (withDie gcfg (fun d => { d with mode := .eraseSetup, abuf := [0x0C, 0x00] }))) =
      some (true, some ⟨72, fill 24 0xFF⟩) := by decide

-- V91, V92: a held request, and consumption.
theorem test_held_and_consumed :
    got (fun t => (t.resp, t.requests, t.delivered, t.reqReady))
      (step { State.reset with resp := .absent, requests := [⟨0x10000000, []⟩] }) =
      some (.none, [⟨0x10000000, []⟩], [.absent], true) := by decide

/-! ### Phases and command cycles on the reference device (section 3.8) -/

-- V80, V81, V82.
theorem test_select_deselect_setWp :
    got State.sel (exec (.select 1) State.reset) = some (some 1) ∧
    got (fun t => (t.sel, (die0 t).mode, (die0 t).abuf))
      (exec .deselect (withDie Config.tcfg (fun d => { d with mode := .status, abuf := [1] }))) =
      some (none, .idle, []) ∧
    got State.wp (exec (.setWp false) State.reset) = some false := by decide

theorem test_select_outside_num_cs : faulted (exec (.select 2) State.reset) = some .absentDie := by decide

-- V83.
theorem test_read_status :
    got (fun t => ((die0 t).mode, (die0 t).status)) (exec (.cmd 0x70) { withDie Config.tcfg id with wp := false }) =
      some (.status, 0xE0) ∧
    got State.traceText (exec (.din 3) (withDie Config.tcfg (fun d => { d with mode := .status, status := 0xE0 }))) =
      some ["DIN 3 -> [E0 E0 E0]"] := by decide

-- V84.
theorem test_program_protected :
    got (fun t => ((die0 t).fail, (die0 t).status, (die0 t).image, (die0 t).mode)) (exec (.cmd 0x10)
      (withDie Config.tcfg (fun d => { d with mode := .prog, abuf := [0, 0, 0, 0] }))) =
      some (true, 0x61, [], .idle) := by decide

-- V85.
theorem test_din_advances :
    got (fun t => (t.traceText, (die0 t).rptr))
      (exec (.din 3) (withDie Config.tcfg (fun d => { d with mode := .id, abuf := [0], rptr := 2 }))) =
      some (["DIN 3 -> [45 67 89]"], 5) := by decide

-- 20_memory.md R65, 93 U26: each confirm in its mode with no address leaves all of its die open.
theorem test_confirms_with_no_address :
    let s : Mode → State := fun m => withDie Config.tcfg (fun d => { d with mode := m })
    let d : Mode → Die := fun m => dieOf Config.tcfg (fun d => { d with mode := m })
    exec .cmdReadConfirm (s .readSetup) = .next ((s .readSetup).undefineDie 0 (d .readSetup)) ∧
    exec .cmdProgramConfirm (s .prog) = .next ((s .prog).undefineDie 0 (d .prog)) ∧
    exec .cmdEraseConfirm (s .eraseSetup) = .next ((s .eraseSetup).undefineDie 0 (d .eraseSetup)) := ⟨rfl, rfl, rfl⟩

-- V87, V88.
theorem test_wait_and_dout :
    got State.traceText (exec (.waitRdy (.polls 8)) (withDie Config.tcfg id)) = some ["WAIT_RDY -> READY"] ∧
    got State.dies (exec (.dout (fill 6 0)) State.reset) = some State.reset.dies := by decide

-- R67: bytes beyond the page are dropped.
theorem test_dout_drops_bytes_beyond_the_page :
    got (fun t => (die0 t).pbuf)
      (exec (.dout [1, 2, 3]) (withDie Config.tcfg (fun d => { d with mode := .prog, abuf := [4, 0, 0, 0] }))) =
      some [0, 0, 0, 0, 1, 2] := by decide

-- R63, R64: the setup commands and ADDR.
theorem test_setup_and_addr :
    [Instr.cmdReadId, .cmdReadSetup, .cmdProgramSetup, .cmdEraseSetup].map
      (fun i => got (fun t => ((die0 t).mode, (die0 t).abuf)) (exec i (withDie Config.tcfg (fun d => { d with abuf := [9] })))) =
      [some (.id, []), some (.readSetup, []), some (.prog, []), some (.eraseSetup, [])] ∧
    got (fun t => (die0 t).abuf) (exec (.addr [7, 8]) (withDie Config.tcfg (fun d => { d with abuf := [9] }))) =
      some [9, 7, 8] := by decide

-- 93 U12: an answer that breaks the driver port contract.
theorem test_driver_contract :
    refused (exec (.din 2) { withDie gcfg id with answers := [.bytes [0]] }) = some .driverContract ∧
    refused (exec (.waitRdy .inf) { withDie gcfg (fun d => { d with busy := true }) with answers := [.bytes []] }) =
      some .driverContract := by decide

theorem test_fetch_words :
    got State.phasePc (step (State.reset.withFetchWord 32 0x30000000)) = some 1 ∧
    got State.trace (step (State.reset.withFetchWord 4 2)) = some [⟨.deselect, .unit⟩] ∧
    got State.sel (step (State.reset.withFetchWord 8 0xD0)) = some none := by decide

/-! ### A state and operands that meet the hypotheses of each statement, clause by clause -/

/-- A busy general die 0, selected, with answers supplied. -/
def generalBusy (pend : Option Pending) (answers : List Answer) : State :=
  { withDie gcfg (fun d => { d with busy := true, pend := pend }) with answers := answers }

/-- The last page of TCFG: column 0 of row 15. -/
def lastPage : List Byte := [0x00, 0x00, 0x0F, 0x00]

theorem test_hyp_decode_of_encode : Config.tcfg.commandList.Nodup := by decide

theorem test_hyp_encode_of_decode :
    decode Config.tcfg (.request 0x4FFFFFFF) = .ok (.readPage 15 65535 255) ∧
    decode Config.tcfg (.phase ⟨8, .bound .inf⟩) = .ok (.waitRdy .inf) ∧
    decode Config.tcfg (.command 0x00) = .ok .cmdReadSetup := by decide

theorem test_hyp_response_record : (⟨6, .none⟩ : RespRecord).kind.toNat = 6 ∧ (⟨7, .bit true⟩ : RespRecord).kind.toNat = 7 := by
  decide

theorem test_hyp_address_bytes :
    Config.tcfg.valid = true ∧ 15 < Config.tcfg.blocksPerCs * Config.tcfg.pagesPerBlock ∧
    (sized 64 4096).valid = true ∧ 262143 < (sized 64 4096).blocksPerCs * (sized 64 4096).pagesPerBlock := by decide

theorem test_hyp_device_decodes :
    (sized 3 4).valid = true ∧ (3 : BitVec 16).toNat < (sized 3 4).blocksPerCs ∧
    (2 : BitVec 8).toNat < (sized 3 4).pagesPerBlock := by decide

theorem test_hyp_status_bytes : Config.tcfg.statusFailMask = 0x01 ∧ (0xFE : Byte).getLsbD 0 = false := by decide

theorem test_hyp_power_on : (State.powerOn Config.tcfg).dies[1]? = some (Die.powerOn Config.tcfg 1) := by decide

theorem test_hyp_invariant_at_power_on : gcfg.valid = true ∧ (sized 64 4096).valid = true := by decide

theorem test_hyp_step_keeps :
    State.reset.Inv ∧ (∃ t, step State.reset = .next t) ∧
    (waitingErase (.polls 1) [.ready 0xE0]).Inv ∧ ∃ t, step (waitingErase (.polls 1) [.ready 0xE0]) = .next t :=
  ⟨inv_of_check (by decide), ⟨_, rfl⟩, inv_of_check (by decide), _, rfl⟩

theorem test_hyp_step_completes :
    (accepted Config.tcfg 0x30000203 payload).Inv ∧ (accepted Config.tcfg 0x30000203 payload).cfg.device = .reference ∧
    (waitingErase (.polls 8) [.bytes []]).Inv ∧
    refused (step (waitingErase (.polls 8) [.bytes []])) = some .driverContract ∧
    -- a DIN(5) answered by one byte, and by a status
    let din : Answer → State := fun a =>
      { atPhase gcfg 0x10000000 [] 3 (fun d => { d with mode := .id, abuf := [gcfg.idAddr] }) with answers := [a] }
    (∀ a, (din a).Inv) ∧ ∀ a ∈ [Answer.bytes [0], .ready 0xE0, .timeout], refused (step (din a)) = some .driverContract :=
  ⟨inv_of_check (by decide), by decide, inv_of_check (by decide), by decide, fun _ => inv_of_check rfl, by decide⟩

theorem test_hyp_configuration_kept : ∃ t, step (accepted Config.tcfg 0x10000000 []) = .next t := ⟨_, rfl⟩

theorem test_hyp_bad_configuration :
    { State.reset with cfg := { Config.tcfg with readyTimeout := .polls 0 } }.cfg.valid = false ∧
    16 < { Config.tcfg with numCs := 17 }.numCs ∧ 65536 < { Config.tcfg with blocksPerCs := 65537 }.blocksPerCs ∧
    256 < { Config.tcfg with pagesPerBlock := 257 }.pagesPerBlock ∧
    256 ^ { Config.tcfg with rowCycles := 1, blocksPerCs := 65 }.rowCycles <
      { Config.tcfg with blocksPerCs := 65 }.blocksPerCs * Config.tcfg.pagesPerBlock ∧
    { Config.tcfg with expectedId := [] }.expectedId = [] ∧
    ¬{ Config.tcfg with cmds := { CommandBytes.default with readId := 0x00 } }.commandList.Nodup := by decide

theorem test_hyp_step_runs :
    Config.tcfg.valid = true ∧ (accepted Config.tcfg 0x30000203 payload).rst = false ∧
    (accepted Config.tcfg 0x30000203 payload).bench = [] ∧ (accepted Config.tcfg 0x30000203 payload).ctl = .busy ∧
    (accepted Config.tcfg 0x30000203 payload).latched = .ok (.programPage 0 2 3) ∧
    { State.reset with bench := [.phase ⟨7, .count 1⟩] }.bench = .phase ⟨7, .count 1⟩ :: [] ∧
    decodePhase ⟨7, .count 1⟩ = .ok (.din 1) ∧
    { State.reset with bench := [.command 0x10] }.bench = .command 0x10 :: [] ∧
    decodeCommand State.reset.cfg 0x10 = .ok .cmdProgramConfirm := by decide

theorem test_hyp_acceptance :
    let s : State := { State.reset with requests := [⟨0x30000203, payload⟩] }
    s.cfg.valid = true ∧ s.rst = false ∧ s.bench = [] ∧ s.ctl = .idle ∧ s.resp = .none ∧
    s.requests = ⟨0x30000203, payload⟩ :: [] := by decide

theorem test_hyp_held :
    (accepted Config.tcfg 0x10000000 []).ctl = .busy ∧ (∃ t, step (accepted Config.tcfg 0x10000000 []) = .next t) ∧
    { State.reset with resp := .ok true, hostTakes := false }.resp ≠ .none ∧
    ∃ t, step { State.reset with resp := .ok true, hostTakes := false } = .next t :=
  ⟨rfl, ⟨_, rfl⟩, by decide, _, rfl⟩

theorem test_hyp_consumption :
    let s : Bool → State := fun b => { State.reset with resp := .absent, hostTakes := b }
    ∀ b, (s b).cfg.valid = true ∧ (s b).rst = false ∧ (s b).bench = [] ∧ (s b).ctl = .idle ∧ (s b).resp ≠ .none ∧
      (s b).hostTakes = b := by decide

theorem test_hyp_busy_ends :
    let s := atPhase Config.tcfg 0x10000000 [] 5 id
    let u := atPhase Config.tcfg 0x10000000 [] 4 id
    s.rst = false ∧ s.bench = [] ∧ s.ctl = .busy ∧ got State.ctl (step s) = some .idle ∧
    u.rst = false ∧ u.bench = [] ∧ u.ctl = .busy ∧ got State.ctl (step u) = some .busy := by decide

/-- The premises of the statement about the checks. -/
def atChecks (s : State) : Bool :=
  s.cfg.valid && decide (s.rst = false ∧ s.bench = [] ∧ s.ctl = .busy ∧ s.phasePc = 0)

-- Each check at the boundary of its range: OP 0 and 5; a reserved page; chip select 2 of 2, block 4 of 4, page 4 of 4;
-- a payload of 5 of 6 bytes; and the last chip select, block and page with the right length.
theorem test_hyp_checks :
    ([0x00000000, 0x50000000, 0x20000001, 0x42000000, 0x40000400, 0x40000004, 0x12000000, 0x20000400, 0x30000004,
      0x31000303] : List (BitVec 32)).all (fun w => atChecks (accepted Config.tcfg w (fill 5 0))) = true ∧
    atChecks (accepted Config.tcfg 0x31000303 payload) = true ∧
    (accepted Config.tcfg 0x31000303 (fill 5 0)).latchCheck = some (.raise .badLength) ∧
    (accepted Config.tcfg 0x31000303 payload).latchCheck = none ∧
    (accepted Config.tcfg 0x40000004 []).latchCheck = some (.respond .absent) ∧
    (accepted Config.tcfg 0x12000000 []).latchCheck = some (.raise .outOfRangeAddress) := by decide

theorem test_hyp_reset :
    { atPhase Config.tcfg 0x30000203 payload 6 id with rst := true }.cfg.valid = true ∧
    { atPhase Config.tcfg 0x30000203 payload 6 id with rst := true }.cfg.device = .reference ∧
    { atPhase gcfg 0x30000203 payload 6 id with rst := true }.cfg.valid = true ∧
    -- a general die not past its confirm
    (atPhase gcfg 0x30000203 payload 5 id).cfg.device = .general ∧
    ¬6 ≤ (atPhase gcfg 0x30000203 payload 5 id).phasePc.toNat ∧
    { atPhase gcfg 0x30000203 payload 6 id with rst := true }.dies[0]? = some (Die.powerOn gcfg 0) := by decide

-- The first index past each operation's confirm command.
theorem test_hyp_reset_past_confirm :
    let s : BitVec 4 → BitVec 4 → State := fun op pc => { waiting op pc false none .inf [] with rst := true }
    ((s 2 5).reqOp = 2 ∧ 5 ≤ (s 2 5).phasePc.toNat) ∧ ((s 3 6).reqOp = 3 ∧ 6 ≤ (s 3 6).phasePc.toNat) ∧
    ((s 4 4).reqOp = 4 ∧ 4 ≤ (s 4 4).phasePc.toNat) ∧
    ∀ op pc, (s op pc).cfg.device = .general ∧ (s op pc).rst = true ∧ (s op pc).ctl = .busy ∧
      (s op pc).dies[(s op pc).reqCs.toNat]? = some (dieOf gcfg (fun d => { d with busy := true })) ∧
      ∃ t, step (s op pc) = .next t := by
  refine ⟨by decide, by decide, by decide, fun op pc => ⟨rfl, rfl, rfl, rfl, _, rfl⟩⟩

theorem test_hyp_responds :
    (atPhase Config.tcfg 0x10000000 [] 5 id).phasePc = 5 ∧ (atPhase Config.tcfg 0x20000000 [] 10 id).phasePc = 10 ∧
    (atPhase Config.tcfg 0x30000000 payload 11 id).phasePc = 11 ∧
    (atPhase Config.tcfg 0x40000000 [] 7 id).phasePc = 7 := by decide

-- A first phase, a last phase and the response of each list's length.
theorem test_hyp_request_steps :
    ([(0x11000000, 0), (0x20000300, 9), (0x30000203, 11), (0x40000203, 7)] : List (BitVec 32 × BitVec 4)).all
      (fun x => let s := atPhase Config.tcfg x.1 payload x.2 id
        invCheck s && decide (s.ctl = .busy) && decide (s.latchCheck = none) && decide (s.cfg.device = .reference) &&
          match s.latched with
          | .ok i => decide (s.phasePc.toNat ≤ (s.phasesOf i).length)
          | .error _ => false) = true := by decide

-- The reference device; a general die answered from outside with another identifier (V35), and not answered.
theorem test_hyp_identify :
    (accepted Config.tcfg 0x11000000 []).Starts (.identify 1) ∧
    (accepted Config.tcfg 0x11000000 []).cfg.device = .reference ∧
    let s : List Answer → State := fun l => { accepted gcfg 0x11000000 [] with answers := l }
    (s [.bytes (fill 5 0xAA)]).Starts (.identify 1) ∧ (s []).Starts (.identify 1) ∧
    (∀ l, (s l).cfg.device = .general ∧ (s l).answers = l) ∧ (fill 5 0xAA).length = gcfg.idLen ∧
    fill 5 0xAA ≠ gcfg.expectedId := by
  refine ⟨starts_of_check (by decide), rfl, ?_⟩
  exact ⟨starts_of_check (by decide), starts_of_check (by decide), fun l => ⟨rfl, rfl⟩, by decide, by decide⟩

-- The last block, and one injected to fail.
theorem test_hyp_erase :
    (accepted Config.tcfg 0x21000300 []).Starts (.eraseBlock 1 3) ∧
    (accepted Config.tcfg 0x21000300 []).cfg.injected 1 3 .erase = false ∧
    (accepted { Config.tcfg with inject := [⟨0, 1, .erase⟩] } 0x20000100 []).Starts (.eraseBlock 0 1) ∧
    { Config.tcfg with inject := [⟨0, 1, .erase⟩] }.injected 0 1 .erase = true :=
  ⟨starts_of_check (by decide), by decide, starts_of_check (by decide), by decide⟩

theorem test_hyp_program :
    (accepted Config.tcfg 0x31000303 payload).Starts (.programPage 1 3 3) ∧
    (accepted Config.tcfg 0x31000303 payload).dbuf[5]? = some 0x66 ∧
    (accepted { Config.tcfg with inject := [⟨0, 1, .program⟩] } 0x30000102 payload).Starts (.programPage 0 1 2) ∧
    { Config.tcfg with inject := [⟨0, 1, .program⟩] }.injected 0 1 .program = true :=
  ⟨starts_of_check (by decide), by decide, starts_of_check (by decide), by decide⟩

-- The last page, on the reference device and on a ready general die.
theorem test_hyp_read :
    (accepted Config.tcfg 0x41000303 []).Starts (.readPage 1 3 3) ∧
    (accepted Config.tcfg 0x41000303 []).cfg.device = .reference ∧
    let s : State := { accepted gcfg 0x41000303 [] with answers := [.ready 0xE0] }
    s.Starts (.readPage 1 3 3) ∧ s.cfg.device = .general ∧ s.WaitAnswersReady ∧
    s.dies[1]? = some (Die.powerOn gcfg 1) ∧ (Die.powerOn gcfg 1).busy = false ∧
    (Die.powerOn gcfg 1).unknown = false :=
  ⟨starts_of_check (by decide), rfl, starts_of_check (by decide), rfl, .inl ⟨_, _, rfl⟩, by decide⟩

-- With no answer supplied, one of the two answers to a wait is the free one.
theorem test_hyp_free_wait (draws : Nat) :
    ({ State.reset with draws := draws }).WaitAnswersReady ∨ ({ State.reset with draws := draws }).WaitAnswersBusy := by
  cases h : Config.freeReady draws
  · exact .inr (.inr ⟨rfl, h⟩)
  · exact .inl (.inr ⟨rfl, h⟩)

theorem test_hyp_program_then_read :
    let s : State := { State.reset with requests := [⟨packWord 3 1 3 3, payload⟩, ⟨packWord 4 1 3 3, []⟩] }
    s.Inv ∧ s.rst = false ∧ s.ctl = .idle ∧ s.resp = .none ∧ s.hostTakes = true ∧ s.cfg.device = .reference ∧
    (1 : BitVec 4).toNat < s.cfg.numCs ∧ (3 : BitVec 16).toNat < s.cfg.blocksPerCs ∧
    (3 : BitVec 8).toNat < s.cfg.pagesPerBlock ∧ payload.length = s.cfg.fullPageSize ∧
    s.cfg.injected 1 (3 : BitVec 16).toNat .program = false ∧
    ∀ k : Nat, k < s.cfg.fullPageSize → s.imageByte 1 ((3 * s.cfg.pagesPerBlock + 3) * s.cfg.fullPageSize + k) =
      some 0xFF := ⟨inv_of_check (by decide), by decide⟩

/-- The premises of the statements about a wait of the general device that is answered TIMEOUT. -/
def atTimeout (s : State) (bound : ReadyBound) : Bool :=
  invCheck s && decide (s.rst = false ∧ s.ctl = .busy ∧ s.cfg.device = .general ∧ s.cfg.readyTimeout = bound ∧
    s.answers = [.timeout] ∧ (s.dies[s.reqCs.toNat]?.map Die.busy) = some true)

theorem test_hyp_timeout :
    atTimeout (waitingErase (.polls 8) [.timeout]) (.polls 8) = true ∧
    atTimeout (waitingProgram (.polls 8) [.timeout]) (.polls 8) = true ∧
    atTimeout (waitingRead (.polls 1) [.timeout]) (.polls 1) = true ∧
    (∀ (s : State) rest, s.answers = .timeout :: rest → s.WaitAnswersBusy) :=
  ⟨by decide, by decide, by decide, fun _ rest h => .inl ⟨rest, h⟩⟩

theorem test_hyp_infinite_wait :
    atTimeout (waitingErase .inf [.timeout]) .inf = true ∧ atTimeout (waitingProgram .inf [.timeout]) .inf = true ∧
    atTimeout (waitingRead .inf [.timeout]) .inf = true := by decide

theorem test_hyp_general_program :
    let s : State := { accepted gcfg 0x30000203 payload with answers := [.ready 0xC0] }
    s.Starts (.programPage 0 2 3) ∧ s.cfg.device = .general ∧ statusPass s.cfg 0xC0 = true ∧
    statusPass s.cfg 0xFF = false ∧
    s.dies[0]? = some (Die.powerOn gcfg 0) ∧ (Die.powerOn gcfg 0).busy = false ∧ (Die.powerOn gcfg 0).unknown = false ∧
    s.dbuf[0]? = some 0x11 := ⟨starts_of_check (by decide), by decide⟩

theorem test_hyp_general_erase :
    let s : State := { accepted gcfg 0x21000300 [] with answers := [.ready 0xE0] }
    s.Starts (.eraseBlock 1 3) ∧ s.cfg.device = .general ∧ statusPass s.cfg 0xE0 = true ∧
    statusPass s.cfg 0xFF = false ∧ s.dies[1]? = some (Die.powerOn gcfg 1) ∧ (Die.powerOn gcfg 1).busy = false ∧
    (Die.powerOn gcfg 1).unknown = false := ⟨starts_of_check (by decide), by decide⟩

theorem test_hyp_unknown_die :
    let s : State := { withDie gcfg (fun d => { d with unknown := true }) with bench := [.command 0x90] }
    (∃ t, step s = .next t) ∧ s.dies[0]? = some (dieOf gcfg (fun d => { d with unknown := true })) := ⟨⟨_, rfl⟩, rfl⟩

theorem test_hyp_select :
    (1 : BitVec 4).toNat < State.reset.cfg.numCs ∧ (withDie Config.tcfg id).sel = some 0 ∧
    (withDie Config.tcfg id).dies[0]? = some (dieOf Config.tcfg id) ∧ State.reset.sel = none := by decide

theorem test_hyp_absent_die : State.reset.cfg.numCs ≤ (2 : BitVec 4).toNat := by decide

theorem test_hyp_cmd :
    (∀ k : NandCmd, State.reset.cfg.commandList.Nodup ∧ ∃ u, exec (Instr.ofNandCmd k) State.reset = .next u) ∧
    ∀ c : BitVec 4, (withDie Config.tcfg id).sel = some c → c.toNat < (withDie Config.tcfg id).dies.length := by
  refine ⟨fun k => ?_, by decide⟩
  cases k <;> exact ⟨by decide, _, rfl⟩

theorem test_hyp_commands_outside :
    let s := withDie Config.tcfg id
    s.cfg.device = .reference ∧ s.sel = some 0 ∧ s.dies[0]? = some (dieOf Config.tcfg id) ∧
    (0xFF : Byte) ∉ s.cfg.commandList ∧ (dieOf Config.tcfg id).mode ≠ .readSetup ∧
    (dieOf Config.tcfg id).mode ≠ .prog ∧ (dieOf Config.tcfg id).mode ≠ .eraseSetup ∧
    -- no address byte, a byte too many, a row outside the die, a column outside the page
    (∀ a ∈ [[], [0, 0, 0, 0, 0], [0, 0, 0x10, 0], [6, 0, 0, 0]], Config.tcfg.decodePage a = none) ∧
    (∀ a ∈ [[], [0x10, 0]], Config.tcfg.decodeBlock a = none) ∧
    ∀ m ∈ [Mode.readSetup, .prog, .eraseSetup], (dieOf Config.tcfg (fun d => { d with mode := m })).mode = m ∧
      (dieOf Config.tcfg (fun d => { d with mode := m })).abuf = [] := by decide

-- On either device; shared by the statements whose premise is a ready die.
theorem test_hyp_ready_die :
    (∀ f, (withDie Config.tcfg f).sel = some 0 ∧ (withDie Config.tcfg f).dies[0]? = some (dieOf Config.tcfg f) ∧
      (withDie Config.tcfg f).cfg.device = .reference) ∧
    (withDie gcfg id).sel = some 0 ∧ (withDie gcfg id).dies[0]? = some (dieOf gcfg id) ∧
    (dieOf gcfg id).busy = false := by
  refine ⟨fun f => ⟨rfl, rfl, rfl⟩, by decide⟩

-- The first and the last column, and another mode.
theorem test_hyp_dout :
    let d : Byte → Die := fun col => dieOf Config.tcfg (fun d => { d with mode := .prog, abuf := [col, 0, 0, 0] })
    ∀ col ∈ [0, 5], (d col).pbuf.length = Config.tcfg.fullPageSize ∧ (d col).mode = .prog ∧
      (d col).abuf.length = Config.tcfg.colCycles + Config.tcfg.rowCycles := by decide

theorem test_hyp_din :
    State.reset.cfg.device = .reference ∧ State.reset.sel = none ∧
    let d : Mode → Die := fun m => dieOf Config.tcfg (fun d => { d with mode := m, abuf := [Config.tcfg.idAddr], rptr := 4 })
    ∀ m ∈ [Mode.id, .readData, .status, .idle], (d m).mode = m ∧ (d m).preg.length = Config.tcfg.fullPageSize ∧
      (d m).abuf = [Config.tcfg.idAddr] ∧ (d m).rptr + 0 < Config.tcfg.expectedId.length := by decide

theorem test_hyp_din_unknown :
    let s : List Answer → State := fun l => { withDie gcfg (fun d => { d with unknown := true }) with answers := l }
    (∀ l, (s l).cfg.device = .general ∧ (s l).sel = some 0 ∧
      (s l).dies[0]? = some (dieOf gcfg (fun d => { d with unknown := true })) ∧ (s l).answers = l) ∧
    [(0xFF : Byte)].length = 1 ∧ [(0xFF : Byte)].length ≠ 2 := by
  refine ⟨fun l => ⟨rfl, rfl, rfl, rfl⟩, by decide⟩

theorem test_hyp_wait :
    (withDie Config.tcfg id).cfg.device = .reference ∧
    (dieOf gcfg id).busy = false ∧ (dieOf gcfg id).unknown = false ∧
    statusPass gcfg 0xE0 = true ∧ statusPass gcfg 0xFF = false ∧ payload[5]? = some 0x66 ∧
    (die0 (generalBusy (some ⟨6, payload⟩) [.ready 0xE0])).unknown = false ∧
    Memory.wf (die0 (generalBusy (some ⟨6, payload⟩) [.ready 0xE0])).image = true ∧ 5 < (⟨6, payload⟩ : Pending).off ∧
    (∀ p a, (generalBusy p a).cfg.device = .general ∧ (generalBusy p a).sel = some 0 ∧ (generalBusy p a).answers = a ∧
      (generalBusy p a).dies[0]? = some (dieOf gcfg (fun d => { d with busy := true, pend := p }))) := by
  refine ⟨rfl, by decide, by decide, by decide, by decide, by decide, by decide, by decide, by decide,
    fun p a => ⟨rfl, rfl, rfl, rfl⟩⟩

theorem test_hyp_read_confirm :
    let d := dieOf Config.tcfg (fun d => { d with mode := .readSetup, abuf := lastPage })
    d.mode = .readSetup ∧ Config.tcfg.decodePage d.abuf = some (0, 15) := by decide

-- Not blocked, protected, and injected.
theorem test_hyp_program_confirm :
    let d := dieOf Config.tcfg (fun d => { d with mode := .prog, abuf := lastPage })
    Memory.wf d.image = true ∧ d.pbuf.length = Config.tcfg.fullPageSize ∧ d.mode = .prog ∧
    Config.tcfg.decodePage d.abuf = some (0, 15) ∧ (withDie Config.tcfg id).wp = true ∧
    { withDie Config.tcfg id with wp := false }.wp = false ∧
    Injection.mk (0 : BitVec 4).toNat (15 / Config.tcfg.pagesPerBlock) .program ∈ [Injection.mk 0 3 .program] := by decide

theorem test_hyp_erase_confirm :
    let d := dieOf Config.tcfg (fun d => { d with mode := .eraseSetup, abuf := [0x0C, 0x00] })
    Memory.wf d.image = true ∧ d.mode = .eraseSetup ∧ Config.tcfg.decodeBlock d.abuf = some 3 ∧
    Injection.mk (0 : BitVec 4).toNat 3 .erase ∈ [Injection.mk 0 3 .erase] := by decide

-- Whether or not the die is protected.
theorem test_hyp_general_confirm :
    let f : Mode → List Byte → Die → Die := fun m l d => { d with mode := m, abuf := l }
    let s : Bool → Mode → List Byte → State := fun wp m l => { withDie gcfg (f m l) with wp := wp }
    (∀ wp m l, (s wp m l).cfg.device = .general ∧ (s wp m l).sel = some 0 ∧
      (s wp m l).dies[0]? = some (dieOf gcfg (f m l)) ∧ Memory.wf (dieOf gcfg (f m l)).image = true ∧
      (dieOf gcfg (f m l)).pbuf.length = gcfg.fullPageSize ∧ (dieOf gcfg (f m l)).busy = false ∧
      (dieOf gcfg (f m l)).unknown = false) ∧
    gcfg.decodePage lastPage = some (0, 15) ∧ gcfg.decodeBlock [0x0C, 0x00] = some 3 := by
  refine ⟨fun wp m l => ⟨rfl, rfl, rfl, rfl, rfl, rfl, rfl⟩, by decide⟩

theorem test_hyp_no_die_selected : State.reset.sel = none := by decide

-- A read confirm outside its mode, too, and in its mode with an address.
theorem test_hyp_command_frame :
    (∀ k : NandCmd, ∃ t, exec (Instr.ofNandCmd k) (withDie Config.tcfg id) = .next t) ∧
    let f : Die → Die := fun d => { d with mode := .readSetup, abuf := lastPage }
    (∃ t, exec .cmdReadConfirm (withDie Config.tcfg f) = .next t) ∧ (withDie Config.tcfg f).sel = some 0 ∧
    (withDie Config.tcfg f).dies[0]? = some (dieOf Config.tcfg f) ∧
    (withDie Config.tcfg f).cfg.decodePage (dieOf Config.tcfg f).abuf ≠ none := by
  refine ⟨fun k => ?_, ⟨_, rfl⟩, rfl, rfl, by decide⟩
  cases k <;> exact ⟨_, rfl⟩

-- In the confirm's mode with an address, and in another mode.
theorem test_hyp_confirms_store :
    let s : Mode → List Byte → State := fun m l =>
      { withDie Config.tcfg (fun d => { d with mode := m, abuf := l }) with wp := false }
    Memory.wf (die0 (s .prog lastPage)).image = true ∧
    (∃ t, exec .cmdProgramConfirm (s .prog lastPage) = .next t) ∧ (∃ t, exec .cmdProgramConfirm (s .idle []) = .next t) ∧
    (∃ t, exec .cmdEraseConfirm (s .eraseSetup [0x0C, 0x00]) = .next t) ∧
    (∃ t, exec .cmdEraseConfirm (s .idle []) = .next t) ∧ (die0 (s .idle [])).mode ≠ .prog ∧
    Config.tcfg.decodePage lastPage = some (0, 15) ∧ Config.tcfg.decodeBlock [0x0C, 0x00] = some 3 :=
  ⟨by decide, ⟨_, rfl⟩, ⟨_, rfl⟩, ⟨_, rfl⟩, ⟨_, rfl⟩, by decide⟩

theorem test_hyp_phase_frame :
    (∀ p ∈ [Phase.select 1, .deselect, .setWp false, .cmd 0x90, .addr [0], .dout [1], .din 2, .waitRdy .inf],
      (withDie Config.tcfg id).storesIn p = false) ∧
    (∀ b ∈ [0x10, 0xD0], (withDie Config.tcfg id).storesIn (.cmd b) = true) ∧
    [lastPage, []].map (fun a =>
      (withDie Config.tcfg (fun d => { d with mode := .readSetup, abuf := a })).storesIn (.cmd 0x30)) = [false, true] ∧
    (Phase.waitRdy .inf).waits = true ∧
    (∃ t, exec (Instr.ofPhase (.waitRdy .inf)) (withDie Config.tcfg id) = .next t) ∧
    (∃ t, exec (Instr.ofPhase (.waitRdy .inf)) (generalBusy none [.timeout]) = .next t) ∧
    ∃ t, exec (Instr.ofPhase (.din 2)) (withDie Config.tcfg id) = .next t :=
  ⟨by decide, by decide, by decide, by decide, ⟨_, rfl⟩, ⟨_, rfl⟩, _, rfl⟩

theorem test_hyp_request_frame :
    (∃ t, exec (.identify 0) (atPhase Config.tcfg 0x10000000 [] 3 id) = .next t) ∧
    (∃ t, exec (.eraseBlock 0 0) (atPhase Config.tcfg 0x20000000 [] 7 id) = .next t) ∧
    (∃ t, exec (.programPage 0 0 0) (atPhase Config.tcfg 0x30000000 payload 8 id) = .next t) ∧
    (∀ p, ((atPhase Config.tcfg 0x30000000 payload 8 id).phasesOf (.programPage 0 0 0))[8]? = some p →
      (atPhase Config.tcfg 0x30000000 payload 8 id).storesIn p = false ∧ p.waits = false) ∧
    ∃ t, exec (.readPage 0 0 0) (atPhase Config.tcfg 0x40000000 [] 5 id) = .next t :=
  ⟨⟨_, rfl⟩, ⟨_, rfl⟩, ⟨_, rfl⟩, fun p hp => by injection hp with hp; subst hp; decide, _, rfl⟩

theorem test_hyp_no_byte_changes :
    (waitingRead (.polls 8) [.ready 0xE0]).Inv ∧ (waitingRead (.polls 8) [.ready 0xE0]).ctl = .busy ∧
    (waitingRead (.polls 8) [.ready 0xE0]).reqOp = 4 ∧ (∃ t, step (waitingRead (.polls 8) [.ready 0xE0]) = .next t) ∧
    (accepted Config.tcfg 0x10000000 []).Inv ∧ (accepted Config.tcfg 0x10000000 []).reqOp = 1 ∧
    ∃ t, step (accepted Config.tcfg 0x10000000 []) = .next t :=
  ⟨inv_of_check (by decide), rfl, rfl, ⟨_, rfl⟩, inv_of_check (by decide), rfl, _, rfl⟩

theorem test_hyp_other_chip_selects :
    (accepted Config.tcfg 0x30000203 payload).Inv ∧ (accepted Config.tcfg 0x30000203 payload).ctl = .busy ∧
    (∃ t, step (accepted Config.tcfg 0x30000203 payload) = .next t) ∧
    1 ≠ (accepted Config.tcfg 0x30000203 payload).reqCs.toNat :=
  ⟨inv_of_check (by decide), rfl, ⟨_, rfl⟩, by decide⟩

-- Released; about to be released; reset while released.
theorem test_hyp_write_protect :
    (waitingErase (.polls 8) [.ready 0xE0]).Inv ∧ (waitingErase (.polls 8) [.ready 0xE0]).wpAsserted = false ∧
    (∃ t, step (waitingErase (.polls 8) [.ready 0xE0]) = .next t) ∧
    (atPhase Config.tcfg 0x20000000 [] 1 id).Inv ∧ (atPhase Config.tcfg 0x20000000 [] 1 id).wpAsserted = true ∧
    (atPhase Config.tcfg 0x20000000 [] 1 id).wp = true ∧
    got (fun t => (t.wpAsserted, t.wp)) (step (atPhase Config.tcfg 0x20000000 [] 1 id)) = some (false, false) ∧
    { waitingErase (.polls 8) [] with rst := true }.Inv ∧
    got (fun t => (t.wpAsserted, t.wp)) (step { waitingErase (.polls 8) [] with rst := true }) = some (true, true) :=
  ⟨inv_of_check (by decide), rfl, ⟨_, rfl⟩, inv_of_check (by decide), rfl, rfl, by decide, inv_of_check (by decide),
    by decide⟩

-- Each buffer where it is written.
theorem test_hyp_buffers :
    got State.statusReg (step (atPhase Config.tcfg 0x20000000 [] 7 (fun d => { d with mode := .status }))) = some 0x60 ∧
    got State.dbuf (step { State.reset with requests := [⟨0x30000203, payload⟩] }) = some payload ∧
    got State.reqOp (step { State.reset with requests := [⟨0x30000203, payload⟩] }) = some 3 ∧
    (atPhase Config.tcfg 0x20000000 [] 7 id).rst = false ∧ (atPhase Config.tcfg 0x20000000 [] 7 id).bench = [] := by decide

theorem test_hyp_run_faults :
    (accepted Config.tcfg 0x50000000 []).resp = .none ∧
    got State.resp (step (accepted Config.tcfg 0x50000000 [])) = some (.fault .reservedRequest) := by decide

end Sys2Proof.Tests
end

section
/-! PROOFS. The scope of the machine (00_scope.md): its configuration is a constant, and one that breaks a limit is refused. -/

namespace Sys2Proof.Machine

/-! ### What the device does keeps the configuration -/

theorem DeviceEffect.cfg_eq {storing : Bool} {s t : State} (h : DeviceEffect storing s t) : t.cfg = s.cfg := by
  rcases h with rfl | ⟨c, d, d', n, -, -, rfl, -⟩
  · rfl
  · simp

theorem Answered.cfg_eq {s t : State} (h : Answered s t) : t.cfg = s.cfg := by
  obtain ⟨a, n, rfl⟩ := h
  rfl

theorem perform_done_cfg {p : Phase} {s t : State} {r : Completion} (h : perform p s = .done r t) : t.cfg = s.cfg :=
  (perform_done h).regs.cfg

theorem perform_hold_cfg {p : Phase} {s t : State} (h : perform p s = .hold t) : t.cfg = s.cfg :=
  (perform_hold h).2.2.cfg_eq

/-! ### Words driven at the device directly -/

theorem exec_ofPhase (p : Phase) (s : State) : exec (Instr.ofPhase p) s = (perform p s).outcome p := by
  cases p <;> rfl

theorem exec_ofPhase_cfg {p : Phase} {s t : State} (h : exec (Instr.ofPhase p) s = .next t) : t.cfg = s.cfg := by
  rw [exec_ofPhase] at h
  cases hp : perform p s <;> rw [hp] at h <;> cases h
  case done => exact perform_done_cfg hp
  case hold => simpa using perform_hold_cfg hp

theorem decodePhase_ok {r : PhaseRecord} {i : Instr} (h : decodePhase r = .ok i) : ∃ p, i = Instr.ofPhase p := by
  unfold decodePhase at h
  split at h
  · next p _ => cases h; exact ⟨p, rfl⟩
  · cases h

theorem decodeCommand_ok {cfg : Config} {b : Byte} {i : Instr} (h : decodeCommand cfg b = .ok i) :
    ∃ k, i = Instr.ofNandCmd k := by
  unfold decodeCommand at h
  split at h
  · next k _ => cases h; exact ⟨k, rfl⟩
  · cases h

theorem runBench_cfg {item : BenchItem} {s t : State} (h : runBench item s = .next t) : t.cfg = s.cfg := by
  cases item with
  | phase r =>
    simp only [runBench] at h
    split at h
    · next i hi =>
      obtain ⟨p, rfl⟩ := decodePhase_ok hi
      exact exec_ofPhase_cfg h
    · cases h
  | command b =>
    simp only [runBench] at h
    split at h
    · next i hi =>
      obtain ⟨k, rfl⟩ := decodeCommand_ok hi
      exact (nandCmd_effect h).cfg_eq
    · exact (unknownCommand_effect h).cfg_eq

/-! ### The request in progress -/

@[simp] theorem opStore_cfg (op : BitVec 4) (s : State) (l : List Byte) : (opStore op l s).cfg = s.cfg := by
  fun_cases opStore op <;> rfl

@[simp] theorem finishCheck_cfg (s : State) (e : Ending) : (s.finishCheck e).cfg = s.cfg := by
  cases e <;> rfl

theorem settle_perform_cfg {store : List Byte → State → State} {path : CleanupPath} {p : Phase} {s t : State}
    (hs : ∀ u l, (store l u).cfg = u.cfg) (h : settle store path (perform p s) = .next t) : t.cfg = s.cfg := by
  rcases settle_next h with ⟨u, hp, rfl⟩ | ⟨u, hp, rfl⟩ | ⟨u, hp | hp, rfl⟩ | ⟨l, u, hp, rfl⟩
  · exact perform_hold_cfg hp
  · simpa using perform_done_cfg hp
  · simpa using perform_done_cfg hp
  · simpa using perform_done_cfg hp
  · simpa [hs] using perform_done_cfg hp

theorem cleanupStep_cfg {path : CleanupPath} {s t : State} (h : cleanupStep path s = .next t) : t.cfg = s.cfg := by
  rcases cleanupStep_cases path s with ⟨-, -, he⟩ | ⟨-, -, he⟩ | ⟨-, -, he⟩ | ⟨he, -⟩ <;> rw [he] at h
  · exact settle_perform_cfg storeNothing_cfg h
  · exact settle_perform_cfg storeNothing_cfg h
  · cases h
    simp
  · cases h

theorem listStep_cfg {phases : List Phase} {store : List Byte → State → State} {path : CleanupPath}
    {finish : State → Resp} {s t : State} (hs : ∀ u l, (store l u).cfg = u.cfg)
    (h : listStep phases store path finish s = .next t) : t.cfg = s.cfg := by
  rcases listStep_cases s with ⟨p, -, he⟩ | ⟨-, he⟩ | ⟨-, he⟩ <;> rw [he] at h
  · exact settle_perform_cfg hs h
  · cases h
    simp
  · exact cleanupStep_cfg h

theorem afterChecks_next {check : Option Ending} {s t : State} {k : Host.Outcome State Fault Refusal}
    (h : afterChecks check s k = .next t) : (∃ e, check = some e ∧ t = s.finishCheck e) ∨ k = .next t := by
  unfold afterChecks at h
  split at h
  · split at h
    · cases h
      exact .inl ⟨_, rfl, rfl⟩
    · exact .inr h
  · exact .inr h

theorem runRequest_cfg {s t : State} (h : runRequest s = .next t) : t.cfg = s.cfg := by
  cases hl : s.latched with
  | error e =>
    simp only [runRequest, hl] at h
    cases h
    simp
  | ok i =>
    obtain ⟨hrun, hexec⟩ := runRequest_latched hl
    rw [hrun, hexec] at h
    rcases afterChecks_next h with ⟨e, -, rfl⟩ | h
    · exact finishCheck_cfg s e
    · exact listStep_cfg (opStore_cfg s.reqOp) h

theorem idleTurn_cfg (s : State) : s.idleTurn.cfg = s.cfg := by
  unfold State.idleTurn
  split
  · split <;> simp
  · split <;> simp

/-- Settles O14: each of the four kinds of step keeps the configuration. -/
theorem configurationNeverChanges : Obligations.ConfigurationNeverChanges := by
  intro s t h
  rcases step_cases s with ⟨-, he⟩ | ⟨-, -, he⟩ | ⟨-, -, item, rest, -, he⟩ | ⟨-, -, -, -, he⟩ | ⟨-, -, -, -, he⟩ <;>
    rw [he] at h
  · cases h
  · cases h
    simp
  · exact runBench_cfg (s := { s with bench := rest }) h
  · exact runRequest_cfg h
  · cases h
    exact idleTurn_cfg s

/-! ### The limits of a configuration -/

theorem step_of_invalid {s : State} (h : s.cfg.valid = false) : step s = .refused .badConfiguration := by
  simp [step, h]

theorem invalid_of_broken_limit {cfg : Config} {limit : Bool} (hmem : limit ∈ cfg.limits) (h : limit = false) :
    cfg.valid = false :=
  List.all_eq_false.mpr ⟨limit, hmem, by simp [h]⟩

/-- Settles O15: each disjunct breaks one entry of the list of limits. -/
theorem badConfigurationIsRefused : Obligations.BadConfigurationIsRefused := by
  refine ⟨fun s => step_of_invalid, fun cfg h => ?_⟩
  rcases h with h | h | h | h | h | h | h
  · exact invalid_of_broken_limit (limit := decide (cfg.numCs ≤ 16)) (by simp [Config.limits])
      (decide_eq_false h.not_ge)
  · exact invalid_of_broken_limit (limit := decide (cfg.blocksPerCs ≤ 65536)) (by simp [Config.limits])
      (decide_eq_false h.not_ge)
  · exact invalid_of_broken_limit (limit := decide (cfg.pagesPerBlock ≤ 256)) (by simp [Config.limits])
      (decide_eq_false h.not_ge)
  · exact invalid_of_broken_limit (limit := decide (cfg.rows ≤ 256 ^ cfg.rowCycles)) (by simp [Config.limits])
      (decide_eq_false h.not_ge)
  · exact invalid_of_broken_limit (limit := decide (1 ≤ cfg.expectedId.length)) (by simp [Config.limits]) (by simp [h])
  · exact invalid_of_broken_limit (limit := cfg.readyTimeout.wf) (by simp [Config.limits]) (by simp [h, ReadyBound.wf])
  · exact invalid_of_broken_limit (limit := decide cfg.commandList.Nodup) (by simp [Config.limits])
      (decide_eq_false h)

end Sys2Proof.Machine
end

section
/-! PROOFS. What a step from any state leaves unchanged: the frame of the phases and of the requests, the request and
response ports, and where the buffers are written (10_state.md R23 to R34, 42_phases.md, 40_operations.md). -/

namespace Sys2Proof.Machine

/-! ### Phases and words driven at the device directly -/

/-- A phase driven at the device completes, or is a wait that holds and goes back on the bench (42_phases.md R167). -/
theorem exec_ofPhase_cases {p : Phase} {s t : State} (h : exec (Instr.ofPhase p) s = .next t) :
    (∃ r, Performed p s r t) ∨ (p = .waitRdy .inf ∧ s.cfg.device = .general ∧
      ∃ a n, t = { s with answers := a, draws := n, bench := .phase (encodePhase p) :: s.bench }) := by
  rw [exec_ofPhase] at h
  cases hp : perform p s <;> rw [hp] at h <;> cases h
  case done r => exact .inl ⟨r, perform_done hp⟩
  case hold =>
    obtain ⟨hwait, hg, a, n, rfl⟩ := perform_hold hp
    exact .inr ⟨hwait, hg, a, n, rfl⟩

theorem State.SameOtherDies.of_dies_eq {s t : State} (h : t.dies = s.dies) : State.SameOtherDies s t :=
  ⟨by rw [h], fun _ _ => by rw [h]⟩

theorem State.SameImages.of_dies_eq {s t : State} (h : t.dies = s.dies) : State.SameImages s t :=
  fun c a => by simp [State.imageByte, h]

/-- Settles O54, by the two ways a phase can go on. -/
theorem phasesLeaveTheRestUnchanged : Obligations.PhasesLeaveTheRestUnchanged := by
  intro p s t h
  rcases exec_ofPhase_cases h with ⟨r, P⟩ | ⟨rfl, hg, a, n, rfl⟩
  · exact ⟨P.regs, P.csSel, P.wpAsserted, P.wp, P.sel, performed_others P, .inl ⟨P.bench, r, P.completes, P.trace⟩,
      performed_images P⟩
  · exact ⟨{ State.SameRegisters.rfl' s with }, rfl, rfl, rfl, rfl, .of_dies_eq rfl, .inr ⟨rfl, hg, rfl, rfl⟩,
      fun _ _ => .of_dies_eq rfl⟩

theorem DeviceEffect.sameRegisters {storing : Bool} {s t : State} (h : DeviceEffect storing s t) :
    State.SameRegisters s t := by
  rcases h with rfl | ⟨c, d, d', n, -, -, rfl, -⟩
  · exact .rfl' _
  · exact { State.SameRegisters.rfl' s with }

/-- A word driven at the device directly writes none of the controller's registers. -/
theorem runBench_sameRegisters {item : BenchItem} {s t : State} (h : runBench item s = .next t) :
    State.SameRegisters s t := by
  cases item with
  | phase r =>
    simp only [runBench] at h
    split at h
    · next i hi =>
      obtain ⟨p, rfl⟩ := decodePhase_ok hi
      exact (phasesLeaveTheRestUnchanged p s t h).1
    · cases h
  | command b =>
    simp only [runBench] at h
    split at h
    · next i hi =>
      obtain ⟨k, rfl⟩ := decodeCommand_ok hi
      exact (nandCmd_effect h).sameRegisters
    · exact (unknownCommand_effect h).sameRegisters

/-! ### A step of a request, in any state -/

/-- What a step of a request can be, legal state or not: a check that ends it, its response, the fault of a timeout, a
phase that holds, a phase after which `phase_pc` moves, a phase whose bytes are stored first. -/
inductive RequestMove (check : Option Ending) (phases : List Phase) (store : List Byte → State → State)
    (finish : State → Resp) (s : State) : State → Prop
  | checked (e : Ending) : check = some e → RequestMove check phases store finish s (s.finishCheck e)
  | responded : RequestMove check phases store finish s (s.respond (finish s))
  | raised : RequestMove check phases store finish s (s.raise .deviceTimeout)
  | held (a : List Answer) (n : Nat) : RequestMove check phases store finish s { s with answers := a, draws := n }
  | moved (p : Phase) (r : Completion) (u : State) (k : BitVec 4) :
    phases[s.phasePc.toNat]? = some p ∨ p = .setWp true ∨ p = .deselect → Performed p s r u →
    RequestMove check phases store finish s (u.goto k)
  | stored (n : Nat) (l : List Byte) (u : State) :
    phases[s.phasePc.toNat]? = some (.din n) → Performed (.din n) s (.bytes l) u →
    RequestMove check phases store finish s (store l u).bumpPc

section

variable {check : Option Ending} {phases : List Phase} {store : List Byte → State → State} {path : CleanupPath}
  {finish : State → Resp} {s t : State}

/-- Only a `DIN` hands bytes back (30_encoding.md R96). -/
theorem completes_bytes {p : Phase} {l : List Byte} (h : p.Completes (.bytes l)) : p = .din l.length := by
  cases p <;> simp [Phase.Completes] at h
  case din n => rw [h]

/-- A phase of the list, or of a cleanup path (60_exceptions.md R196), settled. -/
theorem requestMove_of_settle {p : Phase} {store' : List Byte → State → State}
    (hp : (phases[s.phasePc.toNat]? = some p ∧ store' = store) ∨ p = .setWp true ∨ p = .deselect)
    (h : settle store' path (perform p s) = .next t) : RequestMove check phases store finish s t := by
  rcases settle_next h with ⟨u, hu, rfl⟩ | ⟨u, hu, rfl⟩ | ⟨u, hu | hu, rfl⟩ | ⟨l, u, hu, rfl⟩
  · obtain ⟨-, -, a, n, rfl⟩ := perform_hold hu
    exact .held a n
  · exact .moved p _ u _ (hp.imp_left And.left) (perform_done hu)
  · exact .moved p _ u _ (hp.imp_left And.left) (perform_done hu)
  · exact .moved p _ u _ (hp.imp_left And.left) (perform_done hu)
  · have P := perform_done hu
    obtain rfl := completes_bytes P.completes
    rcases hp with ⟨hp, rfl⟩ | hp | hp
    · exact .stored _ l u hp P
    · cases hp
    · cases hp

/-- The one inversion of a step of a request from any state. -/
theorem requestMove_of_next (h : afterChecks check s (listStep phases store path finish s) = .next t) :
    RequestMove check phases store finish s t := by
  rcases afterChecks_next h with ⟨e, he, rfl⟩ | h
  · exact .checked e he
  · rcases listStep_cases s with ⟨p, hp, he⟩ | ⟨-, he⟩ | ⟨-, he⟩ <;> rw [he] at h
    · exact requestMove_of_settle (.inl ⟨hp, rfl⟩) h
    · cases h
      exact .responded
    · rcases cleanupStep_cases path s with ⟨-, -, he⟩ | ⟨-, -, he⟩ | ⟨-, -, he⟩ | ⟨he, -⟩ <;> rw [he] at h
      · exact requestMove_of_settle (.inr (.inl rfl)) h
      · exact requestMove_of_settle (.inr (.inr rfl)) h
      · cases h
        exact .raised
      · cases h

/-! ### What a step of a request leaves unchanged -/

/-- What no step of a request writes: the configuration, the latch, the host's side of the ports, the reset input, the
bench and the responses delivered (10_state.md R23, R32, R34). -/
structure State.SamePorts (s t : State) : Prop where
  cfg : t.cfg = s.cfg
  reqOp : t.reqOp = s.reqOp
  reqCs : t.reqCs = s.reqCs
  reqBlock : t.reqBlock = s.reqBlock
  reqPage : t.reqPage = s.reqPage
  reqLen : t.reqLen = s.reqLen
  requests : t.requests = s.requests
  hostTakes : t.hostTakes = s.hostTakes
  rst : t.rst = s.rst
  bench : t.bench = s.bench
  delivered : t.delivered = s.delivered

/-- The controller's three buffers (10_state.md R24 to R26). -/
structure State.SameBuffers (s t : State) : Prop where
  dbuf : t.dbuf = s.dbuf
  idbuf : t.idbuf = s.idbuf
  statusReg : t.statusReg = s.statusReg

theorem State.SamePorts.rfl' (s : State) : State.SamePorts s s :=
  ⟨rfl, rfl, rfl, rfl, rfl, rfl, rfl, rfl, rfl, rfl, rfl⟩

theorem State.SameBuffers.rfl' (s : State) : State.SameBuffers s s := ⟨rfl, rfl, rfl⟩

theorem Performed.samePorts {p : Phase} {r : Completion} (P : Performed p s r t) : State.SamePorts s t :=
  { P.regs with bench := P.bench }

theorem Performed.sameBuffers {p : Phase} {r : Completion} (P : Performed p s r t) : State.SameBuffers s t :=
  { P.regs with }

/-- The bytes of a `DIN` are stored into the controller's buffers and nowhere else. -/
def StoresToBuffers (store : List Byte → State → State) : Prop :=
  ∀ l s, ∃ dbuf idbuf statusReg, store l s = { s with dbuf := dbuf, idbuf := idbuf, statusReg := statusReg }

theorem storeId_toBuffers : StoresToBuffers storeId := fun l s => ⟨s.dbuf, l, s.statusReg, rfl⟩

theorem storeStatus_toBuffers : StoresToBuffers storeStatus := fun _ s => ⟨s.dbuf, s.idbuf, _, rfl⟩

theorem storePage_toBuffers : StoresToBuffers storePage := fun l s => ⟨l, s.idbuf, s.statusReg, rfl⟩

theorem storeNothing_toBuffers : StoresToBuffers storeNothing := fun _ s => ⟨s.dbuf, s.idbuf, s.statusReg, rfl⟩

theorem opStore_toBuffers (op : BitVec 4) : StoresToBuffers (opStore op) := by
  intro l s
  fun_cases opStore op
  case case1 => exact storeId_toBuffers l s
  case case2 => exact storeStatus_toBuffers l s
  case case3 => exact storeStatus_toBuffers l s
  case case4 => exact storePage_toBuffers l s
  case case5 => exact storeNothing_toBuffers l s

theorem RequestMove.samePorts (h : RequestMove check phases store finish s t) (hs : StoresToBuffers store) :
    State.SamePorts s t := by
  cases h with
  | checked e _ => cases e <;> exact { State.SamePorts.rfl' s with }
  | responded => exact { State.SamePorts.rfl' s with }
  | raised => exact { State.SamePorts.rfl' s with }
  | held a n => exact { State.SamePorts.rfl' s with }
  | moved p r u k _ P => exact { P.samePorts with }
  | stored n l u _ P =>
    obtain ⟨dbuf, idbuf, statusReg, he⟩ := hs l u
    rw [he]
    exact { P.samePorts with }

/-- The buffers stay as they are, but at a `DIN` of the list. -/
theorem RequestMove.buffers (h : RequestMove check phases store finish s t) : State.SameBuffers s t ∨
    ∃ n l u, phases[s.phasePc.toNat]? = some (.din n) ∧ State.SameBuffers s u ∧ t = (store l u).bumpPc := by
  cases h with
  | checked e _ => cases e <;> exact .inl { State.SameBuffers.rfl' s with }
  | responded => exact .inl { State.SameBuffers.rfl' s with }
  | raised => exact .inl { State.SameBuffers.rfl' s with }
  | held a n => exact .inl { State.SameBuffers.rfl' s with }
  | moved p r u k _ P => exact .inl { P.sameBuffers with }
  | stored n l u hp P => exact .inr ⟨n, l, u, hp, P.sameBuffers, rfl⟩

/-- The dice stay as they are, but for one phase of the list or of a cleanup path. -/
theorem RequestMove.dies (h : RequestMove check phases store finish s t) (hs : StoresToBuffers store) :
    t.dies = s.dies ∨ ∃ p r u, (phases[s.phasePc.toNat]? = some p ∨ p = .setWp true ∨ p = .deselect) ∧
      Performed p s r u ∧ t.dies = u.dies := by
  cases h with
  | checked e _ => cases e <;> exact .inl rfl
  | responded => exact .inl rfl
  | raised => exact .inl rfl
  | held a n => exact .inl rfl
  | moved p r u k hp P => exact .inr ⟨p, r, u, hp, P, rfl⟩
  | stored n l u hp P =>
    obtain ⟨dbuf, idbuf, statusReg, he⟩ := hs l u
    exact .inr ⟨.din n, _, u, .inl hp, P, by rw [he]; rfl⟩

theorem RequestMove.sameOtherDies (h : RequestMove check phases store finish s t) (hs : StoresToBuffers store) :
    State.SameOtherDies s t := by
  rcases h.dies hs with h | ⟨p, r, u, -, P, h⟩
  · exact .of_dies_eq h
  · have hu := performed_others P
    unfold State.SameOtherDies
    rwa [h]

theorem RequestMove.sameImages (h : RequestMove check phases store finish s t) (hs : StoresToBuffers store)
    (hq : ∀ p, phases[s.phasePc.toNat]? = some p → s.storesIn p = false ∧
      (p.waits = true → ∀ (c : Nat) (d : Die), s.dies[c]? = some d → d.pend = none)) : State.SameImages s t := by
  rcases h.dies hs with h | ⟨p, r, u, hp, P, h⟩
  · exact .of_dies_eq h
  · have hu : State.SameImages s u := by
      rcases hp with hp | rfl | rfl
      · obtain ⟨hst, hw⟩ := hq p hp
        exact performed_images P hst hw
      · exact performed_images P rfl (fun hw => nomatch hw)
      · exact performed_images P rfl (fun hw => nomatch hw)
    intro c a
    rw [← hu c a]
    simp [State.imageByte, h]

/-- A request ends with a response, or runs on with the response port as it was (10_state.md R21, R27). -/
theorem RequestMove.ended_or_running (h : RequestMove check phases store finish s t) (hs : StoresToBuffers store)
    (hcheck : ∀ r, check = some (.respond r) → r ≠ .none) (hfinish : finish s ≠ .none) :
    (t.ctl = .idle ∧ t.resp ≠ .none ∧ t.phasePc = 0) ∨ (t.ctl = s.ctl ∧ t.resp = s.resp) := by
  cases h with
  | checked e he =>
    cases e with
    | respond r => exact .inl ⟨rfl, hcheck r he, rfl⟩
    | raise f => exact .inl ⟨rfl, (fun h => nomatch h), rfl⟩
  | responded => exact .inl ⟨rfl, hfinish, rfl⟩
  | raised => exact .inl ⟨rfl, (fun h => nomatch h), rfl⟩
  | held a n => exact .inr ⟨rfl, rfl⟩
  | moved p r u k _ P => exact .inr ⟨P.regs.ctl, P.regs.resp⟩
  | stored n l u _ P =>
    obtain ⟨dbuf, idbuf, statusReg, he⟩ := hs l u
    rw [he]
    exact .inr ⟨P.regs.ctl, P.regs.resp⟩

end

/-! ### The four requests -/

/-- Where a request puts the bytes of its `DIN` (40_operations.md R121, R124, R127, R130). -/
def Instr.dinStore : Instr → List Byte → State → State
  | .identify _ => storeId
  | .eraseBlock _ _ => storeStatus
  | .programPage _ _ _ => storeStatus
  | .readPage _ _ _ => storePage
  | _ => storeNothing

theorem dinStore_toBuffers (i : Instr) : StoresToBuffers (Instr.dinStore i) := by
  cases i
  case identify => exact storeId_toBuffers
  case eraseBlock => exact storeStatus_toBuffers
  case programPage => exact storeStatus_toBuffers
  case readPage => exact storePage_toBuffers
  all_goals exact storeNothing_toBuffers

/-- Only IDENTIFY stores to `idbuf` (10_state.md R25). -/
theorem dinStore_idbuf (i : Instr) (l : List Byte) (s : State) :
    (Instr.dinStore i l s).idbuf = s.idbuf ∨ ∃ cs, i = .identify cs := by
  cases i
  case identify cs => exact .inr ⟨cs, rfl⟩
  all_goals exact .inl rfl

/-- Only ERASE_BLOCK and PROGRAM_PAGE store to `status_reg` (10_state.md R26). -/
theorem dinStore_statusReg (i : Instr) (l : List Byte) (s : State) : (Instr.dinStore i l s).statusReg = s.statusReg ∨
    (∃ cs b, i = .eraseBlock cs b) ∨ ∃ cs b p, i = .programPage cs b p := by
  cases i
  case eraseBlock cs b => exact .inr (.inl ⟨cs, b, rfl⟩)
  case programPage cs b p => exact .inr (.inr ⟨cs, b, p, rfl⟩)
  all_goals exact .inl rfl

/-- Only READ_PAGE stores to `dbuf` (10_state.md R24). -/
theorem dinStore_dbuf (i : Instr) (l : List Byte) (s : State) :
    (Instr.dinStore i l s).dbuf = s.dbuf ∨ ∃ cs b p, i = .readPage cs b p := by
  cases i
  case readPage cs b p => exact .inr ⟨cs, b, p, rfl⟩
  all_goals exact .inl rfl

/-- A step of one of the four requests, by its own phase list and store. -/
theorem exec_request_move {i : Instr} {s t : State} (h : exec i s = .next t)
    (hi : (∃ cs, i = .identify cs) ∨ (∃ cs b, i = .eraseBlock cs b) ∨ (∃ cs b p, i = .programPage cs b p) ∨
      ∃ cs b p, i = .readPage cs b p) :
    ∃ check finish, RequestMove check (s.phasesOf i) (Instr.dinStore i) finish s t := by
  rcases hi with ⟨cs, rfl⟩ | ⟨cs, b, rfl⟩ | ⟨cs, b, p, rfl⟩ | ⟨cs, b, p, rfl⟩
  · exact ⟨_, _, requestMove_of_next h⟩
  · exact ⟨_, _, requestMove_of_next h⟩
  · exact ⟨_, _, requestMove_of_next h⟩
  · exact ⟨_, _, requestMove_of_next h⟩

/-- Settles O55, by what a step of a request can be. -/
theorem requestStepsLeaveTheRestUnchanged : Obligations.RequestStepsLeaveTheRestUnchanged := by
  intro i s t h hi
  obtain ⟨check, finish, hm⟩ := exec_request_move h hi
  have hs := dinStore_toBuffers i
  have hp := hm.samePorts hs
  refine ⟨hp.cfg, hp.reqOp, hp.reqCs, hp.reqBlock, hp.reqPage, hp.reqLen, hp.requests, hp.hostTakes, hp.rst, hp.bench,
    hp.delivered, ?_, ?_, ?_, hm.sameOtherDies hs, hm.sameImages hs⟩
  all_goals rcases hm.buffers with hb | ⟨n, l, u, -, hb, rfl⟩
  · exact .inl hb.idbuf
  · exact hb.idbuf ▸ dinStore_idbuf i l u
  · exact .inl hb.statusReg
  · exact hb.statusReg ▸ dinStore_statusReg i l u
  · exact .inl hb.dbuf
  · exact hb.dbuf ▸ dinStore_dbuf i l u

/-! ### The request in the latch -/

/-- A busy controller's step outside reset and bench. -/
theorem runRequest_of_step {s t : State} (hr : s.rst = false) (hb : s.bench = []) (hc : s.ctl = .busy)
    (h : step s = .next t) : s.cfg.valid = true ∧ runRequest s = .next t := by
  rcases step_cases s with ⟨-, he⟩ | ⟨-, hr', -⟩ | ⟨-, -, item, rest, hb', -⟩ | ⟨hv, -, -, -, he⟩ | ⟨-, -, -, hc', -⟩
  · rw [he] at h
    cases h
  · simp [hr] at hr'
  · simp [hb] at hb'
  · exact ⟨hv, he ▸ h⟩
  · simp [hc] at hc'

/-- An idle controller's step outside reset and bench. -/
theorem idleTurn_of_step {s t : State} (hr : s.rst = false) (hb : s.bench = []) (hc : s.ctl = .idle)
    (h : step s = .next t) : t = s.idleTurn := by
  rcases step_cases s with ⟨-, he⟩ | ⟨-, hr', -⟩ | ⟨-, -, item, rest, hb', -⟩ | ⟨-, -, -, hc', -⟩ | ⟨-, -, -, -, he⟩
  · rw [he] at h
    cases h
  · simp [hr] at hr'
  · simp [hb] at hb'
  · simp [hc] at hc'
  · rw [he] at h
    cases h
    rfl

/-- The step of the request in the latch: FAULT(ReservedRequest) where it holds none. -/
theorem runRequest_cases {s t : State} (h : runRequest s = .next t) :
    t = s.raise .reservedRequest ∨ ∃ i, s.latched = .ok i ∧
      RequestMove s.latchCheck s.latchPhases (opStore s.reqOp) State.latchResp s t := by
  cases hl : s.latched with
  | error e =>
    simp only [runRequest, hl, Host.Outcome.next.injEq] at h
    exact .inl h.symm
  | ok i =>
    obtain ⟨hrun, hexec⟩ := runRequest_latched hl
    rw [hrun, hexec] at h
    exact .inr ⟨i, rfl, requestMove_of_next h⟩

/-- The only response by a check is ABSENT (60_exceptions.md R193). -/
theorem requestCheck_respond {cfg : Config} {op cs : BitVec 4} {block : BitVec 16} {page : BitVec 8} {len : Nat}
    {r : Resp} (h : requestCheck cfg op cs block page len = some (.respond r)) : r = .absent := by
  unfold requestCheck at h
  split_ifs at h <;> cases h
  rfl

theorem latchResp_ne_none {s : State} {i : Instr} (h : s.latched = .ok i) : s.latchResp ≠ .none := by
  rcases latch_ok_op h with ho | ho | ho | ho <;> simp [State.latchResp, ho]

/-- Settles O20: a step of the request ends it with a response, or leaves the response port as it was. -/
theorem busyEndsWithAResponse : Obligations.BusyEndsWithAResponse := by
  intro s t hr hb hc h
  have hcases : (t.ctl = .idle ∧ t.resp ≠ .none ∧ t.phasePc = 0) ∨ (t.ctl = s.ctl ∧ t.resp = s.resp) := by
    rcases runRequest_cases (runRequest_of_step hr hb hc h).2 with rfl | ⟨i, hl, hm⟩
    · exact .inl ⟨rfl, (fun h => nomatch h), rfl⟩
    · refine hm.ended_or_running (opStore_toBuffers _) (fun r he => ?_) (latchResp_ne_none hl)
      rw [requestCheck_respond he]
      exact fun h => nomatch h
  rcases hcases with ⟨hidle, hresp, hpc⟩ | ⟨hbusy, hresp⟩
  · exact ⟨fun _ => ⟨hresp, hpc⟩, fun hbusy => by simp [hidle] at hbusy⟩
  · exact ⟨fun hidle => by simp [hbusy, hc] at hidle, fun _ => hresp⟩

theorem runRequest_requests {s t : State} (h : runRequest s = .next t) : t.requests = s.requests := by
  rcases runRequest_cases h with rfl | ⟨i, -, hm⟩
  · rfl
  · exact (hm.samePorts (opStore_toBuffers _)).requests

/-! ### The ports -/

theorem idleTurn_accept {s : State} {r : Request} {rest : List Request} (hr : s.resp = .none)
    (hq : s.requests = r :: rest) : s.idleTurn = s.accept r := by
  simp [State.idleTurn, hr, hq]

theorem idleTurn_consume {s : State} (hr : s.resp ≠ .none) (ht : s.hostTakes = true) : s.idleTurn = s.consume := by
  simp [State.idleTurn, hr, ht]

theorem idleTurn_wait {s : State} (hr : s.resp ≠ .none) (ht : s.hostTakes = false) : s.idleTurn = s := by
  simp [State.idleTurn, hr, ht]

/-- What an idle controller's turn can be: acceptance, with no response waiting, consumption, or nothing. -/
theorem idleTurn_cases (s : State) :
    (s.resp = .none ∧ ∃ r, s.idleTurn = s.accept r) ∨ s.idleTurn = s.consume ∨ s.idleTurn = s := by
  unfold State.idleTurn
  split
  · next hr =>
    split
    · exact .inr (.inr rfl)
    · exact .inl ⟨hr, _, rfl⟩
  · split
    · exact .inr (.inl rfl)
    · exact .inr (.inr rfl)

theorem step_idle {s : State} (hv : s.cfg.valid = true) (hr : s.rst = false) (hb : s.bench = []) (hc : s.ctl = .idle) :
    step s = .next s.idleTurn := by
  simp [step, hv, hr, hb, hc]

/-- Settles O17: an idle controller's turn with a request on the port and no response waiting accepts the request. -/
theorem acceptanceLatchesTheRequest : Obligations.AcceptanceLatchesTheRequest := by
  intro s r rest hv hr hb hc hresp hq
  obtain rfl : s.requests.tail = rest := by rw [hq, List.tail_cons]
  rw [step_idle hv hr hb hc, idleTurn_accept hresp hq]
  rfl

/-- Settles O19: an idle controller's turn with a response waiting is its consumption, if the host takes it. -/
theorem consumptionOfAResponse : Obligations.ConsumptionOfAResponse := by
  intro s hv hr hb hc hresp
  rw [step_idle hv hr hb hc]
  refine ⟨fun ht => ?_, fun ht => ?_⟩
  · rw [idleTurn_consume hresp ht]
    rfl
  · rw [idleTurn_wait hresp ht]

/-- Settles O18: of the kinds of step only an idle controller's turn touches the requests, and with a response waiting it
accepts none. -/
theorem heldRequestIsNotAccepted : Obligations.HeldRequestIsNotAccepted := by
  intro s t hheld h
  rcases step_cases s with ⟨-, he⟩ | ⟨-, -, he⟩ | ⟨-, -, item, rest, -, he⟩ | ⟨-, -, -, -, he⟩ | ⟨-, -, -, hc, he⟩ <;>
    rw [he] at h
  · cases h
  · cases h
    rfl
  · exact (runBench_sameRegisters h).requests
  · exact runRequest_requests h
  · cases h
    have hresp : s.resp ≠ .none := hheld.resolve_left (by simp [hc])
    cases ht : s.hostTakes with
    | true => rw [idleTurn_consume hresp ht, State.consume_requests]
    | false => rw [idleTurn_wait hresp ht]

/-! ### Where the buffers are written -/

/-- The indices of the phase lists at which a `DIN` stands (40_operations.md R121, R124, R127, R130). -/
theorem latchPhases_din {s : State} {n : Nat} (hn : s.cfg.commandList.Nodup)
    (h : s.latchPhases[s.phasePc.toNat]? = some (.din n)) :
    (s.reqOp = 1 ∧ s.phasePc = 3) ∨ (s.reqOp = 2 ∧ s.phasePc = 7) ∨ (s.reqOp = 3 ∧ s.phasePc = 8) ∨
      (s.reqOp = 4 ∧ s.phasePc = 5) := by
  have hpc : ∀ k : BitVec 4, s.phasePc.toNat = k.toNat → s.phasePc = k := fun _ => BitVec.eq_of_toNat_eq
  rcases (latchPhases_at hn h).din n rfl with ⟨ho, hk, -⟩ | ⟨ho, hk, -⟩ | ⟨ho, hk, -⟩ | ⟨ho, hk, -⟩
  · exact .inl ⟨ho, hpc 3 hk⟩
  · exact .inr (.inl ⟨ho, hpc 7 hk⟩)
  · exact .inr (.inr (.inl ⟨ho, hpc 8 hk⟩))
  · exact .inr (.inr (.inr ⟨ho, hpc 5 hk⟩))

/-- A step of the request in the latch writes one buffer at most, at the `DIN` of its list. -/
theorem runRequest_buffers {s t : State} (hv : s.cfg.valid = true) (h : runRequest s = .next t) :
    (t.statusReg ≠ s.statusReg → (s.reqOp = 2 ∧ s.phasePc = 7) ∨ (s.reqOp = 3 ∧ s.phasePc = 8)) ∧
    (t.idbuf ≠ s.idbuf → s.reqOp = 1 ∧ s.phasePc = 3) ∧ (t.dbuf ≠ s.dbuf → s.reqOp = 4 ∧ s.phasePc = 5) := by
  have hwritten : State.SameBuffers s t ∨ ∃ n l u, s.latchPhases[s.phasePc.toNat]? = some (.din n) ∧
      State.SameBuffers s u ∧ t = (opStore s.reqOp l u).bumpPc := by
    rcases runRequest_cases h with rfl | ⟨i, -, hm⟩
    · exact .inl { State.SameBuffers.rfl' s with }
    · exact hm.buffers
  rcases hwritten with hb | ⟨n, l, u, hp, hb, rfl⟩
  · exact ⟨fun hne => absurd hb.statusReg hne, fun hne => absurd hb.idbuf hne, fun hne => absurd hb.dbuf hne⟩
  · rcases latchPhases_din (valid_nodup hv) hp with ⟨ho, hk⟩ | ⟨ho, hk⟩ | ⟨ho, hk⟩ | ⟨ho, hk⟩ <;>
      simp [ho, hk, opStore, hb.statusReg, hb.idbuf, hb.dbuf]

theorem runRequest_latch {s t : State} (h : runRequest s = .next t) : t.reqOp = s.reqOp ∧ t.reqCs = s.reqCs ∧
    t.reqBlock = s.reqBlock ∧ t.reqPage = s.reqPage ∧ t.reqLen = s.reqLen := by
  rcases runRequest_cases h with rfl | ⟨i, -, hm⟩
  · exact ⟨rfl, rfl, rfl, rfl, rfl⟩
  · have hp := hm.samePorts (opStore_toBuffers _)
    exact ⟨hp.reqOp, hp.reqCs, hp.reqBlock, hp.reqPage, hp.reqLen⟩

/-- Settles O59: a busy controller writes a buffer at a `DIN` of its list, an idle one the latch and `dbuf` at
acceptance. -/
theorem buffersAreWrittenOnlyWhereTheRulesSay : Obligations.BuffersAreWrittenOnlyWhereTheRulesSay := by
  intro s t hr hb h
  cases hc : s.ctl with
  | busy =>
    obtain ⟨hv, hrun⟩ := runRequest_of_step hr hb hc h
    obtain ⟨hstatus, hid, hd⟩ := runRequest_buffers hv hrun
    obtain ⟨hop, hcs, hblock, hpage, hlen⟩ := runRequest_latch hrun
    exact ⟨fun hne => ⟨rfl, hstatus hne⟩, fun hne => ⟨rfl, hid hne⟩, fun hne => .inl ⟨rfl, hd hne⟩,
      fun hne => by simp [hop, hcs, hblock, hpage, hlen] at hne⟩
  | idle =>
    obtain rfl := idleTurn_of_step hr hb hc h
    rcases idleTurn_cases s with ⟨-, r, he⟩ | he | he <;> rw [he]
    · refine ⟨fun hne => absurd rfl hne, fun hne => absurd rfl hne, fun hne => .inr ⟨rfl, rfl, ?_⟩, fun _ => ⟨rfl, rfl⟩⟩
      by_contra hop
      exact hne (if_neg fun hd => hop hd.1)
    · simp
    · simp

end Sys2Proof.Machine
end

section
/-! PROOFS. The controller's state (10_state.md): every step from a legal state leaves a legal state (R22 to R32). -/

namespace Sys2Proof.Machine

/-! ### An idle controller's turn -/

/-- Consuming a response keeps a legal state (10_state.md R34). -/
theorem consume_inv {s : State} (hi : s.Inv) : s.consume.Inv :=
  { hi with
    resp := trivial
    busyResp := fun _ => rfl }

/-- In an idle legal state no array effect is in progress (70_reset_and_hazards.md R225). -/
theorem idle_pend {s : State} (hi : s.Inv) (hc : s.ctl = .idle) {c : Nat} {d : Die} (hd : s.dies[c]? = some d) :
    d.pend = none := by
  by_contra hp
  obtain ⟨-, -, hb, -⟩ := hi.pend c d hd hp
  rw [hc] at hb
  cases hb

/-- Nothing is latched before a request's first phase. -/
theorem latchAt_zero (cfg : Config) (op : BitVec 4) (block : BitVec 16) (page : BitVec 8) :
    latchAt cfg op block page 0 = none := by
  unfold latchAt
  split <;> simp_all

/-- Before a request's first phase its index is legal, no die is selected and write protection is not released. -/
theorem index_zero (op : BitVec 4) :
    legalPc op 0 = true ∧ selectedAt op 0 = false ∧ releasedAt op 0 = false := by
  revert op
  decide

/-- Accepting a request keeps a legal state (10_state.md R33). -/
theorem accept_inv {s : State} (hi : s.Inv) (hc : s.ctl = .idle) (hr : s.resp = .none) (r : Request) :
    (s.accept r).Inv := by
  obtain ⟨hpc, hsel, hrel⟩ := index_zero (wordOp r.word)
  obtain ⟨-, hcs, hwp⟩ := hi.idle hc
  exact { hi with
    dbuf := by
      rw [State.accept_dbuf]
      split
      · next h => exact h.2
      · exact hi.dbuf
    idle := fun h => nomatch h
    busyResp := fun _ => hr
    busyPc := fun _ => hpc
    busySel := fun _ => by simp [hsel, hcs]
    busyWp := fun _ => by simp [hrel, hwp]
    busyChecked := fun _ h => absurd rfl h
    busyDie := fun _ h => by simp [hsel] at h
    busyLatch := fun _ m a h => by simp [latchAt_zero] at h
    pend := fun c d hd hp => absurd (idle_pend hi hc hd) hp }

/-- An idle controller's turn keeps a legal state, whatever the host does (10_state.md R32, R34). -/
theorem idleTurn_inv {s : State} (hi : s.Inv) (hc : s.ctl = .idle) : s.idleTurn.Inv := by
  rcases idleTurn_cases s with ⟨hr, r, he⟩ | he | he <;> rw [he]
  · exact accept_inv hi hc hr r
  · exact consume_inv hi
  · exact hi

/-! ### Reset -/

/-- A die after a reset: as it was, or with no array effect in progress (70_reset_and_hazards.md R222, R228). -/
theorem abandonDie_get {s : State} {c : Nat} {d : Die} (h : s.abandonDie[c]? = some d) :
    ∃ d0, s.dies[c]? = some d0 ∧
      (d = { d0 with unknown := true, pend := none, latched := none } ∨
        (d = d0 ∧ ¬(s.cfg.device = .general ∧ s.pastConfirm = true ∧ s.reqCs.toNat = c))) := by
  unfold State.abandonDie at h
  split at h
  · rw [List.getElem?_modify] at h
    obtain ⟨d0, hd0, he⟩ := Option.map_eq_some_iff.mp h
    refine ⟨d0, hd0, ?_⟩
    split at he
    · exact .inl he.symm
    · next hcs => exact .inr ⟨he.symm, fun hn => hcs hn.2.2⟩
  · next hn => exact ⟨d, h, .inr ⟨rfl, fun hc => hn ⟨hc.1, hc.2.1⟩⟩⟩

theorem abandonDie_length (s : State) : s.abandonDie.length = s.dies.length := by
  unfold State.abandonDie
  split <;> simp

/-- Where an array effect is in progress the request is past its confirm command (70_reset_and_hazards.md R228). -/
theorem pend_pastConfirm {s : State} (hi : s.Inv) {c : Nat} {d : Die} (hd : s.dies[c]? = some d) (hp : d.pend ≠ none) :
    s.cfg.device = .general ∧ s.pastConfirm = true ∧ s.reqCs.toNat = c := by
  obtain ⟨hg, -, hb, hcs, h⟩ := hi.pend c d hd hp
  refine ⟨hg, ?_, hcs⟩
  rcases h with ⟨ho, hk⟩ | ⟨ho, hk⟩ <;> simp [State.pastConfirm, hb, ho, hk]

/-- Reset at any step keeps a legal state: it abandons the array effect in progress (70_reset_and_hazards.md R220 to
R222, R228). -/
theorem applyReset_inv {s : State} (hi : s.Inv) : s.applyReset.Inv where
  cfg := hi.cfg
  bench := hi.bench
  dies := (abandonDie_length s).trans hi.dies
  diesWf := by
    intro d hd
    obtain ⟨c, hd⟩ := List.mem_iff_getElem?.mp hd
    obtain ⟨d0, hd0, hc⟩ := abandonDie_get hd
    have hw := hi.diesWf d0 (List.mem_iff_getElem?.mpr ⟨c, hd0⟩)
    rcases hc with rfl | ⟨rfl, -⟩
    · exact { hw with pend := fun p hp => nomatch hp }
    · exact hw
  dbuf := by simp
  idbuf := by simp
  resp := trivial
  wpLine := rfl
  selLine := rfl
  sel := fun c h => nomatch h
  idle := fun _ => ⟨rfl, rfl, rfl⟩
  busyResp := fun h => nomatch h
  busyPc := fun h => nomatch h
  busySel := fun h => nomatch h
  busyWp := fun h => nomatch h
  busyChecked := fun h => nomatch h
  busyDie := fun h => nomatch h
  busyLatch := fun h => nomatch h
  pend := by
    intro c d hd hp
    obtain ⟨d0, hd0, hc⟩ := abandonDie_get hd
    rcases hc with rfl | ⟨rfl, hn⟩
    · exact absurd rfl hp
    · exact absurd (pend_pastConfirm hi hd0 hp) hn

/-! ### The end of a request -/

/-- An array effect in progress stands at an index at which the die is selected. -/
theorem pend_selectedAt {op pc : BitVec 4} (h : (op = 2 ∧ pc = 5) ∨ (op = 3 ∧ pc = 6)) :
    selectedAt op pc.toNat = true := by
  rcases h with ⟨rfl, rfl⟩ | ⟨rfl, rfl⟩ <;> decide

/-- A response at an index at which no die is selected and write protection is asserted keeps a legal state
(10_state.md R27). -/
theorem respond_inv {s : State} (hi : s.Inv) (hb : s.ctl = .busy) (hsel : selectedAt s.reqOp s.phasePc.toNat = false)
    (hrel : releasedAt s.reqOp s.phasePc.toNat = false) {r : Resp} (hr : Resp.wf s.cfg r) : (s.respond r).Inv :=
  { hi with
    resp := hr
    idle := fun _ => ⟨rfl, by simpa [hsel] using hi.busySel hb, by simpa [hrel] using hi.busyWp hb⟩
    busyResp := fun h => nomatch h
    busyPc := fun h => nomatch h
    busySel := fun h => nomatch h
    busyWp := fun h => nomatch h
    busyChecked := fun h => nomatch h
    busyDie := fun h => nomatch h
    busyLatch := fun h => nomatch h
    pend := by
      intro c d hd hp
      obtain ⟨-, -, -, -, hk⟩ := hi.pend c d hd hp
      rw [pend_selectedAt hk] at hsel
      cases hsel }

/-- A fault response at such an index keeps a legal state: the faults of the run are free (60_exceptions.md R198). -/
theorem raise_inv {s : State} (hi : s.Inv) (hb : s.ctl = .busy) (hsel : selectedAt s.reqOp s.phasePc.toNat = false)
    (hrel : releasedAt s.reqOp s.phasePc.toNat = false) (f : FaultCode) : (s.raise f).Inv :=
  { respond_inv hi hb hsel hrel (r := .fault f) trivial with }

/-- A check that ends the request keeps a legal state (60_exceptions.md R193). -/
theorem finishCheck_inv {s : State} (hi : s.Inv) (hb : s.ctl = .busy) (h0 : s.phasePc = 0) {e : Ending}
    (he : s.latchCheck = some e) : (s.finishCheck e).Inv := by
  obtain ⟨-, hsel, hrel⟩ := index_zero s.reqOp
  rw [show 0 = s.phasePc.toNat by simp [h0]] at hsel hrel
  cases e with
  | respond r =>
    obtain rfl := requestCheck_respond he
    exact respond_inv hi hb hsel hrel trivial
  | raise f => exact raise_inv hi hb hsel hrel f

/-- After the last phase of a list no die is selected and write protection is asserted. -/
theorem index_end (op : BitVec 4) :
    selectedAt op (phaseCount op) = false ∧ releasedAt op (phaseCount op) = false := by
  revert op
  decide

/-- At the end of a cleanup path too. -/
theorem index_cleaned (op : BitVec 4) : selectedAt op 14 = false ∧ releasedAt op 14 = false := by
  revert op
  decide

/-- A response carries the lengths of its buffers (10_state.md R27). -/
theorem latchResp_wf {s : State} (hi : s.Inv) : Resp.wf s.cfg s.latchResp := by
  unfold State.latchResp
  split
  · exact hi.idbuf
  · trivial
  · trivial
  · exact hi.dbuf
  · trivial

/-! ### A phase of the request in progress -/

/-- The machine fits an index of the request in the latch: the outputs, what the selected die has latched and the array
effect in progress are those before the phase at that index (10_state.md R22, R28, R29; 20_memory.md R65). -/
structure State.FitsIndex (s : State) (k : BitVec 4) : Prop where
  pc : legalPc s.reqOp k.toNat = true
  csSel : s.csSel = if selectedAt s.reqOp k.toNat = true then some s.reqCs else none
  wp : s.wpAsserted = !releasedAt s.reqOp k.toNat
  latch : ∀ m a, latchAt s.cfg s.reqOp s.reqBlock s.reqPage k.toNat = some (m, a) →
    ∀ d, s.dies[s.reqCs.toNat]? = some d → d.mode = m ∧ d.abuf = a
  pend : ∀ (c : Nat) (d : Die), s.dies[c]? = some d → d.pend ≠ none →
    s.cfg.device = .general ∧ d.busy = true ∧ s.reqCs.toNat = c ∧ ((s.reqOp = 2 ∧ k = 5) ∨ (s.reqOp = 3 ∧ k = 6))

/-- A die after a phase: as before, or the selected one changed. -/
theorem DiesEffect.get {p : Phase} {s t : State} (h : DiesEffect p s t) {c : Nat} {d' : Die}
    (hd' : t.dies[c]? = some d') : ∃ d, s.dies[c]? = some d ∧
      (d' = d ∨ s.sel.map BitVec.toNat = some c ∧ DieChange s.cfg (s.storesIn p) p.waits d d') := by
  rcases h with h | ⟨c0, d, d1, hs, hd, h, hc⟩ <;> rw [h] at hd'
  · exact ⟨d', hd', .inl rfl⟩
  · by_cases hcc : c0.toNat = c
    · subst hcc
      rw [List.getElem?_set_self (List.getElem?_eq_some_iff.mp hd).1] at hd'
      obtain rfl := Option.some.inj hd'
      exact ⟨d, hd, .inr ⟨by simp [hs], hc⟩⟩
    · rw [List.getElem?_set_ne hcc] at hd'
      exact ⟨d', hd', .inl rfl⟩

/-- Every die stays as 20_memory.md R60 says. -/
theorem Performed.diesWf {p : Phase} {s u : State} {r : Completion} (h : Performed p s r u)
    (hw : ∀ d ∈ s.dies, Die.Wf s.cfg d) : ∀ d ∈ u.dies, Die.Wf u.cfg d := by
  intro d' hd'
  obtain ⟨c, hd'⟩ := List.mem_iff_getElem?.mp hd'
  obtain ⟨d, hd, hc⟩ := h.dies.get hd'
  have hwd := hw d (List.mem_iff_getElem?.mpr ⟨c, hd⟩)
  rw [h.regs.cfg]
  rcases hc with rfl | ⟨-, hc⟩
  · exact hwd
  · exact hc.wf hwd

/-- A phase moves the device's selection as it moves the output. -/
theorem nextSel_eq_nextCsSel (p : Phase) (x : Option (BitVec 4)) : p.nextSel x = p.nextCsSel x := by
  cases p <;> rfl

/-- A completed phase keeps a legal state, wherever `phase_pc` goes that fits the machine. -/
theorem goto_inv {s u : State} {p : Phase} {r : Completion} {k : BitVec 4} (hi : s.Inv) (hb : s.ctl = .busy)
    (hchk : s.latchCheck = none) (h : Performed p s r u) (hk : u.FitsIndex k) : (u.goto k).Inv := by
  have hbu : u.ctl = .busy := h.regs.ctl.trans hb
  have hsel : u.sel = u.csSel := by rw [h.sel, h.csSel, hi.selLine, nextSel_eq_nextCsSel]
  have hcheck : u.latchCheck = none := by
    rw [← hchk]
    simp [State.latchCheck, h.regs.cfg, h.regs.reqOp, h.regs.reqCs, h.regs.reqBlock, h.regs.reqPage, h.regs.reqLen]
  exact {
    cfg := (congrArg Config.valid h.regs.cfg).trans hi.cfg
    bench := h.bench.trans hi.bench
    dies := by simpa [h.regs.cfg, (performed_others h).1] using hi.dies
    diesWf := h.diesWf hi.diesWf
    dbuf := by simpa [h.regs.dbuf, h.regs.cfg] using hi.dbuf
    idbuf := by simpa [h.regs.idbuf, h.regs.cfg] using hi.idbuf
    resp := by simpa [h.regs.resp, h.regs.cfg] using hi.resp
    wpLine := by simp [h.wp, h.wpAsserted, hi.wpLine]
    selLine := hsel
    sel := by
      intro c hc
      have hcs : u.csSel = some c := hsel.symm.trans hc
      rw [hk.csSel, h.regs.reqCs] at hcs
      split at hcs <;> cases hcs
      simpa [h.regs.cfg] using checks_cs hchk
    idle := fun hc => by
      rw [State.goto_ctl, hbu] at hc
      cases hc
    busyResp := fun _ => h.regs.resp.trans (hi.busyResp hb)
    busyPc := fun _ => hk.pc
    busySel := fun _ => hk.csSel
    busyWp := fun _ => hk.wp
    busyChecked := fun _ _ => hcheck
    busyDie := fun _ hs => by
      rw [State.goto_reqOp, State.goto_phasePc] at hs
      rw [State.goto_sel, hsel, hk.csSel, if_pos hs, State.goto_reqCs]
    busyLatch := fun _ => hk.latch
    pend := fun c d hd hp => by
      obtain ⟨hg, hbusy, hcs, hop⟩ := hk.pend c d hd hp
      exact ⟨hg, hbusy, hbu, hcs, hop⟩ }

/-- Where an array effect is in progress, the phase of the list is the wait for it, and it leaves none
(70_reset_and_hazards.md R225). -/
theorem pend_settled {s u : State} {p : Phase} {r : Completion} (hi : s.Inv) (hb : s.ctl = .busy)
    (hp : s.latchPhases[s.phasePc.toNat]? = some p) (hu : perform p s = .done r u) {c : Nat} {d d' : Die}
    (hd : s.dies[c]? = some d) (hpend : d.pend ≠ none) (hd' : u.dies[c]? = some d') : d'.pend = none := by
  obtain ⟨hg, hbusy, -, hcs, hk⟩ := hi.pend c d hd hpend
  have hsel := hi.busyDie hb (pend_selectedAt hk)
  have hwait : p = .waitRdy s.cfg.readyTimeout := by
    refine (latchPhases_at (valid_nodup hi.cfg) hp).wait ?_
    rcases hk with ⟨ho, hk⟩ | ⟨ho, hk⟩
    · exact .inl ⟨ho, by rw [hk]; rfl⟩
    · exact .inr (.inl ⟨ho, by rw [hk]; rfl⟩)
  subst hwait hcs
  exact performWaitRdy_pend hu hg hsel hd (fun _ => hbusy) d' hd'

/-- An array effect in progress after a phase of the list comes from its confirm command, on the selected general die
(42_phases.md R163, 20_memory.md R78). -/
theorem pend_of_confirm {s u : State} {p : Phase} {r : Completion} (hi : s.Inv) (hb : s.ctl = .busy)
    (hp : s.latchPhases[s.phasePc.toNat]? = some p) (hu : perform p s = .done r u) {c : Nat} {d' : Die}
    (hd' : u.dies[c]? = some d') (hpend : d'.pend ≠ none) :
    p.confirms s.cfg = true ∧ s.cfg.device = .general ∧ d'.busy = true ∧ s.sel.map BitVec.toNat = some c := by
  obtain ⟨d, hd, hc⟩ := (perform_done hu).dies.get hd'
  have hnone : d.pend = none := by
    by_contra hdp
    exact hpend (pend_settled hi hb hp hu hd hdp hd')
  rcases hc with rfl | ⟨hsel, hc⟩
  · exact absurd hnone hpend
  · rcases hc.pend with h | ⟨h, -⟩ | ⟨hst, hg, hbusy, hmode⟩
    · exact absurd h hpend
    · exact absurd (h.trans hnone) hpend
    · refine ⟨?_, hg, hbusy, hsel⟩
      rcases storesIn_cases hst with hconf | ⟨b, c', d0, -, -, hs, hd0, hm, -⟩
      · exact hconf
      · obtain rfl : c'.toNat = c := by simpa [hs] using hsel
        obtain rfl := Option.some.inj (hd.symm.trans hd0)
        simp [hm] at hmode

/-- A phase of the list takes the machine to the next index. -/
theorem phase_fits {s u : State} {p : Phase} {r : Completion} (hi : s.Inv) (hb : s.ctl = .busy)
    (hp : s.latchPhases[s.phasePc.toNat]? = some p) (hu : perform p s = .done r u) :
    u.FitsIndex (u.phasePc + 1) := by
  have A := latchPhases_at (valid_nodup hi.cfg) hp
  have P := perform_done hu
  have hk : (u.phasePc + 1).toNat = s.phasePc.toNat + 1 := by rw [P.regs.phasePc, toNat_succ A.bound]
  have hsel : s.phasePc.toNat ≠ 0 → s.sel = some s.reqCs := fun h0 => hi.busyDie hb (A.selected h0)
  constructor
  case pc =>
    rw [hk, P.regs.reqOp]
    simp [legalPc, A.next]
  case csSel => rw [hk, P.csSel, hi.busySel hb, P.regs.reqOp, P.regs.reqCs, A.csSel]
  case wp => rw [hk, P.wpAsserted, hi.busyWp hb, P.regs.reqOp, A.wp]
  case latch =>
    rw [hk, P.regs.cfg, P.regs.reqOp, P.regs.reqBlock, P.regs.reqPage, P.regs.reqCs]
    exact latchAt_next (valid_nodup hi.cfg) hp hu hsel (hi.busyLatch hb)
  case pend =>
    intro c d' hd' hpend
    obtain ⟨hconf, hg, hbusy, hc⟩ := pend_of_confirm hi hb hp hu hd' hpend
    have hop := A.confirms hconf
    rw [hsel (by omega)] at hc
    rw [P.regs.cfg, P.regs.reqCs, P.regs.reqOp]
    refine ⟨hg, hbusy, Option.some.inj hc, hop.imp (fun h => ⟨h.1, ?_⟩) (fun h => ⟨h.1, ?_⟩)⟩ <;>
      exact BitVec.eq_of_toNat_eq (by rw [hk, h.2]; rfl)

/-- The outputs of a request at the entry of its cleanup path are those at its wait (60_exceptions.md R196). -/
theorem index_timeout {op : BitVec 4} {pc : Nat} (h : (op = 2 ∧ pc = 5) ∨ (op = 3 ∧ pc = 6) ∨ (op = 4 ∧ pc = 4)) :
    legalPc op (opPath op).entry.toNat = true ∧ selectedAt op (opPath op).entry.toNat = selectedAt op pc ∧
      releasedAt op (opPath op).entry.toNat = releasedAt op pc := by
  rcases h with ⟨rfl, rfl⟩ | ⟨rfl, rfl⟩ | ⟨rfl, rfl⟩ <;> decide

/-- On a cleanup path nothing is latched for a later phase. -/
theorem latchAt_cleanup {op : BitVec 4} {pc : Nat} (h : 12 ≤ pc) (cfg : Config) (block : BitVec 16) (page : BitVec 8) :
    latchAt cfg op block page pc = none := by
  unfold latchAt
  split
  case h_10 => rfl
  all_goals omega

theorem opPath_entry_le (op : BitVec 4) : 12 ≤ (opPath op).entry.toNat := by
  revert op
  decide

/-- A wait that times out takes the machine to the entry of its cleanup path (60_exceptions.md R196). -/
theorem timeout_fits {s u : State} {p : Phase} {r : Completion} (hi : s.Inv) (hb : s.ctl = .busy)
    (hp : s.latchPhases[s.phasePc.toNat]? = some p) (hw : p.waits = true) (hu : perform p s = .done r u) :
    u.FitsIndex (opPath s.reqOp).entry := by
  have P := perform_done hu
  obtain ⟨hpc, hsel, hrel⟩ := index_timeout ((latchPhases_at (valid_nodup hi.cfg) hp).waits hw)
  obtain ⟨bound, rfl⟩ : ∃ b, p = .waitRdy b := by
    cases p <;> simp [Phase.waits] at hw
    exact ⟨_, rfl⟩
  constructor
  case pc => rwa [P.regs.reqOp]
  case csSel => rw [P.regs.reqOp, P.regs.reqCs, hsel, ← hi.busySel hb, P.csSel]; rfl
  case wp => rw [P.regs.reqOp, hrel, ← hi.busyWp hb, P.wpAsserted]; rfl
  case latch => simp [latchAt_cleanup (opPath_entry_le _)]
  case pend =>
    intro c d' hd' hpend
    obtain ⟨hconf, -⟩ := pend_of_confirm hi hb hp hu hd' hpend
    cases hconf

/-- On a cleanup path no array effect is in progress, and a phase that is none of its waits starts none. -/
theorem cleanup_pend {s u : State} {p : Phase} {r : Completion} (hi : s.Inv) (hk : 12 ≤ s.phasePc.toNat)
    (P : Performed p s r u) (hst : s.storesIn p = false) {c : Nat} {d' : Die} (hd' : u.dies[c]? = some d') :
    d'.pend = none := by
  obtain ⟨d, hd, hc⟩ := P.dies.get hd'
  have hnone : d.pend = none := by
    by_contra hdp
    obtain ⟨-, -, -, -, ⟨-, h⟩ | ⟨-, h⟩⟩ := hi.pend c d hd hdp <;> rw [h] at hk <;> exact absurd hk (by decide)
  rcases hc with rfl | ⟨-, hc⟩
  · exact hnone
  · rcases hc.pend with h | ⟨h, -⟩ | ⟨h, -⟩
    · exact h
    · exact h.trans hnone
    · rw [hst] at h
      cases h

/-- Re-asserting write protection takes the machine from index 12 to index 13 (60_exceptions.md R196). -/
theorem cleanWp_fits {s u : State} {r : Completion} (hi : s.Inv) (hb : s.ctl = .busy)
    (ho : s.reqOp = 2 ∨ s.reqOp = 3) (hk : s.phasePc.toNat = 12) (P : Performed (.setWp true) s r u) :
    u.FitsIndex (u.phasePc + 1) := by
  have hk' : u.phasePc + 1 = 13 := by
    rw [P.regs.phasePc, show s.phasePc = 12 from BitVec.eq_of_toNat_eq hk]
    rfl
  rw [hk']
  constructor
  case pc => rw [P.regs.reqOp]; rcases ho with ho | ho <;> rw [ho] <;> decide
  case csSel =>
    rw [P.csSel, P.regs.reqOp, P.regs.reqCs]
    simpa [hk, selectedAt, Phase.nextCsSel] using hi.busySel hb
  case wp => rw [P.wpAsserted, P.regs.reqOp, Phase.nextWp]; rcases ho with ho | ho <;> rw [ho] <;> decide
  case latch => simp [latchAt_cleanup]
  case pend => exact fun c d' hd' hpend => absurd (cleanup_pend hi hk.ge P rfl hd') hpend

/-- Deselecting takes the machine from index 13 to index 14 (60_exceptions.md R196). -/
theorem cleanDesel_fits {s u : State} {r : Completion} (hi : s.Inv) (hb : s.ctl = .busy)
    (ho : s.reqOp = 2 ∨ s.reqOp = 3 ∨ s.reqOp = 4) (hk : s.phasePc.toNat = 13) (P : Performed .deselect s r u) :
    u.FitsIndex (u.phasePc + 1) := by
  have hk' : u.phasePc + 1 = 14 := by
    rw [P.regs.phasePc, show s.phasePc = 13 from BitVec.eq_of_toNat_eq hk]
    rfl
  obtain ⟨hsel, hrel⟩ := index_cleaned s.reqOp
  rw [hk']
  constructor
  case pc => rw [P.regs.reqOp]; rcases ho with ho | ho | ho <;> rw [ho] <;> decide
  case csSel => rw [P.csSel, P.regs.reqOp, show (14 : BitVec 4).toNat = 14 from rfl, hsel]; rfl
  case wp =>
    rw [P.wpAsserted, P.regs.reqOp, show (14 : BitVec 4).toNat = 14 from rfl, hrel]
    refine (hi.busyWp hb).trans ?_
    rcases ho with ho | ho | ho <;> rw [ho, hk] <;> decide
  case latch => simp [latchAt_cleanup]
  case pend => exact fun c d' hd' hpend => absurd (cleanup_pend hi (by omega) P rfl hd') hpend

/-! ### The bytes of a DIN -/

/-- Where a request puts the bytes of a `DIN` keeps a legal state, if they have the length of their buffer
(10_state.md R24, R25). -/
theorem opStore_inv {s : State} (hi : s.Inv) {op : BitVec 4} {l : List Byte} (hid : op = 1 → l.length = s.cfg.idLen)
    (hpage : op = 4 → l.length = s.cfg.fullPageSize) : (opStore op l s).Inv := by
  fun_cases opStore op
  case case1 ho => exact { hi with idbuf := hid (BitVec.eq_of_toNat_eq ho) }
  case case2 => exact { hi with }
  case case3 => exact { hi with }
  case case4 ho => exact { hi with dbuf := hpage (BitVec.eq_of_toNat_eq ho) }
  case case5 => exact hi

/-- Storing the bytes of a `DIN` and moving on are apart. -/
theorem opStore_bumpPc (op : BitVec 4) (l : List Byte) (s : State) :
    (opStore op l s).bumpPc = opStore op l s.bumpPc := by
  fun_cases opStore op <;> rfl

/-- The bytes a phase of the list hands back have the length of their buffer (42_phases.md R166). -/
theorem phase_bytes_length {s u : State} {p : Phase} {l : List Byte} (hn : s.cfg.commandList.Nodup)
    (hp : s.latchPhases[s.phasePc.toNat]? = some p) (P : Performed p s (.bytes l) u) :
    (s.reqOp = 1 → l.length = s.cfg.idLen) ∧ (s.reqOp = 4 → l.length = s.cfg.fullPageSize) := by
  obtain rfl := completes_bytes P.completes
  rcases (latchPhases_at hn hp).din _ rfl with ⟨ho, -, hl⟩ | ⟨ho, -, hl⟩ | ⟨ho, -, hl⟩ | ⟨ho, -, hl⟩ <;> simp [ho, hl]

/-! ### A busy controller's step -/

/-- Each step of a request in progress keeps a legal state. -/
theorem BusyStep.inv {s t : State} (hi : s.Inv) (hb : s.ctl = .busy) (h : BusyStep s t) : t.Inv := by
  have checked : ∀ k, s.phasePc.toNat = k → k ≠ 0 → s.latchCheck = none := fun k hk h0 =>
    hi.busyChecked hb (pc_ne_zero.mpr (hk ▸ h0))
  cases h with
  | reset => exact applyReset_inv hi
  | checked e h0 he => exact finishCheck_inv hi hb h0 he
  | hold l n => exact { hi with }
  | phase p r u l hchk hp hu hr hcm =>
    have hmoved : u.bumpPc.Inv := goto_inv hi hb hchk (perform_done hu) (phase_fits hi hb hp hu)
    rcases hcm with rfl | rfl | rfl
    · exact hmoved
    · exact hmoved
    · have P := perform_done hu
      obtain ⟨hid, hpage⟩ := phase_bytes_length (valid_nodup hi.cfg) hp P
      rw [← P.regs.cfg] at hid hpage
      simp only [opStore_bumpPc]
      exact opStore_inv hmoved hid hpage
  | timeout p u hchk hp hw hu => exact goto_inv hi hb hchk (perform_done hu) (timeout_fits hi hb hp hw hu)
  | cleanWp u ho hk hu =>
    exact goto_inv hi hb (checked 12 hk (by decide)) (perform_done hu) (cleanWp_fits hi hb ho hk (perform_done hu))
  | cleanDesel u ho hk hu =>
    exact goto_inv hi hb (checked 13 hk (by decide)) (perform_done hu) (cleanDesel_fits hi hb ho hk (perform_done hu))
  | raised ho hk =>
    obtain ⟨hsel, hrel⟩ := index_cleaned s.reqOp
    exact raise_inv hi hb (hk ▸ hsel) (hk ▸ hrel) .deviceTimeout
  | respond hchk hk =>
    obtain ⟨hsel, hrel⟩ := index_end s.reqOp
    exact respond_inv hi hb (hk ▸ hsel) (hk ▸ hrel) (latchResp_wf hi)

/-- Settles O12: each kind of step keeps the invariant, a busy controller's by the cases of `BusyStep`. -/
theorem everyStepKeepsTheInvariant : Obligations.EveryStepKeepsTheInvariant := by
  intro s t hi h
  cases hc : s.ctl with
  | busy => exact (busyStep hi hc h).inv hi hc
  | idle =>
    rcases step_cases s with ⟨-, he⟩ | ⟨-, -, he⟩ | ⟨-, -, item, rest, hbench, -⟩ | ⟨-, -, -, hb, -⟩ |
      ⟨-, -, -, -, he⟩
    · rw [he] at h
      cases h
    · rw [he] at h
      cases h
      exact applyReset_inv hi
    · rw [hi.bench] at hbench
      cases hbench
    · rw [hc] at hb
      cases hb
    · rw [he] at h
      cases h
      exact idleTurn_inv hi hc

end Sys2Proof.Machine
end

section
/-! PROOFS. From a legal state the machine stops only where a supplied answer breaks the driver port contract
(10_state.md R22, R35; 42_phases.md R166, R168). -/

namespace Sys2Proof.Machine

/-- The phase list of the instruction in the latch is that of the latch. -/
theorem phasesOf_latched {s : State} {i : Instr} (h : s.latched = .ok i) : s.phasesOf i = s.latchPhases := by
  rw [latched_eq] at h
  rcases decodeFields_ok h with ⟨ho, -, -, rfl⟩ | ⟨ho, -, rfl⟩ | ⟨ho, rfl⟩ | ⟨ho, rfl⟩ <;>
    simp [State.phasesOf, State.latchPhases, ho]

/-- In a legal state a phase, other than the selection of a die that is not there, stops the machine only where the
supplied answer breaks the driver port contract. -/
theorem settle_completes {s : State} {store : List Byte → State → State} {path : CleanupPath} {p : Phase} (hi : s.Inv)
    (hsel : ∀ c, p = .select c → c.toNat < s.cfg.numCs) :
    (∃ t, settle store path (perform p s) = .next t) ∨
      (settle store path (perform p s) = .refused .driverContract ∧ s.cfg.device = .general ∧ s.AnswerBreaks p) := by
  cases hp : perform p s with
  | done c u => cases c <;> exact .inl ⟨_, rfl⟩
  | hold u => exact .inl ⟨u, rfl⟩
  | fault f =>
    obtain ⟨-, ⟨c, hpc, hc⟩ | ⟨c, hs, hd⟩⟩ := perform_fault hp
    · exact absurd (hsel c hpc) hc.not_gt
    · have hlt := hi.sel c hs
      rw [List.getElem?_eq_none_iff, hi.dies] at hd
      exact absurd hlt hd.not_gt
  | refused r =>
    obtain ⟨rfl, hg, ha⟩ := perform_refused hp
    exact .inr ⟨rfl, hg, ha⟩

/-- Past the list of a request, a legal `phase_pc` is one of its cleanup path (60_exceptions.md R196). -/
theorem cleanup_index {op : BitVec 4} {pc : Nat} (hlegal : legalPc op pc = true) (hpast : phaseCount op < pc) :
    (opPath op = .protect ∧ 12 ≤ pc ∧ pc ≤ 14) ∨ (opPath op = .deselect ∧ 13 ≤ pc ∧ pc ≤ 14) := by
  simp only [legalPc, Bool.or_eq_true, Bool.and_eq_true, decide_eq_true_eq] at hlegal
  rcases hlegal with (h | ⟨rfl | rfl, h⟩) | ⟨rfl, h⟩
  · omega
  · exact .inl ⟨rfl, h⟩
  · exact .inl ⟨rfl, h⟩
  · exact .inr ⟨rfl, h⟩

/-- In a legal state every step of a cleanup path completes. -/
theorem cleanupStep_completes {s : State} (hi : s.Inv) (hb : s.ctl = .busy)
    (hpast : phaseCount s.reqOp < s.phasePc.toNat) :
    ∃ t, cleanupStep (opPath s.reqOp) s = .next t := by
  rcases cleanupStep_cases (opPath s.reqOp) s with ⟨-, -, he⟩ | ⟨-, -, he⟩ | ⟨-, -, he⟩ | ⟨-, hprotect, hdesel⟩
  · rw [he]
    exact (settle_completes (p := .setWp true) hi (fun c h => nomatch h)).resolve_right
      fun ⟨_, _, _, _, _, hbreaks⟩ => hbreaks
  · rw [he]
    exact (settle_completes (p := .deselect) hi (fun c h => nomatch h)).resolve_right
      fun ⟨_, _, _, _, _, hbreaks⟩ => hbreaks
  · exact ⟨_, he⟩
  · rcases cleanup_index (hi.busyPc hb) hpast with h | h
    · exact absurd h hprotect
    · exact absurd h hdesel

/-- In a legal state past the checks a step of the request completes, but where the supplied answer breaks the driver
port contract for the phase at `phase_pc`. -/
theorem listStep_completes {s : State} (hi : s.Inv) (hb : s.ctl = .busy) (hchk : s.latchCheck = none) :
    (∃ t, listStep s.latchPhases (opStore s.reqOp) (opPath s.reqOp) State.latchResp s = .next t) ∨
      (listStep s.latchPhases (opStore s.reqOp) (opPath s.reqOp) State.latchResp s = .refused .driverContract ∧
        s.cfg.device = .general ∧ ∃ p, s.latchPhases[s.phasePc.toNat]? = some p ∧ s.AnswerBreaks p) := by
  rcases listStep_cases (phases := s.latchPhases) (store := opStore s.reqOp) (path := opPath s.reqOp)
    (finish := State.latchResp) s with ⟨p, hp, he⟩ | ⟨-, he⟩ | ⟨hpast, he⟩ <;> rw [he]
  · have hsel : ∀ c, p = .select c → c.toNat < s.cfg.numCs := fun c h => by
      rw [((latchPhases_at (valid_nodup hi.cfg) hp).select c h).2]
      exact checks_cs hchk
    exact (settle_completes hi hsel).imp_right fun ⟨hr, hg, ha⟩ => ⟨hr, hg, p, hp, ha⟩
  · exact .inl ⟨_, rfl⟩
  · rw [latchPhases_length] at hpast
    exact .inl (cleanupStep_completes hi hb hpast)

/-- The same of a busy controller's step, checks included. -/
theorem runRequest_completes {s : State} (hi : s.Inv) (hb : s.ctl = .busy) : (∃ t, runRequest s = .next t) ∨
    (s.cfg.device = .general ∧ runRequest s = .refused .driverContract ∧
      ∃ i p, s.latched = .ok i ∧ (s.phasesOf i)[s.phasePc.toNat]? = some p ∧ s.AnswerBreaks p) := by
  cases hl : s.latched with
  | error e => exact .inl ⟨s.raise .reservedRequest, by simp [runRequest, hl]⟩
  | ok i =>
    obtain ⟨hrun, hexec⟩ := runRequest_latched hl
    rw [hrun, hexec]
    cases hchk : s.latchCheck with
    | some e =>
      have h0 : s.phasePc = 0 := by
        by_contra h0
        simp [hi.busyChecked hb h0] at hchk
      exact .inl ⟨s.finishCheck e, by simp [afterChecks, h0]⟩
    | none =>
      simp only [afterChecks, ite_self]
      refine (listStep_completes hi hb hchk).imp_right fun ⟨hr, hg, p, hp, ha⟩ => ⟨hg, hr, i, p, rfl, ?_, ha⟩
      rwa [phasesOf_latched hl]

/-- Settles O13: reset and an idle controller's turn complete; a busy controller's step by its phase list. -/
theorem everyStepFromALegalStateCompletes : Obligations.EveryStepFromALegalStateCompletes := by
  intro s hi
  have hstep : (∃ t, step s = .next t) ∨ (s.cfg.device = .general ∧ s.ctl = .busy ∧ step s = .refused .driverContract ∧
      ∃ i p, s.latched = .ok i ∧ (s.phasesOf i)[s.phasePc.toNat]? = some p ∧ s.AnswerBreaks p) := by
    rcases step_cases s with ⟨hv, -⟩ | ⟨-, -, he⟩ | ⟨-, -, item, rest, hbench, -⟩ | ⟨-, -, -, hb, he⟩ |
      ⟨-, -, -, -, he⟩
    · simp [hi.cfg] at hv
    · exact .inl ⟨_, he⟩
    · simp [hi.bench] at hbench
    · rw [he]
      exact (runRequest_completes hi hb).imp_right fun ⟨hg, hr, hbreaks⟩ => ⟨hg, hb, hr, hbreaks⟩
    · exact .inl ⟨_, he⟩
  exact ⟨fun href => hstep.resolve_right fun ⟨hg, _⟩ => by simp [href] at hg, hstep⟩

end Sys2Proof.Machine
end

section
/-! PROOFS. The device's address decoding reads back the addresses the controller sends (20_memory.md R65,
30_encoding.md R102 to R105). -/

namespace Sys2Proof

/-- A number that fits its cycles is read back from them. -/
theorem leNat_leBytes {n v : Nat} (h : v < 256 ^ n) : leNat (leBytes n v) = v := by
  induction n generalizing v with
  | zero =>
    obtain rfl : v = 0 := by simpa using h
    rfl
  | succ n ih =>
    have hv : v / 256 < 256 ^ n := Nat.div_lt_of_lt_mul (by rwa [pow_succ'] at h)
    rw [leBytes, leNat, ih hv, BitVec.toNat_ofNat]
    exact Nat.mod_add_div v 256

namespace Machine

theorem limit_of_valid {cfg : Config} {limit : Bool} (h : cfg.valid = true) (hmem : limit ∈ cfg.limits) :
    limit = true :=
  List.all_eq_true.mp h limit hmem

/-- The limits the address cycles rest on (00_scope.md R6, R9, R10). -/
theorem valid_addressing {cfg : Config} (h : cfg.valid = true) :
    0 < cfg.pagesPerBlock ∧ 0 < cfg.fullPageSize ∧ cfg.rows ≤ 256 ^ cfg.rowCycles := by
  have hdata : 1 ≤ cfg.pageDataSize := of_decide_eq_true (limit_of_valid h (by simp [Config.limits]))
  have hpages : 1 ≤ cfg.pagesPerBlock := of_decide_eq_true (limit_of_valid h (by simp [Config.limits]))
  have hrows : cfg.rows ≤ 256 ^ cfg.rowCycles := of_decide_eq_true (limit_of_valid h (by simp [Config.limits]))
  exact ⟨hpages, Nat.add_pos_left hdata _, hrows⟩

/-- The row of a page that exists exists (30_encoding.md R102). -/
theorem rowOf_lt_rows {cfg : Config} {block : BitVec 16} {page : BitVec 8} (hb : block.toNat < cfg.blocksPerCs)
    (hp : page.toNat < cfg.pagesPerBlock) : cfg.rowOf block page < cfg.rows := by
  calc cfg.rowOf block page < block.toNat * cfg.pagesPerBlock + cfg.pagesPerBlock := Nat.add_lt_add_left hp _
    _ = (block.toNat + 1) * cfg.pagesPerBlock := (Nat.succ_mul _ _).symm
    _ ≤ cfg.rows := Nat.mul_le_mul_right _ hb

theorem colBytes_length (cfg : Config) (col : Nat) : (cfg.colBytes col).length = cfg.colCycles := leBytes_length _ _

theorem rowBytes_length (cfg : Config) (row : Nat) : (cfg.rowBytes row).length = cfg.rowCycles := leBytes_length _ _

/-- No bit of a row number is lost in its cycles (30_encoding.md R104). -/
theorem leNat_rowBytes {cfg : Config} {row : Nat} (hv : cfg.valid = true) (h : row < cfg.rows) :
    leNat (cfg.rowBytes row) = row :=
  leNat_leBytes (h.trans_le (valid_addressing hv).2.2)

/-- Column 0 is read back from its cycles (30_encoding.md R103). -/
theorem leNat_colBytes_zero (cfg : Config) : leNat (cfg.colBytes 0) = 0 :=
  leNat_leBytes (Nat.pow_pos (by decide))

/-- A page's full address is read as column 0 of its row (20_memory.md R65, 30_encoding.md R105). -/
theorem decodePage_fullAddress {cfg : Config} {block : BitVec 16} {page : BitVec 8} (hv : cfg.valid = true)
    (hb : block.toNat < cfg.blocksPerCs) (hp : page.toNat < cfg.pagesPerBlock) :
    cfg.decodePage (cfg.fullAddress block page) = some (0, cfg.rowOf block page) := by
  have hrow := rowOf_lt_rows hb hp
  have hlen := colBytes_length cfg 0
  simp [Config.decodePage, Config.fullAddress, List.take_left' hlen, List.drop_left' hlen, hlen, rowBytes_length,
    leNat_colBytes_zero, leNat_rowBytes hv hrow, hrow, (valid_addressing hv).2.1]

/-- A block's address is read as that block (20_memory.md R65, 30_encoding.md R105). -/
theorem decodeBlock_blockAddress {cfg : Config} {block : BitVec 16} (hv : cfg.valid = true)
    (hb : block.toNat < cfg.blocksPerCs) : cfg.decodeBlock (cfg.blockAddress block) = some block.toNat := by
  have hpages := (valid_addressing hv).1
  have hrow : cfg.rowOf block 0 < cfg.rows := rowOf_lt_rows hb hpages
  have hdiv : cfg.rowOf block 0 / cfg.pagesPerBlock = block.toNat := by simp [Config.rowOf, hpages]
  have hback := leNat_rowBytes hv hrow
  rw [Config.decodeBlock, Config.blockAddress, hback, if_pos ⟨rowBytes_length cfg _, hrow⟩, hdiv]

/-- Settles O8, by reading the row number back from its cycles. -/
theorem deviceDecodesTheControllersAddresses : Obligations.DeviceDecodesTheControllersAddresses :=
  fun _ _ _ hv hb => ⟨decodePage_fullAddress hv hb, decodeBlock_blockAddress hv hb⟩

end Machine

end Sys2Proof
end

section
/-! PROOFS. The command cycles of the device (20_memory.md R60 to R70): what each latches, what the confirms store and
where, and what they leave unchanged. -/

namespace Sys2Proof.Machine

/-! ### One command cycle -/

/-- The reference device, and a general die that is not busy, take a cycle undisturbed (20_memory.md R71). -/
theorem Die.disturbed_eq {cfg : Config} {d : Die} (h : cfg.device = .reference ∨ d.busy = false) :
    d.disturbed cfg = d :=
  h.elim (Die.disturbed_reference d) Die.disturbed_ready

theorem commandCycle_selected {s : State} {c : BitVec 4} {d : Die} (hs : s.sel = some c)
    (hd : s.dies[c.toNat]? = some d) (f : BitVec 4 → Die → State) :
    s.commandCycle f = .next (f c (d.disturbed s.cfg)) :=
  onSelected_some hs hd

theorem commandCycle_undisturbed {s : State} {c : BitVec 4} {d : Die} (hs : s.sel = some c)
    (hd : s.dies[c.toNat]? = some d) (h : s.cfg.device = .reference ∨ d.busy = false) (f : BitVec 4 → Die → State) :
    s.commandCycle f = .next (f c d) := by
  rw [commandCycle_selected hs hd, Die.disturbed_eq h]

/-- A command cycle that only latches, on a die it does not disturb. -/
theorem latch_undisturbed {s : State} {i : Instr} {c : BitVec 4} {d : Die} (hs : s.sel = some c)
    (hd : s.dies[c.toNat]? = some d) (h : s.cfg.device = .reference ∨ d.busy = false) (g : Die → Die)
    (hi : exec i s = s.commandCycle (fun c d => s.setDie c (g d))) : exec i s = .next (s.setDie c (g d)) :=
  hi.trans (commandCycle_undisturbed hs hd h _)

/-- Settles O45: each of the three only latches. -/
theorem setupCommandsSetTheMode : Obligations.SetupCommandsSetTheMode := by
  intro s c d hs hd h
  exact ⟨latch_undisturbed hs hd h (fun d => { d with mode := .readSetup, abuf := [] }) rfl,
    latch_undisturbed hs hd h
      (fun d => { d with mode := .prog, abuf := [], pbuf := fill s.cfg.fullPageSize 0xFF }) rfl,
    latch_undisturbed hs hd h (fun d => { d with mode := .eraseSetup, abuf := [] }) rfl⟩

/-- Settles O49: CMD_READ_STATUS only latches. -/
theorem readStatusCommandEntersModeStatus : Obligations.ReadStatusCommandEntersModeStatus := by
  intro s c d hr hs hd
  exact latch_undisturbed hs hd (.inl hr) (fun d => { d with mode := .status, status := statusByte s.wp d.fail }) rfl

/-- An effect of a phase that hands nothing back, driven at the device directly, joins the trace. -/
theorem outcome_ofEffect {p : Phase} {o : Host.Outcome State Fault Refusal} {t : State} (h : o = .next t) :
    (PhaseResult.ofEffect p o).outcome p = .next (t.logPhase p .unit) := by
  rw [h]
  rfl

/-- ADDR appends its bytes to those of the selected die, undisturbed (20_memory.md R63). -/
theorem execAddr_selected {s : State} {c : BitVec 4} {d : Die} (hs : s.sel = some c) (hd : s.dies[c.toNat]? = some d)
    (h : s.cfg.device = .reference ∨ d.busy = false) (l : List Byte) : exec (.addr l) s =
      .next ((s.setDie c { d with abuf := d.abuf ++ l }).logPhase (.addr l) .unit) := by
  rw [← Die.disturbed_eq h]
  exact outcome_ofEffect (onSelected_some hs hd)

/-- Settles O40: an undisturbed command cycle and an undisturbed address cycle. -/
theorem readIdAndAddrCycles : Obligations.ReadIdAndAddrCycles :=
  fun _ _ _ hs hd h =>
    ⟨latch_undisturbed hs hd h (fun d => { d with mode := .id, abuf := [], rptr := 0 }) rfl, execAddr_selected hs hd h⟩

theorem exec_nandCmd_none {s : State} (hs : s.sel = none) (k : NandCmd) : exec (Instr.ofNandCmd k) s = .next s := by
  cases k <;> exact onSelected_none hs

theorem commandByteCycle_none {s : State} (hs : s.sel = none) (b : Byte) : commandByteCycle b s = .next s := by
  rw [commandByteCycle_eq]
  split
  · exact exec_nandCmd_none hs _
  · exact onSelected_none hs

/-- Settles O51: each of the cycles is an effect on the selected die. -/
theorem nothingHappensWithNoDieSelected : Obligations.NothingHappensWithNoDieSelected :=
  fun _ hs => ⟨exec_nandCmd_none hs, fun b => outcome_ofEffect (commandByteCycle_none hs b),
    fun _ => outcome_ofEffect (onSelected_none hs), fun _ => outcome_ofEffect (onSelected_none hs)⟩

/-! ### The frame of the command cycles -/

section

variable {storing : Bool} {s t : State}

theorem DeviceEffect.sameLines (h : DeviceEffect storing s t) : State.SameLines s t := by
  rcases h with rfl | ⟨c, d, d', n, -, -, rfl, -⟩ <;> exact ⟨rfl, rfl, rfl, rfl⟩

theorem DeviceEffect.sameOtherDies (h : DeviceEffect storing s t) : State.SameOtherDies s t := by
  rcases h with rfl | ⟨c, d, d', n, hs, -, rfl, -⟩
  · exact .of_dies_eq rfl
  · refine ⟨by simp, fun c' hc => ?_⟩
    have hne : c.toNat ≠ c' := fun he => hc (by rw [hs, ← he]; rfl)
    exact List.getElem?_set_ne hne

/-- A device effect leaves the bench, the trace and the device's answers as they are. -/
theorem DeviceEffect.samePorts (h : DeviceEffect storing s t) :
    t.bench = s.bench ∧ t.trace = s.trace ∧ t.answers = s.answers := by
  rcases h with rfl | ⟨c, d, d', n, -, -, rfl, -⟩ <;> exact ⟨rfl, rfl, rfl⟩

theorem DeviceEffect.sameImages (h : DeviceEffect false s t) : State.SameImages s t := by
  rcases h with rfl | ⟨c, d, d', n, -, hd, rfl, hc⟩
  · exact .of_dies_eq rfl
  · exact sameImages_set hd rfl (hc.image rfl (.inl rfl))

end

/-- Where a read confirm finds no address it can decode (20_memory.md R65). -/
theorem readsNowhere_iff {s : State} : s.readsNowhere = true ↔ ∃ c d, s.sel = some c ∧ s.dies[c.toNat]? = some d ∧
    d.mode = .readSetup ∧ s.cfg.decodePage d.abuf = none := by
  unfold State.readsNowhere
  split
  · next hs => simp [hs]
  · next c hs =>
    split
    · next hd => simp [hs, hd]
    · next d hd => simp [hs, hd]

/-- Settles O52: a command cycle is a device effect, which stores only where `State.stores` says. -/
theorem commandCyclesLeaveTheRestUnchanged : Obligations.CommandCyclesLeaveTheRestUnchanged := by
  intro k s t h
  have heff := nandCmd_effect h
  obtain ⟨hbench, htrace, hanswers⟩ := heff.samePorts
  refine ⟨heff.sameRegisters, heff.sameLines, heff.sameOtherDies, hbench, htrace, hanswers, fun hp he hr => ?_⟩
  have hstores : s.stores k = false := by
    have hread : k = .readConfirm → s.readsNowhere = false := by
      intro hk
      by_contra hn
      obtain ⟨c, d, hs, hd, hm, ha⟩ := readsNowhere_iff.mp (by simpa using hn)
      exact hr hk c d hs hd hm ha
    simpa [State.stores, hp, he] using hread
  rw [hstores] at heff
  exact heff.sameImages

/-! ### What the confirms store -/

/-- Whether the confirm of a program or erase on the reference device fails: protected, or injected to fail
(20_memory.md R68, R69, R74). -/
def State.blocks (s : State) (c : BitVec 4) (block : Nat) (kind : OpKind) : Prop :=
  s.wp = true ∨ Injection.mk c.toNat block kind ∈ s.cfg.inject

/-- The selected die of the reference device after the confirm of a program or erase that would store `bytes` at `off`
(20_memory.md R68, R69). -/
structure Finished (wp : Bool) (blocked : Prop) (off : Nat) (bytes : List Byte) (d d' : Die) : Prop where
  mode : d'.mode = .idle
  fail : d'.fail = true ↔ blocked
  status : d'.status = statusByte wp d'.fail
  kept : blocked → d'.image = d.image
  stored : ¬blocked → d'.image = Memory.writeBytes d.image off bytes

theorem Finished.of_blocked {wp : Bool} {blocked : Prop} {off : Nat} {bytes : List Byte} {d : Die} (h : blocked) :
    Finished wp blocked off bytes d (d.finish wp true) :=
  ⟨rfl, iff_of_true rfl h, rfl, fun _ => rfl, fun hn => absurd h hn⟩

theorem Finished.of_stored {wp : Bool} {blocked : Prop} {off : Nat} {bytes : List Byte} {d : Die} (h : ¬blocked) :
    Finished wp blocked off bytes d (Die.finish { d with image := Memory.writeBytes d.image off bytes } wp false) :=
  ⟨rfl, iff_of_false Bool.false_ne_true h, rfl, fun hb => absurd hb h, fun _ => rfl⟩

theorem programReference_finished (s : State) (c : BitVec 4) (d : Die) (row : Nat) : ∃ d',
    s.programReference c d row = s.setDie c d' ∧ Finished s.wp (s.blocks c (row / s.cfg.pagesPerBlock) .program)
      (row * s.cfg.fullPageSize) (d.programmed s.cfg row) d d' := by
  unfold State.programReference
  split
  · next h => exact ⟨_, rfl, .of_blocked (by simpa [State.blocks, Config.injected] using h)⟩
  · next h => exact ⟨_, rfl, .of_stored (by simpa [State.blocks, Config.injected] using h)⟩

theorem eraseReference_finished (s : State) (c : BitVec 4) (d : Die) (block : Nat) : ∃ d',
    s.eraseReference c d block = s.setDie c d' ∧ Finished s.wp (s.blocks c block .erase)
      (block * s.cfg.blockSize) (fill s.cfg.blockSize 0xFF) d d' := by
  unfold State.eraseReference
  split
  · next h => exact ⟨_, rfl, .of_blocked (by simpa [State.blocks, Config.injected] using h)⟩
  · next h => exact ⟨_, rfl, .of_stored (by simpa [State.blocks, Config.injected] using h)⟩

/-- Read after a write of many bytes. -/
theorem Memory.read_writeBytes {m : Memory} (off : Nat) (l : List Byte) (a : Nat) (hm : Memory.wf m = true) :
    Memory.read (Memory.writeBytes m off l) a =
      if h : off ≤ a ∧ a < off + l.length then l[a - off] else Memory.read m a := by
  split
  · next h =>
    have hk : a - off < l.length := by omega
    rw [← Memory.read_writeBytes_inside hm hk, Nat.add_sub_cancel' h.1]
  · next h => exact Memory.read_writeBytes_outside hm (by omega)

section

variable {s : State} {c : BitVec 4} {d : Die} (hs : s.sel = some c) (hd : s.dies[c.toNat]? = some d)

include hs hd

/-- CMD_PROGRAM_CONFIRM in its mode at an address the die decodes (20_memory.md R68). -/
theorem execProgramConfirm_reference {col row : Nat} (hr : s.cfg.device = .reference) (hm : d.mode = .prog)
    (ha : s.cfg.decodePage d.abuf = some (col, row)) :
    exec .cmdProgramConfirm s = .next (s.programReference c d row) := by
  rw [exec, execCmdProgramConfirm, commandCycle_undisturbed hs hd (.inl hr)]
  simp only [hm, ha, hr, if_true]

/-- On the general device that confirm starts the operation (20_memory.md R78). -/
theorem execProgramConfirm_general {col row : Nat} (hg : s.cfg.device = .general) (hm : d.mode = .prog)
    (ha : s.cfg.decodePage d.abuf = some (col, row)) : exec .cmdProgramConfirm s =
      .next (s.startOperation c (d.disturbed s.cfg) (row * s.cfg.fullPageSize)
        ((d.disturbed s.cfg).programmed s.cfg row)) := by
  rw [exec, execCmdProgramConfirm, commandCycle_selected hs hd]
  simp only [Die.disturbed_mode, Die.disturbed_abuf, hm, ha, hg, if_true]

/-- CMD_ERASE_CONFIRM in its mode at an address the die decodes (20_memory.md R69). -/
theorem execEraseConfirm_reference {block : Nat} (hr : s.cfg.device = .reference) (hm : d.mode = .eraseSetup)
    (ha : s.cfg.decodeBlock d.abuf = some block) : exec .cmdEraseConfirm s = .next (s.eraseReference c d block) := by
  rw [exec, execCmdEraseConfirm, commandCycle_undisturbed hs hd (.inl hr)]
  simp only [hm, ha, hr, if_true]

/-- On the general device that confirm starts the operation (20_memory.md R78). -/
theorem execEraseConfirm_general {block : Nat} (hg : s.cfg.device = .general) (hm : d.mode = .eraseSetup)
    (ha : s.cfg.decodeBlock d.abuf = some block) : exec .cmdEraseConfirm s =
      .next (s.startOperation c (d.disturbed s.cfg) (block * s.cfg.blockSize) (fill s.cfg.blockSize 0xFF)) := by
  rw [exec, execCmdEraseConfirm, commandCycle_selected hs hd]
  simp only [Die.disturbed_mode, Die.disturbed_abuf, hm, ha, hg, if_true]

/-- A confirm outside its mode leaves the die in no described mode (20_memory.md R70; log 13). -/
theorem execReadConfirm_undefines (hm : d.mode ≠ .readSetup) :
    exec .cmdReadConfirm s = .next (s.undefine c (d.disturbed s.cfg)) := by
  rw [exec, execCmdReadConfirm, commandCycle_selected hs hd]
  simp only [Die.disturbed_mode, hm, if_false]

theorem execProgramConfirm_undefines (hm : d.mode ≠ .prog) :
    exec .cmdProgramConfirm s = .next (s.undefine c (d.disturbed s.cfg)) := by
  rw [exec, execCmdProgramConfirm, commandCycle_selected hs hd]
  simp only [Die.disturbed_mode, hm, if_false]

theorem execEraseConfirm_undefines (hm : d.mode ≠ .eraseSetup) :
    exec .cmdEraseConfirm s = .next (s.undefine c (d.disturbed s.cfg)) := by
  rw [exec, execCmdEraseConfirm, commandCycle_selected hs hd]
  simp only [Die.disturbed_mode, hm, if_false]

/-- A command cycle of a selected die that is there completes. -/
theorem exec_nandCmd_completes (k : NandCmd) : ∃ t, exec (Instr.ofNandCmd k) s = .next t := by
  cases k <;> simp [Instr.ofNandCmd, exec, execCmdReadId, execCmdReadSetup, execCmdReadConfirm, execCmdProgramSetup,
    execCmdProgramConfirm, execCmdEraseSetup, execCmdEraseConfirm, execCmdReadStatus, commandCycle_selected hs hd]

end

/-- Settles O46: the cycle is `Die.loadPage`. -/
theorem readConfirmLoadsThePage : Obligations.ReadConfirmLoadsThePage := by
  intro s c d col row hs hd h hm ha
  have he : exec .cmdReadConfirm s = .next (s.setDie c (d.loadPage s.cfg col row)) := by
    rw [exec, execCmdReadConfirm, commandCycle_undisturbed hs hd h]
    simp only [hm, ha, if_true]
  refine ⟨_, _, he, rfl, rfl, rfl, rfl, Memory.readBytes_length _ _ _, fun k hk => ?_, by simp [Die.loadPage]⟩
  simp [Die.loadPage, Memory.readBytes, hk]

/-- Settles O47: what `Finished` says of the page's bytes AND `pbuf`. -/
theorem programConfirmAndsThePage : Obligations.ProgramConfirmAndsThePage := by
  intro s c d col row hr hs hd hw hp hm ha blocked off
  obtain ⟨d', he, hf⟩ := programReference_finished s c d row
  refine ⟨_, d', (execProgramConfirm_reference hs hd hr hm ha).trans (by rw [he]), rfl, hf.mode, hf.fail, hf.status,
    hf.kept, fun hn a => ?_⟩
  rw [hf.stored hn, Memory.read_writeBytes _ _ _ hw]
  simp only [programmed_length hp]
  split
  · next h =>
    rw [programmed_get hp row _ (by omega) (by rw [programmed_length hp]; omega), Nat.add_sub_cancel' h.1]
  · rfl

/-- Settles O48: what `Finished` says of 0xFF in every byte of the block. -/
theorem eraseConfirmFillsTheBlock : Obligations.EraseConfirmFillsTheBlock := by
  intro s c d block hr hs hd hw hm ha blocked off
  obtain ⟨d', he, hf⟩ := eraseReference_finished s c d block
  refine ⟨_, d', (execEraseConfirm_reference hs hd hr hm ha).trans (by rw [he]), rfl, hf.mode, hf.fail, hf.status,
    hf.kept, fun hn a => ?_⟩
  rw [hf.stored hn, Memory.read_writeBytes _ _ _ hw]
  simp [fill, Config.blockSize, off]

/-! ### Where the confirms store -/

/-- A die after a confirm stores, if anything, at most `n` bytes from `off` on. -/
def StoresWithin (off n : Nat) (d d' : Die) : Prop :=
  d'.image = d.image ∨ ∃ l : List Byte, l.length ≤ n ∧ d'.image = Memory.writeBytes d.image off l

theorem Finished.storesWithin {wp : Bool} {blocked : Prop} {off n : Nat} {bytes : List Byte} {d d' : Die}
    (h : Finished wp blocked off bytes d d') (hn : bytes.length ≤ n) : StoresWithin off n d d' := by
  by_cases hb : blocked
  · exact .inl (h.kept hb)
  · exact .inr ⟨bytes, hn, h.stored hb⟩

/-- A general die's operation has free bytes where it may store (20_memory.md R78; log 15). -/
theorem startOperation_storesWithin (s : State) (c : BitVec 4) (d : Die) {off n : Nat} {bytes : List Byte}
    (hn : bytes.length ≤ n) : ∃ d', s.startOperation c (d.disturbed s.cfg) off bytes =
      (s.drew bytes.length).setDie c d' ∧ StoresWithin off n d d' :=
  ⟨_, rfl, .inr ⟨freeBytes s.draws bytes.length, by simpa using hn, by simp⟩⟩

section

variable {s t : State} {c : BitVec 4} {d : Die} (hs : s.sel = some c) (hd : s.dies[c.toNat]? = some d)

include hs hd

/-- CMD_PROGRAM_CONFIRM stores within the page it decodes (20_memory.md R68, R78). -/
theorem programConfirm_storesWithin {col row : Nat} (h : exec .cmdProgramConfirm s = .next t)
    (ha : s.cfg.decodePage d.abuf = some (col, row)) : ∃ d', t.dies = s.dies.set c.toNat d' ∧
      StoresWithin (row * s.cfg.fullPageSize) s.cfg.fullPageSize d d' := by
  by_cases hm : d.mode = .prog
  · cases hdev : s.cfg.device with
    | reference =>
      obtain ⟨d', he, hf⟩ := programReference_finished s c d row
      rw [execProgramConfirm_reference hs hd hdev hm ha, he] at h
      cases h
      exact ⟨d', rfl, hf.storesWithin (programmed_length_le _ _ _)⟩
    | general =>
      obtain ⟨d', he, hst⟩ := startOperation_storesWithin s c d (off := row * s.cfg.fullPageSize)
        (programmed_length_le s.cfg (d.disturbed s.cfg) row)
      rw [execProgramConfirm_general hs hd hdev hm ha, he] at h
      cases h
      exact ⟨d', rfl, hst⟩
  · rw [execProgramConfirm_undefines hs hd hm] at h
    cases h
    exact ⟨_, rfl, .inl (Die.disturbed_image s.cfg d)⟩

/-- CMD_ERASE_CONFIRM stores within the block it decodes (20_memory.md R69, R78). -/
theorem eraseConfirm_storesWithin {block : Nat} (h : exec .cmdEraseConfirm s = .next t)
    (ha : s.cfg.decodeBlock d.abuf = some block) : ∃ d', t.dies = s.dies.set c.toNat d' ∧
      StoresWithin (block * s.cfg.blockSize) s.cfg.blockSize d d' := by
  by_cases hm : d.mode = .eraseSetup
  · cases hdev : s.cfg.device with
    | reference =>
      obtain ⟨d', he, hf⟩ := eraseReference_finished s c d block
      rw [execEraseConfirm_reference hs hd hdev hm ha, he] at h
      cases h
      exact ⟨d', rfl, hf.storesWithin (fill_length _ _).le⟩
    | general =>
      obtain ⟨d', he, hst⟩ := startOperation_storesWithin s c d (off := block * s.cfg.blockSize)
        (fill_length s.cfg.blockSize 0xFF).le
      rw [execEraseConfirm_general hs hd hdev hm ha, he] at h
      cases h
      exact ⟨d', rfl, hst⟩
  · rw [execEraseConfirm_undefines hs hd hm] at h
    cases h
    exact ⟨_, rfl, .inl (Die.disturbed_image s.cfg d)⟩

end

/-- A selected die that stores within a range leaves every other byte of every image. -/
theorem StoresWithin.imageByte {s t : State} {c : BitVec 4} {d d' : Die} {off n : Nat} (h : StoresWithin off n d d')
    (hd : s.dies[c.toNat]? = some d) (hw : Memory.wf d.image = true) (ht : t.dies = s.dies.set c.toNat d') {c' a : Nat}
    (ho : c' ≠ c.toNat ∨ a < off ∨ off + n ≤ a) : t.imageByte c' a = s.imageByte c' a := by
  rcases h with hi | ⟨l, hl, hi⟩
  · exact sameImages_set hd ht hi c' a
  · exact imageByte_write hd ht hi hw (by omega)

/-- A command outside its rule keeps the image: the model's choice (log 13). -/
theorem undefine_sameImages {s : State} {c : BitVec 4} {d : Die} (hd : s.dies[c.toNat]? = some d) :
    State.SameImages s (s.undefine c (d.disturbed s.cfg)) :=
  sameImages_set hd rfl (Die.disturbed_image s.cfg d)

/-- Settles O53: outside its mode a confirm keeps the image, and it stores within the page or block it decodes. -/
theorem confirmsStoreOnlyToTheirAddress : Obligations.ConfirmsStoreOnlyToTheirAddress := by
  intro s t c d hs hd hw
  refine ⟨fun h => ⟨fun hm => ?_, fun col row ha c' a ho => ?_⟩, fun h => ⟨fun hm => ?_, fun block ha c' a ho => ?_⟩⟩
  · rw [execProgramConfirm_undefines hs hd hm] at h
    cases h
    exact undefine_sameImages hd
  · obtain ⟨d', ht, hst⟩ := programConfirm_storesWithin hs hd h ha
    exact hst.imageByte hd hw ht ho
  · rw [execEraseConfirm_undefines hs hd hm] at h
    cases h
    exact undefine_sameImages hd
  · obtain ⟨d', ht, hst⟩ := eraseConfirm_storesWithin hs hd h ha
    exact hst.imageByte hd hw ht ho

/-! ### Commands outside their rule -/

/-- A byte outside the list of the eight names no command cycle (30_encoding.md R100). -/
theorem nandCmdOf_eq_none {cfg : Config} {b : Byte} (h : b ∉ cfg.commandList) : nandCmdOf cfg b = none := by
  refine List.find?_eq_none.mpr fun k hk hb => h ?_
  exact List.mem_map.mpr ⟨k, hk, by simpa using hb⟩

theorem execCmd_undefines {s : State} {c : BitVec 4} {d : Die} {b : Byte} (hs : s.sel = some c)
    (hd : s.dies[c.toNat]? = some d) (hb : b ∉ s.cfg.commandList) :
    exec (.cmd b) s = .next ((s.undefine c (d.disturbed s.cfg)).logPhase (.cmd b) .unit) := by
  refine outcome_ofEffect ?_
  rw [commandByteCycle_eq, nandCmdOf_eq_none hb]
  exact commandCycle_selected hs hd _

/-- The selected die of a machine a command outside its rule has left in a mode no rule gives (20_memory.md R70). -/
theorem undefine_die {s t : State} {c : BitVec 4} {d : Die} (hd : s.dies[c.toNat]? = some d)
    (ht : t.dies = (s.undefine c (d.disturbed s.cfg)).dies) :
    ∃ d', t.dies[c.toNat]? = some d' ∧ d'.mode = .undefined ∧ d'.image = d.image := by
  rw [ht]
  exact ⟨_, List.getElem?_set_self (List.getElem?_eq_some_iff.mp hd).1, rfl, Die.disturbed_image s.cfg d⟩

/-- A command cycle completes and leaves everything but the selected die as it is (20_memory.md R60). -/
theorem nandCmd_leavesOpen {s : State} {c : BitVec 4} {d : Die} (hs : s.sel = some c)
    (hd : s.dies[c.toNat]? = some d) (k : NandCmd) : ∃ t, exec (Instr.ofNandCmd k) s = .next t ∧
      State.SameOtherDies s t ∧ State.SameRegisters s t ∧ State.SameLines s t := by
  obtain ⟨t, h⟩ := exec_nandCmd_completes hs hd k
  have heff := nandCmd_effect h
  exact ⟨t, h, heff.sameOtherDies, heff.sameRegisters, heff.sameLines⟩

/-- Settles O39: outside its rule a command undefines the die, and any command cycle leaves the rest as it is. -/
theorem commandsOutsideTheirRuleLeaveTheDeviceUndefined :
    Obligations.CommandsOutsideTheirRuleLeaveTheDeviceUndefined := by
  intro s c d _ hs hd
  exact ⟨fun b hb => ⟨_, execCmd_undefines hs hd hb, undefine_die hd rfl⟩,
    fun hm => ⟨_, execReadConfirm_undefines hs hd hm, undefine_die hd rfl⟩,
    fun hm => ⟨_, execProgramConfirm_undefines hs hd hm, undefine_die hd rfl⟩,
    fun hm => ⟨_, execEraseConfirm_undefines hs hd hm, undefine_die hd rfl⟩,
    fun _ _ => nandCmd_leavesOpen hs hd .readConfirm, fun _ _ => nandCmd_leavesOpen hs hd .programConfirm,
    fun _ _ => nandCmd_leavesOpen hs hd .eraseConfirm⟩

end Sys2Proof.Machine
end

section
/-! PROOFS. The driver phases at the device (20_memory.md R62, R67, R71, R72; 42_phases.md R160 to R167). -/

namespace Sys2Proof.Machine

/-! ### SELECT, DESELECT and SET_WP -/

/-- Settles O36: each of the three is one effect. -/
theorem selectDeselectAndSetWp : Obligations.SelectDeselectAndSetWp := by
  intro s
  refine ⟨fun c hc => ?_, fun c d hs hd => ?_, fun hs => ?_, fun v => rfl⟩
  · rw [exec, execSelect, performSelect, if_pos hc]
    rfl
  · exact outcome_ofEffect (onSelected_some (s := { s with csSel := none }) hs hd)
  · exact outcome_ofEffect (onSelected_none (s := { s with csSel := none }) hs)

/-! ### DOUT -/

/-- Bytes stored into a page buffer from a column on, and those beyond the page dropped (20_memory.md R67). -/
theorem storeColumns_get {buf : List Byte} (col : Nat) (l : List Byte) {k : Nat} (hk : k < buf.length) :
    (storeColumns buf col l)[k]? = if col ≤ k ∧ k < col + l.length then l[k - col]? else buf[k]? := by
  induction l generalizing buf col with
  | nil => rw [storeColumns, if_neg (by simp)]
  | cons b t ih =>
    rw [storeColumns, ih _ (by simpa using hk)]
    rcases Nat.lt_trichotomy k col with hlt | rfl | hgt
    · rw [if_neg (by omega), if_neg (by omega), List.getElem?_set_ne (by omega)]
    · rw [if_neg (by omega), if_pos (by simp), List.getElem?_set_self hk]
      simp
    · have hiff : (col + 1 ≤ k ∧ k < col + 1 + t.length) ↔ (col ≤ k ∧ k < col + (b :: t).length) := by
        simp only [List.length_cons]
        omega
      rw [if_congr hiff rfl rfl, List.getElem?_set_ne hgt.ne, show k - col = k - (col + 1) + 1 by omega,
        List.getElem?_cons_succ]

section

variable {s : State} {c : BitVec 4} {d : Die} (hr : s.cfg.device = .reference) (hs : s.sel = some c)
  (hd : s.dies[c.toNat]? = some d)

include hr hs hd

theorem execDout_prog {col : Nat} (hm : d.mode = .prog) (ha : s.cfg.decodeCol d.abuf = some col) (l : List Byte) :
    exec (.dout l) s =
      .next ((s.setDie c { d with pbuf := storeColumns d.pbuf col l }).logPhase (.dout l) .unit) := by
  refine outcome_ofEffect ((onSelected_some hs hd).trans ?_)
  simp only [Die.disturbed_reference d hr, hm, ha, if_true]

/-- Outside mode PROG the selected die is replaced by itself. -/
theorem execDout_other (hm : d.mode ≠ .prog) (l : List Byte) :
    exec (.dout l) s = .next (s.logPhase (.dout l) .unit) := by
  have hself : s.dies.set c.toNat d = s.dies := by
    obtain ⟨hlt, rfl⟩ := List.getElem?_eq_some_iff.mp hd
    exact List.set_getElem_self hlt
  refine outcome_ofEffect ((onSelected_some hs hd).trans ?_)
  simp only [Die.disturbed_reference d hr, hm, if_false, State.setDie, hself]

end

/-- Settles O41: in mode PROG the bytes go where `storeColumns_get` says. -/
theorem doutFillsThePageBuffer : Obligations.DoutFillsThePageBuffer := by
  intro s c d l hr hs hd hp
  refine ⟨fun hm ha => ⟨_, execDout_prog hr hs hd hm (if_pos ha) l, by simp [hp], fun k hk => ?_⟩,
    fun hm => execDout_other hr hs hd hm l⟩
  exact storeColumns_get _ l (hp ▸ hk)

/-! ### DIN -/

/-- A `DIN` moves `rptr` on in the modes ID and READ_DATA (20_memory.md R72). -/
theorem afterDin_rptr (d : Die) (n : Nat) :
    (d.afterDin n).rptr = if d.mode = .id ∨ d.mode = .readData then d.rptr + n else d.rptr := by
  unfold Die.afterDin
  split <;> simp_all

/-- A `DIN` changes nothing else of what the reference device keeps. -/
theorem afterDin_frame (d : Die) (n : Nat) :
    (d.afterDin n).mode = d.mode ∧ (d.afterDin n).image = d.image ∧ (d.afterDin n).abuf = d.abuf ∧
    (d.afterDin n).pbuf = d.pbuf ∧ (d.afterDin n).preg = d.preg ∧ (d.afterDin n).status = d.status ∧
    (d.afterDin n).fail = d.fail := by
  unfold Die.afterDin
  split <;> exact ⟨rfl, rfl, rfl, rfl, rfl, rfl, rfl⟩

/-- The bytes a `DIN(n)` of the reference device returns: those the mode gives, then free ones. -/
def State.paddedBytes (s : State) (known : List Byte) (n : Nat) : List Byte :=
  known ++ freeBytes s.draws (n - known.length)

theorem paddedBytes_length (s : State) {known : List Byte} {n : Nat} (h : known.length ≤ n) :
    (s.paddedBytes known n).length = n := by
  simp only [State.paddedBytes, List.length_append, freeBytes_length]
  omega

theorem paddedBytes_get (s : State) {known : List Byte} (n : Nat) {k : Nat} (h : k < known.length) :
    (s.paddedBytes known n)[k]? = known[k]? :=
  List.getElem?_append_left h

theorem paddedBytes_full (s : State) {known : List Byte} {n : Nat} (h : known.length = n) :
    s.paddedBytes known n = known := by
  simp [State.paddedBytes, freeBytes, h]

/-- Bytes given by a list from a position on, as those of the identifier and of the page register are from `rptr`. -/
theorem paddedBytes_drop_take (s : State) (l : List Byte) (first : Nat) {n k : Nat} (hk : k < n)
    (hl : first + k < l.length) : (s.paddedBytes ((l.drop first).take n) n)[k]? = l[first + k]? := by
  rw [paddedBytes_get s n (by simp; omega), List.getElem?_take_of_lt hk, List.getElem?_drop]

/-- `DIN` on the reference device with no die selected. -/
theorem execDin_none {s : State} (n : Nat) (hr : s.cfg.device = .reference) (hs : s.sel = none) : exec (.din n) s =
    .next ((s.drew n).logPhase (.din n) (.bytes (s.paddedBytes [] n))) := by
  simp [exec, execDin, performDin, hs, State.noDieBytes, hr, State.padFree, State.paddedBytes, PhaseResult.outcome]

/-- `DIN` on the reference device. -/
theorem execDin_reference {s : State} {c : BitVec 4} {d : Die} (n : Nat) (hr : s.cfg.device = .reference)
    (hs : s.sel = some c) (hd : s.dies[c.toNat]? = some d) : exec (.din n) s =
      .next (((s.drew (n - (d.knownBytes s.cfg n).length)).setDie c (d.afterDin n)).logPhase (.din n)
        (.bytes (s.paddedBytes (d.knownBytes s.cfg n) n))) := by
  simp [exec, execDin, performDin, hs, hd, Die.disturbed_reference d hr, State.dieBytes, hr, State.padFree,
    State.paddedBytes, PhaseResult.outcome]

/-- Settles O42: the bytes are `paddedBytes` of those the mode gives. -/
theorem dinReturnsTheBytesOfItsMode : Obligations.DinReturnsTheBytesOfItsMode := by
  intro s n hr
  refine ⟨fun hs => ⟨_, _, execDin_none n hr hs, rfl, paddedBytes_length s (Nat.zero_le n), rfl⟩,
    fun c d hs hd hp => ⟨_, _, _, execDin_reference n hr hs hd, rfl, paddedBytes_length s (knownBytes_length_le _ _ _),
      rfl, fun hm => ⟨?_, fun ha k hk hid => ?_⟩, fun hm => ⟨?_, fun k hk hpage => ?_⟩, fun hm => ?_,
      fun hid hdata => ?_, afterDin_frame d n⟩⟩
  · simp [afterDin_rptr, hm]
  · simp only [Die.knownBytes, hm, ha, if_true]
    exact paddedBytes_drop_take s _ _ hk hid
  · simp [afterDin_rptr, hm]
  · simp only [Die.knownBytes, hm]
    exact paddedBytes_drop_take s _ _ hk (hp ▸ hpage)
  · simp only [Die.knownBytes, hm]
    exact paddedBytes_full s (fill_length _ _)
  · simp [afterDin_rptr, hid, hdata]

/-! ### WAIT_RDY -/

theorem becomeReady_busy (cfg : Config) (d : Die) (st : Byte) : (d.becomeReady cfg st).busy = false := by
  unfold Die.becomeReady
  split
  · rfl
  · split <;> rfl

/-- A die that becomes ready stores at most its array effect in progress (20_memory.md R59). -/
theorem becomeReady_image (cfg : Config) (d : Die) (st : Byte) : (d.becomeReady cfg st).image = d.image ∨
    ∃ p, d.pend = some p ∧ (d.becomeReady cfg st).image = Memory.writeBytes d.image p.off p.bytes := by
  unfold Die.becomeReady
  split
  · exact .inl rfl
  · split
    · next p hp =>
      dsimp only
      split
      · exact .inr ⟨p, hp, rfl⟩
      · exact .inl rfl
    · exact .inl rfl

/-- A die that is not unknown stores its array effect under a passing status and not under a failing one (20_memory.md
R78). -/
theorem becomeReady_stored {d : Die} {p : Pending} (cfg : Config) (st : Byte) (hu : d.unknown = false)
    (hp : d.pend = some p) : (d.becomeReady cfg st).image =
      if statusPass cfg st = true then Memory.writeBytes d.image p.off p.bytes else d.image := by
  simp [Die.becomeReady, hu, hp]

/-- A die that becomes ready changes no byte outside its array effect. -/
theorem becomeReady_outside {d : Die} {a : Nat} (cfg : Config) (st : Byte) (hw : Memory.wf d.image = true)
    (hout : ∀ p, d.pend = some p → a < p.off ∨ p.off + p.bytes.length ≤ a) :
    Memory.read (d.becomeReady cfg st).image a = Memory.read d.image a := by
  rcases becomeReady_image cfg d st with hi | ⟨p, hp, hi⟩
  · rw [hi]
  · rw [hi, Memory.read_writeBytes_outside hw (hout p hp)]

/-- Under a passing status the bytes of the array effect are stored. -/
theorem becomeReady_passed {d : Die} {p : Pending} {k : Nat} {b : Byte} {cfg : Config} {st : Byte}
    (hw : Memory.wf d.image = true) (hu : d.unknown = false) (hp : d.pend = some p) (hpass : statusPass cfg st = true)
    (hb : p.bytes[k]? = some b) : Memory.read (d.becomeReady cfg st).image (p.off + k) = b := by
  obtain ⟨hk, rfl⟩ := List.getElem?_eq_some_iff.mp hb
  rw [becomeReady_stored cfg st hu hp, if_pos hpass, Memory.read_writeBytes_inside hw hk]

section

variable {s : State} {c : BitVec 4} {d : Die}

theorem execWaitRdy_reference (bound : ReadyBound) (hr : s.cfg.device = .reference) :
    exec (.waitRdy bound) s = .next (s.logPhase (.waitRdy bound) .ready) := by
  simp [exec, execWaitRdy, performWaitRdy, hr, PhaseResult.outcome]

/-- A general die that is ready answers READY at once (42_phases.md R167). -/
theorem execWaitRdy_ready (bound : ReadyBound) (hg : s.cfg.device = .general) (hs : s.sel = some c)
    (hd : s.dies[c.toNat]? = some d) (hb : d.busy = false) (hu : d.unknown = false) :
    exec (.waitRdy bound) s = .next (s.logPhase (.waitRdy bound) .ready) := by
  simp [exec, execWaitRdy, performWaitRdy, hg, waitGeneral, hs, hd, hb, hu, PhaseResult.outcome]

/-- A wait on a busy general die ends as the device answers. -/
theorem execWaitRdy_busy (bound : ReadyBound) {a : WaitAnswer × State} (hg : s.cfg.device = .general)
    (hs : s.sel = some c) (hd : s.dies[c.toNat]? = some d) (hb : d.busy = true) (ha : s.answerWait = some a) :
    exec (.waitRdy bound) s = (finishWait bound (some (c, d)) a).outcome (.waitRdy bound) := by
  simp [exec, execWaitRdy, performWaitRdy, hg, waitGeneral, hs, hd, hb, ha]

end

theorem answerWait_ready {s : State} {st : Byte} {rest : List Answer} (h : s.answers = .ready st :: rest) :
    s.answerWait = some (.ready st, { s with answers := rest }) := by
  simp [State.answerWait, h]

theorem answerWait_timeout {s : State} {rest : List Answer} (h : s.answers = .timeout :: rest) :
    s.answerWait = some (.busy, { s with answers := rest }) := by
  simp [State.answerWait, h]

/-- Settles O44, by the device, whether the die is busy, and how the device answers. -/
theorem waitRdyAnswersOfTheDevice : Obligations.WaitRdyAnswersOfTheDevice := by
  intro s bound
  refine ⟨execWaitRdy_reference bound, fun c d hg hs hd => ⟨execWaitRdy_ready bound hg hs hd, ?_, ?_, ?_⟩⟩
  · intro st rest hb ha
    refine ⟨_, d.becomeReady s.cfg st, execWaitRdy_busy bound hg hs hd hb (answerWait_ready ha), rfl, rfl, rfl,
      becomeReady_busy _ _ _, becomeReady_pend _ _ _, fun hw => ⟨fun a => becomeReady_outside s.cfg st hw,
        fun hu p hp => ⟨fun hpass k b => becomeReady_passed hw hu hp hpass, fun hfail => ?_⟩⟩⟩
    rw [becomeReady_stored s.cfg st hu hp, if_neg (by simp [hfail])]
  · rintro n rest hb ha rfl
    exact ⟨_, d.timedOut, execWaitRdy_busy _ hg hs hd hb (answerWait_timeout ha), rfl, rfl, rfl, rfl, rfl⟩
  · rintro rest hb ha rfl
    exact execWaitRdy_busy _ hg hs hd hb (answerWait_timeout ha)

end Sys2Proof.Machine
end

section
/-! PROOFS. What a step of a request in progress can change of the dice, from a legal state (20_memory.md R50, R59;
60_exceptions.md R203). -/

namespace Sys2Proof.Machine

/-- A step of a busy controller in a legal state is a reset or a step of the request in the latch. -/
theorem busy_step_cases {s t : State} (hi : s.Inv) (hb : s.ctl = .busy) (h : step s = .next t) :
    t = s.applyReset ∨ runRequest s = .next t := by
  cases hr : s.rst with
  | true =>
    simp only [step, hi.cfg, hr, if_true, Host.Outcome.next.injEq] at h
    exact .inl h.symm
  | false => exact .inr (runRequest_of_step hr hi.bench hb h).2

/-! ### Other chip selects -/

/-- A reset touches at most the die of the request in the latch (70_reset_and_hazards.md R222, R228). -/
theorem abandonDie_other (s : State) {c : Nat} (hc : c ≠ s.reqCs.toNat) : s.abandonDie[c]? = s.dies[c]? := by
  unfold State.abandonDie
  split
  · exact List.getElem?_modify_ne _ _ hc.symm
  · rfl

/-- In a legal state the device has no die selected but that of the request in the latch. -/
theorem sel_of_other {s : State} (hi : s.Inv) (hb : s.ctl = .busy) {c : Nat} (hc : c ≠ s.reqCs.toNat) :
    s.sel.map BitVec.toNat ≠ some c := by
  rw [hi.selLine, hi.busySel hb]
  split
  · simpa using hc.symm
  · simp

/-- Settles O57: a reset or a step of a request, each of which touches at most the die of the request. -/
theorem otherChipSelectsAreUntouched : Obligations.OtherChipSelectsAreUntouched := by
  intro s t hi hb h
  rcases busy_step_cases hi hb h with rfl | h
  · exact ⟨abandonDie_length s, fun c hc => abandonDie_other s hc⟩
  · rcases runRequest_cases h with rfl | ⟨i, -, hm⟩
    · exact ⟨rfl, fun _ _ => rfl⟩
    · obtain ⟨hlen, hsame⟩ := hm.sameOtherDies (opStore_toBuffers _)
      exact ⟨hlen, fun c hc => hsame c (sel_of_other hi hb hc)⟩

/-! ### READ_PAGE and IDENTIFY -/

/-- A reset changes no byte of any image (70_reset_and_hazards.md R222). -/
theorem applyReset_sameImages (s : State) : State.SameImages s s.applyReset := by
  intro c a
  simp only [State.imageByte, State.applyReset_dies, State.abandonDie]
  split
  · rw [List.getElem?_modify, Option.map_eq_map, Option.map_map]
    refine congrArg (Option.map · _) (funext fun d => ?_)
    simp only [Function.comp]
    split <;> rfl
  · rfl

/-- The read confirm of a READ_PAGE finds the address of its page latched (20_memory.md R65). -/
theorem readPage_decodes {s : State} {d : Die} (hi : s.Inv) (hb : s.ctl = .busy) (ho : s.reqOp = 4)
    (hk : s.phasePc.toNat = 3) (hd : s.dies[s.reqCs.toNat]? = some d) : s.cfg.decodePage d.abuf ≠ none := by
  have hchk := hi.busyChecked hb (pc_ne_zero.mpr (by omega))
  have hlatch : latchAt s.cfg s.reqOp s.reqBlock s.reqPage s.phasePc.toNat =
      some (.readSetup, s.cfg.fullAddress s.reqBlock s.reqPage) := by
    rw [ho, hk]
    rfl
  rw [(hi.busyLatch hb _ _ hlatch d hd).2,
    decodePage_fullAddress hi.cfg (checks_block hchk (by simp [ho])) (checks_page hchk (by simp [ho]))]
  exact Option.some_ne_none _

/-- No phase of a READ_PAGE or IDENTIFY is a command cycle that may change the array. -/
theorem readPhases_store_nothing {s : State} {p : Phase} (hi : s.Inv) (hb : s.ctl = .busy)
    (ho : s.reqOp = 1 ∨ s.reqOp = 4) (hp : s.latchPhases[s.phasePc.toNat]? = some p) : s.storesIn p = false := by
  have A := latchPhases_at (valid_nodup hi.cfg) hp
  by_contra hst
  rcases storesIn_cases (by simpa using hst) with hc | ⟨b, c, d, rfl, hread, hs, hd, -, ha⟩
  · rcases A.confirms hc with ⟨h, -⟩ | ⟨h, -⟩ <;> simp [h] at ho
  · obtain ⟨h4, hk⟩ := A.readConfirms b rfl hread
    have hsel : s.sel = some s.reqCs := hi.busyDie hb (A.selected (by omega))
    obtain rfl : c = s.reqCs := Option.some.inj (hs.symm.trans hsel)
    exact readPage_decodes hi hb h4 hk hd ha

/-- During a READ_PAGE or IDENTIFY no array effect is in progress. -/
theorem readRequest_pend {s : State} (hi : s.Inv) (ho : s.reqOp = 1 ∨ s.reqOp = 4) {c : Nat} {d : Die}
    (hd : s.dies[c]? = some d) : d.pend = none := by
  by_contra hp
  obtain ⟨-, -, -, -, ⟨h, -⟩ | ⟨h, -⟩⟩ := hi.pend c d hd hp <;> simp [h] at ho

/-- Settles O56: a reset keeps every image, and so does each phase of the two requests. -/
theorem readAndIdentifyChangeNoByte : Obligations.ReadAndIdentifyChangeNoByte := by
  intro s t hi hb ho h
  rcases busy_step_cases hi hb h with rfl | h
  · exact applyReset_sameImages s
  · rcases runRequest_cases h with rfl | ⟨i, -, hm⟩
    · exact .of_dies_eq rfl
    · exact hm.sameImages (opStore_toBuffers _) fun p hp =>
        ⟨readPhases_store_nothing hi hb ho hp, fun _ c d hd => readRequest_pend hi ho hd⟩

end Sys2Proof.Machine
end

section
/-! PROOFS. ERASE_BLOCK and PROGRAM_PAGE of the general device obey the law of NAND (20_memory.md R59, R78;
40_operations.md R124 to R128). -/

namespace Sys2Proof.Machine

/-- A general die whose program or erase is in progress, from the die `d` it started on: the bytes it stores if it ends
in a passing status, and free bytes where they will be (20_memory.md R78; log 15). -/
structure Die.Operates (d D : Die) (off : Nat) (bytes : List Byte) : Prop where
  busy : D.busy = true
  unknown : D.unknown = false
  pend : D.pend = some ⟨off, bytes⟩
  image : ∃ l : List Byte, l.length = bytes.length ∧ D.image = Memory.writeBytes d.image off l

section

variable {d D : Die} {off : Nat} {bytes : List Byte} (h : Die.Operates d D off bytes) (hw : Memory.wf d.image = true)
  (cfg : Config) (st : Byte)

include h hw

/-- Ended in a passing status, the operation has stored its bytes. -/
theorem Die.Operates.passed (hp : statusPass cfg st = true) {k : Nat} {b : Byte} (hb : bytes[k]? = some b) :
    Memory.read (D.becomeReady cfg st).image (off + k) = b := by
  obtain ⟨l, -, hi⟩ := h.image
  exact becomeReady_passed (hi ▸ Memory.writeBytes_wf _ _ hw) h.unknown h.pend hp hb

/-- However it ended, no other byte has changed. -/
theorem Die.Operates.outside {a : Nat} (ha : a < off ∨ off + bytes.length ≤ a) :
    Memory.read (D.becomeReady cfg st).image a = Memory.read d.image a := by
  obtain ⟨l, hl, hi⟩ := h.image
  have hout : ∀ p, D.pend = some p → a < p.off ∨ p.off + p.bytes.length ≤ a := by
    intro p hp
    obtain rfl := Option.some.inj (h.pend.symm.trans hp)
    exact ha
  rw [becomeReady_outside cfg st (hi ▸ Memory.writeBytes_wf _ _ hw) hout, hi,
    Memory.read_writeBytes_outside hw (by omega)]

end

/-! ### Steps inside a request -/

/-- A program or erase of the chip select `c` has responded with the verdict on the status `st`, the image of its die
is `m`, and the device's answers left are `rest` (40_operations.md R125, R128). -/
structure State.Verdict (s t : State) (c : BitVec 4) (m : Memory) (st : Byte) (rest : List Answer) : Prop where
  resp : t.resp = .ok (statusPass s.cfg st)
  statusReg : t.statusReg = st
  answers : t.answers = rest
  die : ∃ d, t.dies = s.dies.set c.toNat d ∧ d.image = m

/-- What a run comes to it comes to from any state on its way. -/
theorem completes_after {k m : Nat} {s u : State} {P : State → Prop} (h : stepN k s = stepN m u)
    (hu : ∃ t, stepN m u = .next t ∧ P t) : ∃ t, stepN k s = .next t ∧ P t :=
  h ▸ hu

section

variable {s : State} {i : Instr} {c k : BitVec 4} {wa w wa' w' : Bool} {D D' : Die} {tr tr' : List TraceEntry}
  {id : List Byte} {st : Byte} {n n' m : Nat} {ans ans' : List Answer} {p : Phase} {r : Completion}

/-- A phase that hands no bytes back takes a run to the next index. -/
theorem inRequest_advance (h : s.Starts i) (hp : s.latchPhases[k.toNat]? = some p)
    (he : perform p (inRequest s c k wa w D tr s.dbuf id st n ans) =
      .done r (inRequest s c k wa' w' D' tr' s.dbuf id st n' ans')) (hr : r = .unit ∨ r = .ready) :
    stepN (m + 1) (inRequest s c k wa w D tr s.dbuf id st n ans) =
      stepN m (inRequest s c (k + 1) wa' w' D' tr' s.dbuf id st n' ans') :=
  inRequest_run h hp he hr m

/-- The status read of ERASE_BLOCK and PROGRAM_PAGE takes it there with `status_reg` written (40_operations.md R124,
R127). -/
theorem inRequest_readsStatus {sb : Byte} (h : s.Starts i) (ho : s.reqOp = 2 ∨ s.reqOp = 3)
    (hp : s.latchPhases[k.toNat]? = some (.din 1))
    (he : perform (.din 1) (inRequest s c k wa w D tr s.dbuf id st n ans) =
      .done (.bytes [sb]) (inRequest s c k wa w D' tr' s.dbuf id st n' ans')) :
    stepN (m + 1) (inRequest s c k wa w D tr s.dbuf id st n ans) =
      stepN m (inRequest s c (k + 1) wa w D' tr' s.dbuf id sb n' ans') := by
  have hstore : opStore s.reqOp = storeStatus := by rcases ho with ho | ho <;> rw [ho] <;> rfl
  rw [inRequest_run_din h hp he, hstore]
  rfl

/-- The deselection and the response of a program or erase. -/
theorem inRequest_ends (h : s.Starts i) (ho : s.reqOp = 2 ∨ s.reqOp = 3) (hc : c.toNat < s.dies.length)
    (hp : s.latchPhases[k.toNat]? = some .deselect) (hk : (k + 1).toNat = phaseCount s.reqOp) :
    ∃ t, stepN 2 (inRequest s c k wa w D tr s.dbuf id st n ans) = .next t ∧ State.Verdict s t c D.image st ans := by
  have hend := inRequest_end (c := c) (wa := wa) (w := w) (D := { D with mode := .idle, abuf := [] })
    (tr := tr ++ [⟨.deselect, .unit⟩]) (db := s.dbuf) (id := id) (st := st) (n := n) (ans := ans) h hk
  have hdesel : step (inRequest s c k wa w D tr s.dbuf id st n ans) = .next { inRequest s c (k + 1) wa w
      { D with mode := .idle, abuf := [] } (tr ++ [⟨.deselect, .unit⟩]) s.dbuf id st n ans with
      csSel := none, sel := none } := by
    rw [inRequest_step h hp, inRequest_desel hc]
    rfl
  refine ⟨_, (stepN_next (n := 1) hdesel).trans (stepN_next (n := 0) hend), ?_, rfl, rfl, _, rfl, rfl⟩
  rcases ho with ho | ho <;> simp [State.latchResp, ho, inRequest, State.pass]

end

/-! ### The payload -/

/-- A page of data fills the page buffer (20_memory.md R67). -/
theorem storeColumns_page {buf l : List Byte} (h : l.length = buf.length) : storeColumns buf 0 l = l := by
  refine List.ext_getElem? fun k => ?_
  rcases Nat.lt_or_ge k buf.length with hk | hk
  · rw [storeColumns_get 0 l hk, if_pos (by omega), Nat.sub_zero]
  · rw [List.getElem?_eq_none (by simpa using hk), List.getElem?_eq_none (by omega)]

/-- `DOUT` of a page from column 0 on. -/
theorem inRequest_dout_page {s : State} {c k : BitVec 4} {wa w : Bool} {D : Die} {tr : List TraceEntry}
    {db id l : List Byte} {st : Byte} {n : Nat} {ans : List Answer} (hc : c.toNat < s.dies.length)
    (hd : D.disturbed s.cfg = D) (hm : D.mode = .prog) (ha : s.cfg.decodeCol D.abuf = some 0)
    (hl : l.length = D.pbuf.length) : perform (.dout l) (inRequest s c k wa w D tr db id st n ans) =
      .done .unit (inRequest s c k wa w { D with pbuf := l } (tr ++ [⟨.dout l, .unit⟩]) db id st n ans) := by
  rw [inRequest_dout hc hd hm ha, storeColumns_page hl]

/-- A full address is read as column 0 (20_memory.md R65). -/
theorem decodeCol_fullAddress (cfg : Config) (block : BitVec 16) (page : BitVec 8) :
    cfg.decodeCol (cfg.fullAddress block page) = some 0 := by
  have hlen := colBytes_length cfg 0
  simp [Config.decodeCol, Config.fullAddress, List.take_left' hlen, hlen, rowBytes_length, leNat_colBytes_zero]

/-! ### From the wait to the response -/

/-- From the wait on, the lists of ERASE_BLOCK and PROGRAM_PAGE have the same phases (40_operations.md R124, R127). -/
theorem waiting_phases {s : State} {k : BitVec 4} (h : (s.reqOp = 2 ∧ k = 5) ∨ (s.reqOp = 3 ∧ k = 6)) :
    s.latchPhases[k.toNat]? = some (.waitRdy s.cfg.readyTimeout) ∧
    s.latchPhases[(k + 1).toNat]? = some (.cmd s.cfg.cmds.readStatus) ∧
    s.latchPhases[(k + 1 + 1).toNat]? = some (.din 1) ∧
    s.latchPhases[(k + 1 + 1 + 1).toNat]? = some (.setWp true) ∧
    s.latchPhases[(k + 1 + 1 + 1 + 1).toNat]? = some .deselect ∧
    (k + 1 + 1 + 1 + 1 + 1).toNat = phaseCount s.reqOp := by
  rcases h with ⟨ho, rfl⟩ | ⟨ho, rfl⟩ <;>
    simp [State.latchPhases, ho, eraseBlockPhases, programPagePhases, phaseCount]

/-- The status read of a general die whose operation ended with `sb` (log 15). -/
theorem inRequest_din_status {s : State} {c k : BitVec 4} {wa w : Bool} {D : Die} {tr : List TraceEntry}
    {db id : List Byte} {st sb : Byte} {n : Nat} {ans : List Answer} (hc : c.toNat < s.dies.length)
    (hg : s.cfg.device = .general) (hb : D.busy = false) (hu : D.unknown = false) (hm : D.mode = .status)
    (hl : D.latched = some sb) : perform (.din 1) (inRequest s c k wa w D tr db id st n ans) =
      .done (.bytes [sb]) (inRequest s c k wa w (D.afterDin 1) (tr ++ [⟨.din 1, .bytes [sb]⟩]) db id st n ans) := by
  have hlaw : D.lawBytes 1 = some [sb] := by simp [Die.lawBytes, hu, hm, hl]
  exact inRequest_din hc (Die.disturbed_ready hb) (.inr ⟨hg, hlaw⟩) rfl

/-- A die that is not unknown latches the status its operation ended with (log 15). -/
theorem becomeReady_healthy {cfg : Config} {d : Die} (st : Byte) (hu : d.unknown = false) :
    (d.becomeReady cfg st).unknown = false ∧ (d.becomeReady cfg st).latched = some st := by
  unfold Die.becomeReady
  rw [hu, if_neg Bool.false_ne_true]
  split <;> exact ⟨rfl, rfl⟩

/-- The last steps of a program or erase on a general die that is answered READY with the status `sb`: the wait, the
status read, write protection, the deselection, the response. -/
theorem waiting_run {s : State} {i : Instr} {k : BitVec 4} {D : Die} {tr : List TraceEntry} {n : Nat} {sb : Byte}
    {rest : List Answer} (h : s.Starts i) (hg : s.cfg.device = .general)
    (hk : (s.reqOp = 2 ∧ k = 5) ∨ (s.reqOp = 3 ∧ k = 6)) (hb : D.busy = true) (hu : D.unknown = false) :
    ∃ t, stepN 6 (inRequest s s.reqCs k false false D tr s.dbuf s.idbuf s.statusReg n (.ready sb :: rest)) = .next t ∧
      State.Verdict s t s.reqCs (D.becomeReady s.cfg sb).image sb rest := by
  obtain ⟨-, -, hc⟩ := starts_die h
  have hn := valid_nodup h.inv.cfg
  have ho := hk.imp And.left And.left
  obtain ⟨hwait, hcmd, hdin, hwp, hdesel, hend⟩ := waiting_phases hk
  obtain ⟨hunk, hlatched⟩ := becomeReady_healthy (cfg := s.cfg) sb hu
  have hready := becomeReady_busy s.cfg D sb
  refine completes_after (inRequest_advance h hwait (inRequest_wait_gen hc hg hb) (.inr rfl)) ?_
  refine completes_after
    (inRequest_advance h hcmd (inRequest_readStatus hc hn (Die.disturbed_ready hready)) (.inl rfl)) ?_
  refine completes_after
    (inRequest_readsStatus h ho hdin (inRequest_din_status hc hg hready hunk rfl hlatched)) ?_
  refine completes_after (inRequest_advance h hwp inRequest_setWp (.inl rfl)) ?_
  exact inRequest_ends h ho hc hdesel hend

/-! ### The law -/

/-- A program or erase of `bytes` at `off` of the chip select `c` has ended with the status `st`: the verdict is the
response, a passing one means that the bytes are stored, and no other byte has changed (20_memory.md R78). -/
structure State.ObeysLaw (s t : State) (c : BitVec 4) (off : Nat) (bytes : List Byte) (st : Byte)
    (rest : List Answer) : Prop where
  resp : t.resp = .ok (statusPass s.cfg st)
  statusReg : t.statusReg = st
  answers : t.answers = rest
  stored : statusPass s.cfg st = true → ∀ (k : Nat) (b : Byte), bytes[k]? = some b →
    t.imageByte c.toNat (off + k) = some b
  kept : ∀ c' a : Nat, c' ≠ c.toNat ∨ a < off ∨ off + bytes.length ≤ a → t.imageByte c' a = s.imageByte c' a

theorem imageByte_set_self {s t : State} {c : BitVec 4} {d : Die} (hc : c.toNat < s.dies.length)
    (h : t.dies = s.dies.set c.toNat d) (a : Nat) : t.imageByte c.toNat a = some (Memory.read d.image a) := by
  rw [State.imageByte, h, List.getElem?_set_self hc]
  rfl

theorem imageByte_set_ne {s t : State} {c : BitVec 4} {d : Die} {c' : Nat} (hc : c' ≠ c.toNat)
    (h : t.dies = s.dies.set c.toNat d) (a : Nat) : t.imageByte c' a = s.imageByte c' a := by
  rw [State.imageByte, h, List.getElem?_set_ne hc.symm]
  rfl

theorem Die.Operates.obeysLaw {s t : State} {c : BitVec 4} {d D : Die} {off : Nat} {bytes : List Byte} {st : Byte}
    {rest : List Answer} (h : Die.Operates d D off bytes) (hd : s.dies[c.toNat]? = some d)
    (hw : Memory.wf d.image = true) (hv : State.Verdict s t c (D.becomeReady s.cfg st).image st rest) :
    State.ObeysLaw s t c off bytes st rest := by
  have hc := (List.getElem?_eq_some_iff.mp hd).1
  obtain ⟨d', hdies, himage⟩ := hv.die
  refine ⟨hv.resp, hv.statusReg, hv.answers, fun hp k b hb => ?_, fun c' a ho => ?_⟩
  · rw [imageByte_set_self hc hdies, himage, h.passed hw s.cfg st hp hb]
  · by_cases hcc : c' = c.toNat
    · subst hcc
      rw [imageByte_set_self hc hdies, himage, h.outside hw s.cfg st (by simpa using ho), State.imageByte, hd]
      rfl
    · exact imageByte_set_ne hcc hdies a

/-- A legal state's dice hold images in canonical form. -/
theorem starts_canonical {s : State} {i : Instr} (h : s.Starts i) {c : Nat} {d : Die} (hd : s.dies[c]? = some d) :
    Memory.wf d.image = true :=
  (h.inv.diesWf d (List.mem_of_getElem? hd)).canonical

section

variable {s : State} {d : Die} {sb : Byte} {rest : List Answer} {block : BitVec 16} {page : BitVec 8}

/-- From the wait of an operation in progress on. -/
theorem operation_run {i : Instr} {k : BitVec 4} {D : Die} {tr : List TraceEntry} {n off : Nat} {bytes : List Byte}
    (h : s.Starts i) (hg : s.cfg.device = .general) (hk : (s.reqOp = 2 ∧ k = 5) ∨ (s.reqOp = 3 ∧ k = 6))
    (hd : s.dies[s.reqCs.toNat]? = some d) (ho : Die.Operates d D off bytes) :
    ∃ t, stepN 6 (inRequest s s.reqCs k false false D tr s.dbuf s.idbuf s.statusReg n (.ready sb :: rest)) = .next t ∧
      State.ObeysLaw s t s.reqCs off bytes sb rest := by
  obtain ⟨t, ht, hv⟩ := waiting_run h hg hk ho.busy ho.unknown
  exact ⟨t, ht, ho.obeysLaw hd (starts_canonical h hd) hv⟩

variable (hg : s.cfg.device = .general) (ha : s.answers = .ready sb :: rest) (hd : s.dies[s.reqCs.toNat]? = some d)
  (hb : d.busy = false) (hu : d.unknown = false)

include hg ha hd hb hu

/-- ERASE_BLOCK on a healthy general die erases its block by the law (40_operations.md R124). -/
theorem eraseBlock_obeysLaw (h : s.Starts (.eraseBlock s.reqCs s.reqBlock)) (ho : s.reqOp = 2) :
    ∃ t, stepN 11 s = .next t ∧ State.ObeysLaw s t s.reqCs (s.reqBlock.toNat * s.cfg.blockSize)
      (fill s.cfg.blockSize 0xFF) sb rest := by
  have hn := valid_nodup h.inv.cfg
  have hc := (List.getElem?_eq_some_iff.mp hd).1
  have hlist : s.latchPhases = eraseBlockPhases s.cfg s.reqCs s.reqBlock := by simp [State.latchPhases, ho]
  have haddr := decodeBlock_blockAddress h.inv.cfg (checks_block h.checked (by simp [ho]))
  refine completes_after (stepN_next (start_step h hd)) ?_
  rw [ha]
  refine completes_after (inRequest_advance h (by rw [hlist]; rfl) inRequest_setWp (.inl rfl)) ?_
  refine completes_after (inRequest_advance h (by rw [hlist]; rfl)
    (inRequest_eraseSetup hc hn (Die.disturbed_ready hb)) (.inl rfl)) ?_
  refine completes_after (inRequest_advance h (by rw [hlist]; rfl)
    (inRequest_addr hc (l := s.cfg.blockAddress s.reqBlock) (Die.disturbed_ready hb)) (.inl rfl)) ?_
  refine completes_after (inRequest_advance h (by rw [hlist]; rfl)
    (inRequest_eraseConfirm_gen (D := { d with mode := .eraseSetup, abuf := s.cfg.blockAddress s.reqBlock })
      hc hn hg hb hu rfl haddr) (.inl rfl)) ?_
  exact operation_run h hg (.inl ⟨ho, rfl⟩) hd ⟨rfl, hu, rfl, _, by simp, rfl⟩

/-- PROGRAM_PAGE on a healthy general die programs its page by the law (40_operations.md R127). -/
theorem programPage_obeysLaw (h : s.Starts (.programPage s.reqCs s.reqBlock s.reqPage)) (ho : s.reqOp = 3) :
    ∃ t, stepN 12 s = .next t ∧ State.ObeysLaw s t s.reqCs (s.cfg.rowOf s.reqBlock s.reqPage * s.cfg.fullPageSize)
      (Die.programmed s.cfg { d with pbuf := s.dbuf } (s.cfg.rowOf s.reqBlock s.reqPage)) sb rest := by
  have hn := valid_nodup h.inv.cfg
  have hc := (List.getElem?_eq_some_iff.mp hd).1
  have hlist : s.latchPhases = programPagePhases s.cfg s.reqCs s.reqBlock s.reqPage s.dbuf := by
    simp [State.latchPhases, ho]
  have haddr := decodePage_fullAddress h.inv.cfg (checks_block h.checked (by simp [ho]))
    (checks_page h.checked (by simp [ho]))
  refine completes_after (stepN_next (start_step h hd)) ?_
  rw [ha]
  refine completes_after (inRequest_advance h (by rw [hlist]; rfl) inRequest_setWp (.inl rfl)) ?_
  refine completes_after (inRequest_advance h (by rw [hlist]; rfl)
    (inRequest_programSetup hc hn (Die.disturbed_ready hb)) (.inl rfl)) ?_
  refine completes_after (inRequest_advance h (by rw [hlist]; rfl)
    (inRequest_addr hc (l := s.cfg.fullAddress s.reqBlock s.reqPage) (Die.disturbed_ready hb)) (.inl rfl)) ?_
  refine completes_after (inRequest_advance h (by rw [hlist]; rfl)
    (inRequest_dout_page hc (l := s.dbuf) (Die.disturbed_ready hb) rfl (decodeCol_fullAddress _ _ _)
      (h.inv.dbuf.trans (fill_length _ _).symm)) (.inl rfl)) ?_
  refine completes_after (inRequest_advance h (by rw [hlist]; rfl)
    (inRequest_programConfirm_gen
      (D := { d with mode := .prog, abuf := s.cfg.fullAddress s.reqBlock s.reqPage, pbuf := s.dbuf })
      hc hn hg hb hu rfl haddr) (.inl rfl)) ?_
  exact operation_run h hg (.inr ⟨ho, rfl⟩) hd ⟨rfl, hu, rfl, _, by simp; rfl, rfl⟩

end

/-- A program stores each byte of its page AND the one in `pbuf` (20_memory.md R68). -/
theorem programmed_getElem? {cfg : Config} {d : Die} (h : d.pbuf.length = cfg.fullPageSize) (row : Nat) {k : Nat}
    {b : Byte} (hb : d.pbuf[k]? = some b) :
    (d.programmed cfg row)[k]? = some (Memory.read d.image (row * cfg.fullPageSize + k) &&& b) := by
  have hk : k < cfg.fullPageSize := h ▸ (List.getElem?_eq_some_iff.mp hb).1
  have hlen : k < (d.programmed cfg row).length := by rwa [programmed_length h]
  rw [List.getElem?_eq_getElem hlen, programmed_get h row k hk hlen, List.getD_eq_getElem?_getD, hb]
  rfl

/-- Settles O34, by the law of an erase: its block is filled with 0xFF. -/
theorem generalDeviceErasesByTheLaw : Obligations.GeneralDeviceErasesByTheLaw := by
  intro s cs block st rest d h hg ha hd hb hu off
  obtain ⟨ho, rfl, rfl, -⟩ := latch_erase h.latch
  obtain ⟨t, ht, L⟩ := eraseBlock_obeysLaw hg ha hd hb hu h ho
  refine ⟨t, ht, L.resp, L.statusReg, L.answers, fun hp a hlo hhi => ?_, by simpa using L.kept⟩
  have herased : (fill s.cfg.blockSize 0xFF)[a - off]? = some 0xFF := List.getElem?_replicate_of_lt (by omega)
  rw [← Nat.add_sub_cancel' hlo]
  exact L.stored hp _ _ herased

/-- Settles O33, by the law of a program: its page's bytes are ANDed with the payload. -/
theorem generalDeviceProgramsByTheLaw : Obligations.GeneralDeviceProgramsByTheLaw := by
  intro s cs block page st rest d h hg ha hd hb hu off
  obtain ⟨ho, rfl, rfl, rfl⟩ := latch_program h.latch
  obtain ⟨t, ht, L⟩ := programPage_obeysLaw hg ha hd hb hu h ho
  have hkept := L.kept
  rw [programmed_length (d := { d with pbuf := s.dbuf }) h.inv.dbuf] at hkept
  refine ⟨t, ht, L.resp, L.statusReg, L.answers, fun hp k b hk => ?_, hkept⟩
  refine (L.stored hp k _ (programmed_getElem? h.inv.dbuf _ hk)).trans ?_
  rw [State.imageByte, hd]
  rfl

end Sys2Proof.Machine
end

section
/-! PROOFS. The formats of 30_encoding.md: each decoder against its encoder (R90 to R100), the written request (R106),
the response record (R94) and the address cycles (R103, R104). -/

namespace Sys2Proof.Machine

/-! ### The word of an instruction, decoded -/

theorem decodePhaseRecord_encodePhase (p : Phase) : decodePhaseRecord (encodePhase p) = .ok p := by
  cases p <;> rfl

theorem decodePhase_encodePhase (p : Phase) : decodePhase (encodePhase p) = .ok (Instr.ofPhase p) := by
  rw [decodePhase, decodePhaseRecord_encodePhase]

theorem decodeCommand_commandByte {cfg : Config} (h : cfg.commandList.Nodup) (k : NandCmd) :
    decodeCommand cfg (cfg.commandByte k) = .ok (Instr.ofNandCmd k) := by
  rw [decodeCommand, nandCmdOf_commandByte h]

/-- No request's word depends on the configuration, so the command bytes are free here (30_encoding.md R90 to R92). -/
theorem decodeRequest_of_encode {cfg : Config} {i : Instr} {w : BitVec 32} (h : encode cfg i = .request w) :
    decodeRequest w = .ok i := by
  cases i with
  | identify | eraseBlock | programPage | readPage =>
    cases h
    exact decodeRequest_packWord _ _ _ _
  | _ => cases h

theorem decodePhase_of_encode {cfg : Config} {i : Instr} {r : PhaseRecord} (h : encode cfg i = .phase r) :
    decodePhase r = .ok i := by
  cases i with
  | select | deselect | setWp | cmd | addr | dout | din | waitRdy =>
    cases h
    exact decodePhase_encodePhase _
  | _ => cases h

theorem decodeCommand_of_encode {cfg : Config} {i : Instr} {b : Byte} (hn : cfg.commandList.Nodup)
    (h : encode cfg i = .command b) : decodeCommand cfg b = .ok i := by
  cases i with
  | cmdReadId | cmdReadSetup | cmdReadConfirm | cmdProgramSetup | cmdProgramConfirm | cmdEraseSetup | cmdEraseConfirm
  | cmdReadStatus =>
    cases h
    exact decodeCommand_commandByte hn _
  | _ => cases h

/-- Settles O1, by the format of the instruction's word. -/
theorem decodeOfEncodeIsTheInstruction : Obligations.DecodeOfEncodeIsTheInstruction := by
  intro cfg i hn
  cases h : encode cfg i with
  | request w => exact decodeRequest_of_encode h
  | phase r => exact decodePhase_of_encode h
  | command b => exact decodeCommand_of_encode hn h

/-! ### The instruction of a word, encoded -/

theorem encode_of_decodeRequest {cfg : Config} {w : BitVec 32} {i : Instr} (h : decodeRequest w = .ok i) :
    encode cfg i = .request w := by
  have hw := packWord_fields w
  rcases decodeFields_ok h with ⟨ho, hb, hp, rfl⟩ | ⟨ho, hp, rfl⟩ | ⟨ho, rfl⟩ | ⟨ho, rfl⟩
  · rw [ho, hb, hp] at hw
    exact congrArg Encoded.request hw
  · rw [ho, hp] at hw
    exact congrArg Encoded.request hw
  · rw [ho] at hw
    exact congrArg Encoded.request hw
  · rw [ho] at hw
    exact congrArg Encoded.request hw

theorem encode_ofPhase (cfg : Config) (p : Phase) : encode cfg (Instr.ofPhase p) = .phase (encodePhase p) := by
  cases p <;> rfl

theorem encode_ofNandCmd (cfg : Config) (k : NandCmd) :
    encode cfg (Instr.ofNandCmd k) = .command (cfg.commandByte k) := by
  cases k <;> rfl

theorem phaseRecord_eq_of_kind {kind k : BitVec 4} (h : kind.toNat = k.toNat) (arg : PhaseArg) :
    PhaseRecord.mk k arg = PhaseRecord.mk kind arg := by
  rw [BitVec.eq_of_toNat_eq h]

/-- A record that decodes has the form of argument its kind calls for, and nothing else (30_encoding.md R95). -/
theorem encodePhase_of_decodePhaseRecord {r : PhaseRecord} {p : Phase} (h : decodePhaseRecord r = .ok p) :
    encodePhase p = r := by
  obtain ⟨kind, arg⟩ := r
  unfold decodePhaseRecord at h
  dsimp only at h
  split at h
  case h_9 => cases h
  all_goals
    next hkind =>
      split at h <;> cases h
      exact phaseRecord_eq_of_kind hkind _

theorem encode_of_decodePhase {cfg : Config} {r : PhaseRecord} {i : Instr} (h : decodePhase r = .ok i) :
    encode cfg i = .phase r := by
  unfold decodePhase at h
  split at h
  · next p hp =>
    cases h
    rw [encode_ofPhase, encodePhase_of_decodePhaseRecord hp]
  · cases h

theorem commandByte_of_nandCmdOf {cfg : Config} {b : Byte} {k : NandCmd} (h : nandCmdOf cfg b = some k) :
    cfg.commandByte k = b :=
  of_decide_eq_true (List.find?_some (p := fun k => decide (cfg.commandByte k = b)) h)

theorem encode_of_decodeCommand {cfg : Config} {b : Byte} {i : Instr} (h : decodeCommand cfg b = .ok i) :
    encode cfg i = .command b := by
  unfold decodeCommand at h
  split at h
  · next k hk =>
    cases h
    rw [encode_ofNandCmd, commandByte_of_nandCmdOf hk]
  · cases h

/-- Settles O2, by the format of the word. -/
theorem encodeOfDecodeIsTheWord : Obligations.EncodeOfDecodeIsTheWord := by
  intro cfg e i h
  cases e with
  | request w => exact encode_of_decodeRequest h
  | phase r => exact encode_of_decodePhase h
  | command b => exact encode_of_decodeCommand h

/-! ### The words that are no request -/

theorem decodeFields_error_iff (op cs : BitVec 4) (block : BitVec 16) (page : BitVec 8) :
    (∃ e, decodeFields op cs block page = .error e) ↔
      (op ≠ 1 ∧ op ≠ 2 ∧ op ≠ 3 ∧ op ≠ 4) ∨ (op = 1 ∧ ¬(block = 0 ∧ page = 0)) ∨ (op = 2 ∧ page ≠ 0) := by
  have hop : ∀ k : BitVec 4, op.toNat = k.toNat → op = k := fun _ => BitVec.eq_of_toNat_eq
  have hne : ∀ k : BitVec 4, (op.toNat = k.toNat → False) → op ≠ k := fun _ h he => h (congrArg BitVec.toNat he)
  fun_cases decodeFields op cs block page
  case case1 h hlow => simp_all [hop 1 h]
  case case2 h hlow => simp_all [hop 1 h]
  case case3 h hpage => simp_all [hop 2 h]
  case case4 h hpage => simp_all [hop 2 h]
  case case5 h => simp [hop 3 h]
  case case6 h => simp [hop 4 h]
  case case7 h1 h2 h3 h4 => exact iff_of_true ⟨_, rfl⟩ (.inl ⟨hne 1 h1, hne 2 h2, hne 3 h3, hne 4 h4⟩)

/-- `BLOCK` and `PAGE` are the 24 bits below `CS` (30_encoding.md R90). -/
theorem wordBlock_append_wordPage (w : BitVec 32) : wordBlock w ++ wordPage w = w.extractLsb' 0 24 :=
  BitVec.extractLsb'_append_extractLsb'_eq_extractLsb' rfl

theorem append_eq_zero_iff {v w : Nat} (x : BitVec v) (y : BitVec w) : x ++ y = 0 ↔ x = 0 ∧ y = 0 := by
  simp [← BitVec.toNat_inj, BitVec.toNat_append]

theorem wordLow_eq_zero_iff (w : BitVec 32) : w.extractLsb' 0 24 = 0 ↔ wordBlock w = 0 ∧ wordPage w = 0 := by
  rw [← wordBlock_append_wordPage]
  exact append_eq_zero_iff _ _

/-- Settles O4, by the fields of the word. -/
theorem reservedWordsAreNoRequest : Obligations.ReservedWordsAreNoRequest := by
  intro w
  rw [Ne.eq_def (w.extractLsb' 0 24), wordLow_eq_zero_iff]
  exact decodeFields_error_iff _ _ _ _

/-! ### Words the spec writes out -/

/-- Settles O3: each is a closed word. -/
theorem wordsOfTheSpecDecode : Obligations.WordsOfTheSpecDecode := by
  unfold Obligations.WordsOfTheSpecDecode
  decide

/-! ### The written request -/

/-- The packed fields as a sum of shifts (30_encoding.md R106). -/
theorem packWord_eq_or (op cs : BitVec 4) (block : BitVec 16) (page : BitVec 8) : packWord op cs block page =
    (op.setWidth 32 <<< 28) ||| (cs.setWidth 32 <<< 24) ||| (block.setWidth 32 <<< 8) ||| page.setWidth 32 :=
  (BitVec.setWidth_eq _).symm.trans BitVec.setWidth_append_append_append_eq_shiftLeft_setWidth_or

theorem shiftWord_eq_packWord (op cs : BitVec 4) (block : BitVec 16) (page : BitVec 8) :
    shiftWord op.toNat cs block page = packWord op cs block page := by
  rw [packWord_eq_or, shiftWord, BitVec.ofNat_toNat]

theorem encode_writtenRequest (cfg : Config) (r : WrittenRequest) :
    encode cfg r.instr = .request (r.request cfg).word := by
  cases r <;> exact congrArg Encoded.request (shiftWord_eq_packWord _ _ _ _).symm

/-- Settles O5: the shifted sum is the packed word, whose decoding O1 gives. -/
theorem writtenRequestsAssemble : Obligations.WrittenRequestsAssemble :=
  ⟨packWord_eq_or,
   fun cfg r => ⟨encode_writtenRequest cfg r, decodeRequest_of_encode (encode_writtenRequest cfg r)⟩,
   fun _ _ _ _ _ => rfl⟩

/-! ### The response record -/

theorem ofCode_code (f : FaultCode) : FaultCode.ofCode f.code = some f := by
  cases f <;> rfl

theorem decodeResp_encodeResp (r : Resp) : decodeResp (encodeResp r) = some r := by
  cases r with
  | fault f => exact congrArg (Option.map Resp.fault) (ofCode_code f)
  | _ => rfl

theorem decodeResp_unused {r : RespRecord} (h : r.kind.toNat = 6 ∨ r.kind.toNat = 7) : decodeResp r = none := by
  rcases h with h | h <;> simp [decodeResp, h]

/-- Settles O6: each kind is read back with its payload, a fault by its code. -/
theorem responseRecordIsReadBack : Obligations.ResponseRecordIsReadBack :=
  ⟨decodeResp_encodeResp, fun _ => decodeResp_unused, rfl, fun _ => rfl, fun _ => rfl, fun _ => rfl, rfl, fun _ => rfl,
   rfl, rfl, rfl, rfl⟩

/-! ### The address cycles -/

/-- Fewer cycles truncate the same bytes (30_encoding.md R103, R104). -/
theorem take_leBytes {n m : Nat} (h : n ≤ m) (v : Nat) : (leBytes m v).take n = leBytes n v := by
  induction n generalizing m v with
  | zero => rfl
  | succ n ih =>
    obtain ⟨m, rfl⟩ : ∃ k, m = k + 1 := ⟨m - 1, by omega⟩
    rw [leBytes, leBytes, List.take_succ_cons, ih (by omega)]

theorem leBytes_zero_eq_fill (n : Nat) : leBytes n 0 = fill n 0x00 := by
  induction n with
  | zero => rfl
  | succ n ih => rw [leBytes, Nat.zero_div, ih]; rfl

theorem leBytes_three (v : Nat) :
    leBytes 3 v = [BitVec.ofNat 8 v, BitVec.ofNat 8 (v / 256), BitVec.ofNat 8 (v / 65536)] := by
  simp [leBytes, Nat.div_div_eq_div_mul]

/-- The limits on the number of address cycles (00_scope.md R9, R10). -/
theorem valid_cycles {cfg : Config} (h : cfg.valid = true) : cfg.colCycles ≤ 2 ∧ cfg.rowCycles ≤ 3 :=
  ⟨of_decide_eq_true (limit_of_valid h (by simp [Config.limits])),
   of_decide_eq_true (limit_of_valid h (by simp [Config.limits]))⟩

/-- Settles O7: the cycles are the first of two and of three bytes. -/
theorem addressBytesAreLeastSignificantFirst : Obligations.AddressBytesAreLeastSignificantFirst := by
  intro cfg hv
  obtain ⟨hcol, hrow⟩ := valid_cycles hv
  exact ⟨fun col => (take_leBytes hcol col).symm, leBytes_zero_eq_fill _,
    fun row => by rw [← leBytes_three, take_leBytes hrow]; rfl, fun _ => leNat_rowBytes hv⟩

end Sys2Proof.Machine
end

section
/-! PROOFS. One step of a request in progress (40_operations.md R120): the decoded instruction runs, the phase at
`phase_pc` is performed, and after the last phase the request responds. -/

namespace Sys2Proof.Machine

/-! ### The instruction a step runs -/

theorem step_busy {s : State} (hv : s.cfg.valid = true) (hr : s.rst = false) (hb : s.bench = []) (hc : s.ctl = .busy) :
    step s = runRequest s := by
  simp [step, hv, hr, hb, hc]

theorem step_bench {s : State} {item : BenchItem} {rest : List BenchItem} (hv : s.cfg.valid = true)
    (hr : s.rst = false) (hb : s.bench = item :: rest) : step s = runBench item { s with bench := rest } := by
  simp [step, hv, hr, hb]

/-- Settles O16: the first word on the bench, or with none the latch of a busy controller, is decoded and run. -/
theorem stepRunsTheDecodedInstruction : Obligations.StepRunsTheDecodedInstruction := by
  intro s i hv hr
  refine ⟨fun hb hc hi => ?_, fun r rest hb hi => ?_, fun b rest hb hi => ?_⟩
  · rw [step_busy hv hr hb hc, (runRequest_latched hi).1]
  · simp only [step_bench hv hr hb, runBench, hi]
  · simp only [step_bench hv hr hb, runBench, hi]

/-! ### The response -/

/-- Past a list that is not empty no check runs: its request responds. -/
theorem responds_after_list {check : Option Ending} {phases : List Phase} {store : List Byte → State → State}
    {path : CleanupPath} {finish : State → Resp} {s : State} (hne : 0 < phases.length)
    (hpc : s.phasePc.toNat = phases.length) :
    afterChecks check s (listStep phases store path finish s) = .next (s.respond (finish s)) := by
  have hpast : phases[s.phasePc.toNat]? = none := List.getElem?_eq_none hpc.ge
  have hpos : s.phasePc ≠ 0 := pc_ne_zero.mpr (by omega)
  simp only [afterChecks, listStep, hpos, hpast, if_false, if_pos hpc]

/-- Settles O24: each index is the length of the operation's list. -/
theorem requestsRespondAfterTheirLastPhase : Obligations.RequestsRespondAfterTheirLastPhase := by
  intro s cs block page
  refine ⟨fun h => ?_, fun h => ?_, fun h => ?_, fun h => ?_⟩
  · exact responds_after_list (phases := identifyPhases s.cfg cs) (Nat.succ_pos _) (congrArg BitVec.toNat h)
  · exact responds_after_list (phases := eraseBlockPhases s.cfg cs block) (Nat.succ_pos _) (congrArg BitVec.toNat h)
  · exact responds_after_list (phases := programPagePhases s.cfg cs block page s.dbuf) (Nat.succ_pos _)
      (congrArg BitVec.toNat h)
  · exact responds_after_list (phases := readPagePhases s.cfg cs block page) (Nat.succ_pos _) (congrArg BitVec.toNat h)

/-! ### The reference device -/

/-- No phase of the reference device times out: it is never busy (20_memory.md R71). -/
theorem perform_reference_no_timeout {p : Phase} {s t : State} (hr : s.cfg.device = .reference) :
    perform p s ≠ .done .timeout t := by
  intro h
  have hcompletes := (perform_done h).completes
  cases p with
  | waitRdy bound => simp [perform, performWaitRdy, hr] at h
  | din n => simp [Phase.Completes] at hcompletes
  | _ => cases hcompletes

/-- On the reference device a phase that is settled has completed, and `phase_pc` moves on by one. -/
theorem settle_reference {store : List Byte → State → State} {path : CleanupPath} {p : Phase} {s t : State}
    (hs : StoresToBuffers store) (hr : s.cfg.device = .reference) (h : settle store path (perform p s) = .next t) :
    ∃ r, t.trace = s.trace ++ [⟨p, r⟩] ∧ t.phasePc = s.phasePc + 1 ∧ t.ctl = s.ctl := by
  have moved : ∀ {r : Completion} {u : State}, Performed p s r u →
      u.trace = s.trace ++ [⟨p, r⟩] ∧ u.phasePc + 1 = s.phasePc + 1 ∧ u.ctl = s.ctl :=
    fun P => ⟨P.trace, by rw [P.regs.phasePc], P.regs.ctl⟩
  rcases settle_next h with ⟨u, hu, -⟩ | ⟨u, hu, -⟩ | ⟨u, hu | hu, rfl⟩ | ⟨l, u, hu, rfl⟩
  · simp [(perform_hold hu).2.1] at hr
  · exact absurd hu (perform_reference_no_timeout hr)
  · exact ⟨_, moved (perform_done hu)⟩
  · exact ⟨_, moved (perform_done hu)⟩
  · obtain ⟨dbuf, idbuf, statusReg, he⟩ := hs l u
    rw [he]
    exact ⟨_, moved (perform_done hu)⟩

/-- Settles O25: the step completes, and the list has a phase at `phase_pc` or has ended. -/
theorem everyRequestStepPerformsItsPhase : Obligations.EveryRequestStepPerformsItsPhase := by
  intro s i hi hb hl hchk hr hpc
  obtain ⟨t, ht⟩ := (listStep_completes hi hb hchk).resolve_right fun ⟨_, hg, _⟩ => by simp [hr] at hg
  rw [phasesOf_latched hl] at hpc ⊢
  refine ⟨t, by simpa [(runRequest_latched hl).2, afterChecks, hchk] using ht, ?_⟩
  rcases listStep_cases (phases := s.latchPhases) (store := opStore s.reqOp) (path := opPath s.reqOp)
    (finish := State.latchResp) s with ⟨p, hp, he⟩ | ⟨hend, he⟩ | ⟨hpast, -⟩
  · rw [hp]
    obtain ⟨r, htrace, hnext, hctl⟩ := settle_reference (opStore_toBuffers _) hr (he ▸ ht)
    exact ⟨r, htrace, hnext, hctl.trans hb⟩
  · rw [List.getElem?_eq_none hend.ge]
    obtain rfl := Host.Outcome.next.inj (he.symm.trans ht)
    exact ⟨rfl, rfl, latchResp_ne_none hl⟩
  · omega

end Sys2Proof.Machine
end

section
/-! PROOFS. The end of a request's run, the same for the four operations, and IDENTIFY from its first phase to its response
(40_operations.md R120 to R122, R132; 20_memory.md R75). -/

namespace Sys2Proof.Machine

/-! ### The end of a request -/

/-- A request of the chip select `c` has run from `s` to its response: the phases it performed are `tr`, the image of its
die is `m`, and the registers hold `db`, `id` and `st` (40_operations.md R120). -/
structure State.Responded (s t : State) (c : BitVec 4) (m : Memory) (tr : List TraceEntry) (db id : List Byte)
    (st : Byte) : Prop where
  cfg : t.cfg = s.cfg
  reqOp : t.reqOp = s.reqOp
  resp : t.resp = t.latchResp
  dbuf : t.dbuf = db
  idbuf : t.idbuf = id
  statusReg : t.statusReg = st
  ctl : t.ctl = .idle
  csSel : t.csSel = none
  wpAsserted : t.wpAsserted = true
  runFaults : t.runFaults = s.runFaults
  trace : t.trace = s.trace ++ tr
  dies : ∃ d, t.dies = s.dies.set c.toNat d ∧ d.image = m

/-- The last phase of every list is DESELECT (40_operations.md R121, R124, R127, R130). -/
theorem latchPhases_last {s : State} {k : BitVec 4} (ho : s.reqOp = 1 ∨ s.reqOp = 2 ∨ s.reqOp = 3 ∨ s.reqOp = 4)
    (hk : (k + 1).toNat = phaseCount s.reqOp) : s.latchPhases[k.toNat]? = some .deselect := by
  have hsucc : (k + 1).toNat = (k.toNat + 1) % 16 := BitVec.toNat_add k 1
  rw [hsucc] at hk
  rcases ho with ho | ho | ho | ho <;> simp only [ho, phaseCount, BitVec.reduceToNat] at hk
  · have hlast : k.toNat = 4 := by omega
    simp [State.latchPhases, ho, hlast, identifyPhases]
  · have hlast : k.toNat = 9 := by omega
    simp [State.latchPhases, ho, hlast, eraseBlockPhases]
  · have hlast : k.toNat = 10 := by omega
    simp [State.latchPhases, ho, hlast, programPagePhases]
  · have hlast : k.toNat = 6 := by omega
    simp [State.latchPhases, ho, hlast, readPagePhases]

section

variable {s : State} {i : Instr} {c k : BitVec 4} {w : Bool} {D : Die} {tr : List TraceEntry} {db id : List Byte}
  {st : Byte} {n : Nat} {ans : List Answer}

/-- The deselection and the response that end every request. -/
theorem inRequest_responds (h : s.Starts i) (hc : c.toNat < s.dies.length)
    (hk : (k + 1).toNat = phaseCount s.reqOp) :
    ∃ t, stepN 2 (inRequest s c k true w D tr db id st n ans) = .next t ∧
      State.Responded s t c D.image (tr ++ [⟨.deselect, .unit⟩]) db id st := by
  have hend := inRequest_end (c := c) (wa := true) (w := w) (D := { D with mode := .idle, abuf := [] })
    (tr := tr ++ [⟨.deselect, .unit⟩]) (db := db) (id := id) (st := st) (n := n) (ans := ans) h hk
  have hdesel : step (inRequest s c k true w D tr db id st n ans) = .next { inRequest s c (k + 1) true w
      { D with mode := .idle, abuf := [] } (tr ++ [⟨.deselect, .unit⟩]) db id st n ans with
      csSel := none, sel := none } := by
    rw [inRequest_step h (latchPhases_last (latch_ok_op h.latch) hk), inRequest_desel hc]
    rfl
  exact ⟨_, (stepN_next (n := 1) hdesel).trans (stepN_next (n := 0) hend),
    rfl, rfl, rfl, rfl, rfl, rfl, rfl, rfl, rfl, rfl, rfl, _, rfl, rfl⟩

end

/-- A request that leaves the image of its die as it was changes no byte (20_memory.md R59). -/
theorem State.Responded.sameImages {s t : State} {c : BitVec 4} {d : Die} {tr : List TraceEntry} {db id : List Byte}
    {st : Byte} (R : State.Responded s t c d.image tr db id st) (hd : s.dies[c.toNat]? = some d) :
    State.SameImages s t := by
  obtain ⟨d', hdies, himage⟩ := R.dies
  exact sameImages_set hd hdies himage

/-! ### IDENTIFY -/

/-- A die that has been given `CMD_READ_ID` and the identifier's address (20_memory.md R63). -/
def Die.identifying (cfg : Config) (d : Die) : Die :=
  { d.disturbed cfg with mode := .id, abuf := [cfg.idAddr], rptr := 0 }

/-- The bytes a device answers IDENTIFY with: the reference device EXPECTED_ID, the general device those supplied from
outside or free ones (20_memory.md R75, R78; log 11, 12). -/
def State.Identifies (s : State) (id : List Byte) : Prop :=
  (s.cfg.device = .reference ∧ id = s.cfg.expectedId) ∨
    (s.cfg.device = .general ∧ ((∃ rest, s.answers = .bytes id :: rest ∧ id.length = s.cfg.idLen) ∨
      (s.answers = [] ∧ id = freeBytes s.draws s.cfg.idLen)))

section

variable {s : State} {i : Instr} {d : Die} {c k : BitVec 4} {wa w : Bool} {tr : List TraceEntry} {db old id : List Byte}
  {st : Byte}

/-- The DIN of IDENTIFY is answered with the identifier of the device. -/
theorem inRequest_din_id (hc : c.toNat < s.dies.length) (hid : s.Identifies id) : ∃ n ans,
    perform (.din s.cfg.idLen) (inRequest s c k wa w (d.identifying s.cfg) tr db old st s.draws s.answers) =
      .done (.bytes id) (inRequest s c k wa w ((d.identifying s.cfg).afterDin s.cfg.idLen)
        (tr ++ [⟨.din s.cfg.idLen, .bytes id⟩]) db old st n ans) := by
  have hd : (d.identifying s.cfg).disturbed s.cfg = d.identifying s.cfg := Die.disturbed_disturbed rfl rfl rfl rfl
  rcases hid with ⟨hr, rfl⟩ | ⟨hg, hdrawn⟩
  · have hknown : (d.identifying s.cfg).knownBytes s.cfg s.cfg.idLen = s.cfg.expectedId := by
      simp [Die.knownBytes, Die.identifying, Config.idLen]
    exact ⟨_, _, inRequest_din hc hd (.inl ⟨hr, hknown⟩) rfl⟩
  · have hlaw : (d.identifying s.cfg).lawBytes s.cfg.idLen = none := by simp [Die.lawBytes, Die.identifying]
    exact inRequest_din_drawn hc hd hg hlaw hdrawn

/-- The DIN of IDENTIFY stores its bytes in `idbuf` (40_operations.md R121). -/
theorem inRequest_storesId {D D' : Die} {tr' : List TraceEntry} {n n' m : Nat} {ans ans' : List Answer}
    (h : s.Starts i) (ho : s.reqOp = 1) (hp : s.latchPhases[k.toNat]? = some (.din s.cfg.idLen))
    (he : perform (.din s.cfg.idLen) (inRequest s c k wa w D tr s.dbuf old st n ans) =
      .done (.bytes id) (inRequest s c k wa w D' tr' s.dbuf old st n' ans')) :
    stepN (m + 1) (inRequest s c k wa w D tr s.dbuf old st n ans) =
      stepN m (inRequest s c (k + 1) wa w D' tr' s.dbuf id st n' ans') := by
  rw [inRequest_run_din h hp he, ho]
  rfl

theorem identifying_image (cfg : Config) (d : Die) (n : Nat) : ((d.identifying cfg).afterDin n).image = d.image :=
  (afterDin_frame _ n).2.1.trans (Die.disturbed_image cfg d)

/-- IDENTIFY runs its list to the response (40_operations.md R121). -/
theorem identify_responds (h : s.Starts i) (ho : s.reqOp = 1) (hd : s.dies[s.reqCs.toNat]? = some d)
    (hid : s.Identifies id) : ∃ t, stepN 6 s = .next t ∧ State.Responded s t s.reqCs d.image
      [⟨.select s.reqCs, .unit⟩, ⟨.cmd s.cfg.cmds.readId, .unit⟩, ⟨.addr [s.cfg.idAddr], .unit⟩,
        ⟨.din s.cfg.idLen, .bytes id⟩, ⟨.deselect, .unit⟩] s.dbuf id s.statusReg := by
  have hn := valid_nodup h.inv.cfg
  have hc := (List.getElem?_eq_some_iff.mp hd).1
  have hlist : s.latchPhases = identifyPhases s.cfg s.reqCs := by simp [State.latchPhases, ho]
  refine completes_after (stepN_next (start_step h hd)) ?_
  refine completes_after (inRequest_advance h (by rw [hlist]; rfl) (inRequest_readId_any hc hn) (.inl rfl)) ?_
  refine completes_after (inRequest_advance h (by rw [hlist]; rfl)
    (inRequest_addr hc (l := [s.cfg.idAddr]) (Die.disturbed_disturbed rfl rfl rfl rfl)) (.inl rfl)) ?_
  obtain ⟨n, ans, hdin⟩ := inRequest_din_id (d := d) hc hid
  refine completes_after (inRequest_storesId h ho (by rw [hlist]; rfl) hdin) ?_
  rw [← identifying_image s.cfg d s.cfg.idLen]
  exact inRequest_responds h hc (by rw [ho]; rfl)

end

/-- Settles O26: the request runs its list, and the device's answer is what its DIN stores in `idbuf`. -/
theorem identifyReturnsTheIdentifier : Obligations.IdentifyReturnsTheIdentifier := by
  intro s cs id h hid
  obtain ⟨ho, rfl⟩ := latch_identify h.latch
  obtain ⟨d, hd, -⟩ := starts_die h
  obtain ⟨t, ht, R⟩ := identify_responds h ho hd hid
  have hresp : t.latchResp = .id id := by simp [State.latchResp, R.reqOp, ho, R.idbuf]
  exact ⟨t, ht, R.resp.trans hresp, R.idbuf, R.ctl, R.trace, R.statusReg, R.wpAsserted, R.runFaults, R.sameImages hd⟩

end Sys2Proof.Machine
end

section
/-! PROOFS. ERASE_BLOCK and PROGRAM_PAGE of the reference device (40_operations.md R124 to R128; 20_memory.md R68, R69,
R73). -/

namespace Sys2Proof.Machine

/-! ### What the confirm leaves -/

/-- The status byte the reference device answers with after a program or erase, write protection released: `fail` alone
differs (20_memory.md R73). -/
theorem statusByte_released (fails : Bool) : statusByte false fails = if fails = true then 0xE1 else 0xE0 := by
  cases fails <;> rfl

/-- The image a program or erase of `bytes` at `off` leaves: as it was, if it fails (20_memory.md R68, R69). -/
def Die.stored (d : Die) (fails : Bool) (off : Nat) (bytes : List Byte) : Memory :=
  if fails = true then d.image else Memory.writeBytes d.image off bytes

/-- The reference device's die after the confirm of a program or erase with write protection released. -/
def Die.confirmed (d : Die) (fails : Bool) (off : Nat) (bytes : List Byte) : Die :=
  if fails = true then d.finish false true
  else Die.finish { d with image := Memory.writeBytes d.image off bytes } false false

section

variable (d : Die) (fails : Bool) (off : Nat) (bytes : List Byte)

theorem confirmed_image : (d.confirmed fails off bytes).image = d.stored fails off bytes := by
  cases fails <;> rfl

theorem confirmed_fail : (d.confirmed fails off bytes).fail = fails := by
  cases fails <;> rfl

end

section

variable {s t : State} {c : BitVec 4} {d : Die} {fails : Bool} {off : Nat} {bytes : List Byte} {tr : List TraceEntry}
  {db id : List Byte} {st : Byte} (R : State.Responded s t c (d.stored fails off bytes) tr db id st)
  (hd : s.dies[c.toNat]? = some d) (hw : Memory.wf d.image = true)

include R hd hw

/-- A program or erase that does not fail stores its bytes and changes no other byte; one that does changes none. -/
theorem State.Responded.imageByte (c' a : Nat) : t.imageByte c' a =
    if fails = false ∧ c' = c.toNat ∧ off ≤ a ∧ a < off + bytes.length then bytes[a - off]? else s.imageByte c' a := by
  obtain ⟨d', hdies, himage⟩ := R.dies
  cases fails with
  | true => exact sameImages_set hd hdies himage c' a
  | false =>
    split
    · next hin =>
      obtain ⟨-, rfl, hlo, hhi⟩ := hin
      have hread := (Memory.read_writeBytes off bytes a hw).trans (dif_pos ⟨hlo, hhi⟩)
      rw [imageByte_set_self (List.getElem?_eq_some_iff.mp hd).1 hdies, himage, List.getElem?_eq_getElem (by omega)]
      exact congrArg some hread
    · next hout =>
      refine imageByte_write hd hdies himage hw ?_
      by_contra hin
      exact hout ⟨rfl, by omega, by omega, by omega⟩

end

/-! ### From the wait to the response -/

/-- The status read of the reference device (20_memory.md R72). -/
theorem inRequest_din_statusByte {s : State} {c k : BitVec 4} {wa w : Bool} {D : Die} {tr : List TraceEntry}
    {db id : List Byte} {st : Byte} {n : Nat} {ans : List Answer} (hc : c.toNat < s.dies.length)
    (hr : s.cfg.device = .reference) (hm : D.mode = .status) :
    perform (.din 1) (inRequest s c k wa w D tr db id st n ans) = .done (.bytes [D.status])
      (inRequest s c k wa w (D.afterDin 1) (tr ++ [⟨.din 1, .bytes [D.status]⟩]) db id st n ans) := by
  have hknown : D.knownBytes s.cfg 1 = [D.status] := by simp [Die.knownBytes, hm, fill]
  exact inRequest_din hc (Die.disturbed_reference D hr) (.inl ⟨hr, hknown⟩) rfl

/-- The phases of ERASE_BLOCK and PROGRAM_PAGE from the wait on, with the status byte read. -/
def statusTrace (cfg : Config) (status : Byte) : List TraceEntry :=
  [⟨.waitRdy cfg.readyTimeout, .ready⟩, ⟨.cmd cfg.cmds.readStatus, .unit⟩, ⟨.din 1, .bytes [status]⟩,
    ⟨.setWp true, .unit⟩, ⟨.deselect, .unit⟩]

/-- The last steps of a program or erase on the reference device: the wait, the status read, write protection, the
deselection, the response. -/
theorem reference_waiting_run {s : State} {i : Instr} {k : BitVec 4} {D : Die} {tr : List TraceEntry} {n : Nat}
    {ans : List Answer} (h : s.Starts i) (hr : s.cfg.device = .reference)
    (hk : (s.reqOp = 2 ∧ k = 5) ∨ (s.reqOp = 3 ∧ k = 6)) :
    ∃ t, stepN 6 (inRequest s s.reqCs k false false D tr s.dbuf s.idbuf s.statusReg n ans) = .next t ∧
      State.Responded s t s.reqCs D.image (tr ++ statusTrace s.cfg (statusByte false D.fail)) s.dbuf s.idbuf
        (statusByte false D.fail) := by
  obtain ⟨-, -, hc⟩ := starts_die h
  have hn := valid_nodup h.inv.cfg
  have ho := hk.imp And.left And.left
  obtain ⟨hwait, hcmd, hdin, hwp, -, hend⟩ := waiting_phases hk
  refine completes_after (inRequest_advance h hwait (inRequest_wait_ref hr) (.inr rfl)) ?_
  refine completes_after
    (inRequest_advance h hcmd (inRequest_readStatus hc hn (Die.disturbed_reference D hr)) (.inl rfl)) ?_
  refine completes_after (inRequest_readsStatus h ho hdin (inRequest_din_statusByte hc hr rfl)) ?_
  refine completes_after (inRequest_advance h hwp inRequest_setWp (.inl rfl)) ?_
  obtain ⟨t, ht, R⟩ := inRequest_responds h hc hend
  exact ⟨t, ht, by simpa [statusTrace, Die.afterDin] using R⟩

/-- From the wait after a confirm on, nothing more is stored. -/
theorem confirmed_run {s : State} {i : Instr} {k : BitVec 4} {d : Die} {fails : Bool} {off : Nat} {bytes : List Byte}
    {tr : List TraceEntry} {n : Nat} {ans : List Answer} (h : s.Starts i) (hr : s.cfg.device = .reference)
    (hk : (s.reqOp = 2 ∧ k = 5) ∨ (s.reqOp = 3 ∧ k = 6)) :
    ∃ t, stepN 6 (inRequest s s.reqCs k false false (d.confirmed fails off bytes) tr s.dbuf s.idbuf s.statusReg n ans) =
        .next t ∧
      State.Responded s t s.reqCs (d.stored fails off bytes) (tr ++ statusTrace s.cfg (statusByte false fails)) s.dbuf
        s.idbuf (statusByte false fails) := by
  have hrun := reference_waiting_run (D := d.confirmed fails off bytes) (tr := tr) (n := n) (ans := ans) h hr hk
  rwa [confirmed_image, confirmed_fail] at hrun

/-- The response of a program or erase is the status interpreter's verdict (40_operations.md R125, R128). -/
theorem State.Responded.verdict {s t : State} {c : BitVec 4} {m : Memory} {tr : List TraceEntry} {db id : List Byte}
    {st : Byte} (R : State.Responded s t c m tr db id st) (ho : s.reqOp = 2 ∨ s.reqOp = 3) :
    t.resp = .ok (statusPass s.cfg st) := by
  have hresp : t.latchResp = .ok (statusPass t.cfg t.statusReg) := by
    rcases ho with ho | ho <;> simp [State.latchResp, R.reqOp, ho, State.pass]
  rw [R.resp, hresp, R.cfg, R.statusReg]

/-! ### The two requests -/

/-- A row's block is the one it was made from (30_encoding.md R102). -/
theorem rowOf_div_pagesPerBlock {cfg : Config} {block : BitVec 16} {page : BitVec 8}
    (hp : page.toNat < cfg.pagesPerBlock) : cfg.rowOf block page / cfg.pagesPerBlock = block.toNat := by
  rw [Config.rowOf, Nat.mul_comm, Nat.mul_add_div hp.pos, Nat.div_eq_of_lt hp, Nat.add_zero]

section

variable {s : State} {d : Die} (hr : s.cfg.device = .reference) (hd : s.dies[s.reqCs.toNat]? = some d)

include hr hd

/-- ERASE_BLOCK runs its list to the response (40_operations.md R124). -/
theorem eraseBlock_responds (h : s.Starts (.eraseBlock s.reqCs s.reqBlock)) (ho : s.reqOp = 2) {fails : Bool}
    (hf : fails = s.cfg.injected s.reqCs s.reqBlock.toNat .erase) :
    ∃ t, stepN 11 s = .next t ∧ State.Responded s t s.reqCs
      (d.stored fails (s.reqBlock.toNat * s.cfg.blockSize) (fill s.cfg.blockSize 0xFF))
      ([⟨.select s.reqCs, .unit⟩, ⟨.setWp false, .unit⟩, ⟨.cmd s.cfg.cmds.eraseSetup, .unit⟩,
        ⟨.addr (s.cfg.blockAddress s.reqBlock), .unit⟩, ⟨.cmd s.cfg.cmds.eraseConfirm, .unit⟩] ++
        statusTrace s.cfg (statusByte false fails)) s.dbuf s.idbuf (statusByte false fails) := by
  have hn := valid_nodup h.inv.cfg
  have hc := (List.getElem?_eq_some_iff.mp hd).1
  have hlist : s.latchPhases = eraseBlockPhases s.cfg s.reqCs s.reqBlock := by simp [State.latchPhases, ho]
  have haddr := decodeBlock_blockAddress h.inv.cfg (checks_block h.checked (by simp [ho]))
  refine completes_after (stepN_next (start_step h hd)) ?_
  refine completes_after (inRequest_advance h (by rw [hlist]; rfl) inRequest_setWp (.inl rfl)) ?_
  refine completes_after (inRequest_advance h (by rw [hlist]; rfl)
    (inRequest_eraseSetup hc hn (Die.disturbed_reference _ hr)) (.inl rfl)) ?_
  refine completes_after (inRequest_advance h (by rw [hlist]; rfl)
    (inRequest_addr hc (l := s.cfg.blockAddress s.reqBlock) (Die.disturbed_reference _ hr)) (.inl rfl)) ?_
  refine completes_after (inRequest_advance h (by rw [hlist]; rfl)
    (inRequest_eraseConfirm_ref (D := { d with mode := .eraseSetup, abuf := s.cfg.blockAddress s.reqBlock })
      hc hn hr rfl haddr hf) (.inl rfl)) ?_
  exact confirmed_run (d := { d with mode := .eraseSetup, abuf := s.cfg.blockAddress s.reqBlock }) h hr (.inl ⟨ho, rfl⟩)

/-- PROGRAM_PAGE runs its list to the response (40_operations.md R127). -/
theorem programPage_responds (h : s.Starts (.programPage s.reqCs s.reqBlock s.reqPage)) (ho : s.reqOp = 3)
    {fails : Bool} (hf : fails = s.cfg.injected s.reqCs s.reqBlock.toNat .program) :
    ∃ t, stepN 12 s = .next t ∧ State.Responded s t s.reqCs
      (d.stored fails (s.cfg.rowOf s.reqBlock s.reqPage * s.cfg.fullPageSize)
        (Die.programmed s.cfg { d with pbuf := s.dbuf } (s.cfg.rowOf s.reqBlock s.reqPage)))
      ([⟨.select s.reqCs, .unit⟩, ⟨.setWp false, .unit⟩, ⟨.cmd s.cfg.cmds.programSetup, .unit⟩,
        ⟨.addr (s.cfg.fullAddress s.reqBlock s.reqPage), .unit⟩, ⟨.dout s.dbuf, .unit⟩,
        ⟨.cmd s.cfg.cmds.programConfirm, .unit⟩] ++ statusTrace s.cfg (statusByte false fails))
      s.dbuf s.idbuf (statusByte false fails) := by
  have hn := valid_nodup h.inv.cfg
  have hc := (List.getElem?_eq_some_iff.mp hd).1
  have hlist : s.latchPhases = programPagePhases s.cfg s.reqCs s.reqBlock s.reqPage s.dbuf := by
    simp [State.latchPhases, ho]
  have hpage := checks_page h.checked (by simp [ho])
  have haddr := decodePage_fullAddress h.inv.cfg (checks_block h.checked (by simp [ho])) hpage
  have hblock := rowOf_div_pagesPerBlock (block := s.reqBlock) hpage
  refine completes_after (stepN_next (start_step h hd)) ?_
  refine completes_after (inRequest_advance h (by rw [hlist]; rfl) inRequest_setWp (.inl rfl)) ?_
  refine completes_after (inRequest_advance h (by rw [hlist]; rfl)
    (inRequest_programSetup hc hn (Die.disturbed_reference _ hr)) (.inl rfl)) ?_
  refine completes_after (inRequest_advance h (by rw [hlist]; rfl)
    (inRequest_addr hc (l := s.cfg.fullAddress s.reqBlock s.reqPage) (Die.disturbed_reference _ hr)) (.inl rfl)) ?_
  refine completes_after (inRequest_advance h (by rw [hlist]; rfl)
    (inRequest_dout_page hc (l := s.dbuf) (Die.disturbed_reference _ hr) rfl (decodeCol_fullAddress _ _ _)
      (h.inv.dbuf.trans (fill_length _ _).symm)) (.inl rfl)) ?_
  refine completes_after (inRequest_advance h (by rw [hlist]; rfl)
    (inRequest_programConfirm_ref
      (D := { d with mode := .prog, abuf := s.cfg.fullAddress s.reqBlock s.reqPage, pbuf := s.dbuf })
      hc hn hr rfl haddr (hblock.symm ▸ hf)) (.inl rfl)) ?_
  exact confirmed_run
    (d := { d with mode := .prog, abuf := s.cfg.fullAddress s.reqBlock s.reqPage, pbuf := s.dbuf }) h hr (.inr ⟨ho, rfl⟩)

end

/-- Settles O27: the confirm stores the block of 0xFF unless it is injected to fail, and the rest of the list stores
nothing. -/
theorem eraseBlockFillsItsBlock : Obligations.EraseBlockFillsItsBlock := by
  intro s cs block h hr fails status
  obtain ⟨ho, rfl, rfl, -⟩ := latch_erase h.latch
  obtain ⟨d, hd, -⟩ := starts_die h
  obtain ⟨t, ht, R⟩ := eraseBlock_responds (fails := fails) hr hd h ho rfl
  have hstatus : statusByte false fails = status := statusByte_released fails
  rw [hstatus] at R
  refine ⟨t, ht, R.verdict (.inl ho), R.statusReg, R.ctl, R.csSel, R.wpAsserted, R.runFaults, R.trace, fun c a => ?_⟩
  rw [R.imageByte hd (starts_canonical h hd) c a, fill_length, ← Nat.succ_mul]
  split_ifs with hin
  · exact List.getElem?_replicate_of_lt (by rw [Nat.succ_mul] at hin; omega)
  · rfl

/-- Settles O28: the confirm stores the page ANDed with the payload unless it is injected to fail, and the rest of the
list stores nothing. -/
theorem programPageAndsThePayload : Obligations.ProgramPageAndsThePayload := by
  intro s cs block page h hr fails status row off
  obtain ⟨ho, rfl, rfl, rfl⟩ := latch_program h.latch
  obtain ⟨d, hd, -⟩ := starts_die h
  obtain ⟨t, ht, R⟩ := programPage_responds (fails := fails) hr hd h ho rfl
  have hstatus : statusByte false fails = status := statusByte_released fails
  have hoff : s.cfg.rowOf s.reqBlock s.reqPage * s.cfg.fullPageSize = off := rfl
  have hlen := programmed_length (d := { d with pbuf := s.dbuf }) h.inv.dbuf (s.cfg.rowOf s.reqBlock s.reqPage)
  rw [hstatus, hoff] at R
  have himage := R.imageByte hd (starts_canonical h hd)
  rw [hlen] at himage
  refine ⟨t, ht, R.verdict (.inr ho), R.statusReg, R.ctl, R.csSel, R.wpAsserted, R.runFaults, R.trace,
    fun k b hb => ?_, fun c a hout => ?_⟩
  · have hk : k < s.cfg.fullPageSize := h.inv.dbuf ▸ (List.getElem?_eq_some_iff.mp hb).1
    have hstored := programmed_getElem? (d := { d with pbuf := s.dbuf }) h.inv.dbuf (s.cfg.rowOf s.reqBlock s.reqPage) hb
    refine (himage _ _).trans ?_
    cases hfails : fails with
    | true => simp
    | false =>
      rw [if_pos ⟨rfl, rfl, Nat.le_add_right _ _, Nat.add_lt_add_left hk _⟩, Nat.add_sub_cancel_left, hstored,
        State.imageByte, hd]
      rfl
  · refine (himage c a).trans (if_neg ?_)
    rintro ⟨-, hc, hlo, hhi⟩
    omega

end Sys2Proof.Machine
end

section
/-! PROOFS. READ_PAGE of the reference device and of a ready general die (40_operations.md R130, R131; 20_memory.md R66,
R72, R78). -/

namespace Sys2Proof.Machine

/-- What READ_PAGE asks of its die: on the reference device nothing, on the general device that the die is neither busy
nor unknown and becomes ready within the bound. -/
def State.Readable (s : State) (d : Die) : Prop :=
  s.cfg.device = .reference ∨
    (s.cfg.device = .general ∧ s.WaitAnswersReady ∧ d.busy = false ∧ d.unknown = false)

theorem State.Readable.undisturbed {s : State} {d : Die} (h : s.Readable d) :
    s.cfg.device = .reference ∨ d.busy = false :=
  h.imp_right fun ⟨_, _, hb, _⟩ => hb

/-- A die that answers a `DIN` of as many bytes as `l` has with `l`, by the rule of its device (20_memory.md R72, R78). -/
structure Die.Answers (cfg : Config) (d : Die) (l : List Byte) : Prop where
  undisturbed : d.disturbed cfg = d
  bytes : (cfg.device = .reference ∧ d.knownBytes cfg l.length = l) ∨
    (cfg.device = .general ∧ d.lawBytes l.length = some l)

section

variable {s : State} {i : Instr} {c k : BitVec 4} {wa w : Bool} {d D D' : Die} {tr tr' : List TraceEntry}
  {db id l : List Byte} {st : Byte} {n n' m row : Nat} {ans ans' : List Answer}

/-- After the wait that follows the read confirm the die answers with the page (20_memory.md R66, R78). -/
theorem inRequest_wait_loaded {bound : ReadyBound} (hc : c.toNat < s.dies.length) (h : s.Readable d)
    (hl : l = Memory.readBytes d.image (row * s.cfg.fullPageSize) s.cfg.fullPageSize) :
    ∃ D n ans, perform (.waitRdy bound)
        (inRequest s c k wa w (d.loadPage s.cfg 0 row) tr db id st s.draws s.answers) =
      .done .ready (inRequest s c k wa w D (tr ++ [⟨.waitRdy bound, .ready⟩]) db id st n ans) ∧
      D.image = d.image ∧ Die.Answers s.cfg D l := by
  subst hl
  rcases h with hr | ⟨hg, ha, -, hu⟩
  · refine ⟨_, _, _, inRequest_wait_ref hr, rfl, Die.disturbed_reference _ hr, .inl ⟨hr, ?_⟩⟩
    simp [Die.knownBytes, Die.loadPage]
  · have hbusy : (d.loadPage s.cfg 0 row).busy = true := decide_eq_true hg
    obtain ⟨sb, n, ans, hwait⟩ := inRequest_wait_ready (k := k) (wa := wa) (w := w) (tr := tr) (db := db) (id := id)
      (st := st) (n := s.draws) (ans := s.answers) (b := bound) hc hg hbusy ha
    have hready : (d.loadPage s.cfg 0 row).becomeReady s.cfg sb =
        { d.loadPage s.cfg 0 row with busy := false, latched := some sb } := by
      simp [Die.becomeReady, Die.loadPage, hu]
    rw [hready] at hwait
    refine ⟨_, n, ans, hwait, rfl, Die.disturbed_ready rfl, .inr ⟨hg, ?_⟩⟩
    simp [Die.lawBytes, Die.loadPage, hu]

/-- The DIN of READ_PAGE stores its bytes in `dbuf` (40_operations.md R130). -/
theorem inRequest_storesPage (h : s.Starts i) (ho : s.reqOp = 4)
    (hp : s.latchPhases[k.toNat]? = some (.din s.cfg.fullPageSize))
    (he : perform (.din s.cfg.fullPageSize) (inRequest s c k wa w D tr s.dbuf id st n ans) =
      .done (.bytes l) (inRequest s c k wa w D' tr' s.dbuf id st n' ans')) :
    stepN (m + 1) (inRequest s c k wa w D tr s.dbuf id st n ans) =
      stepN m (inRequest s c (k + 1) wa w D' tr' l id st n' ans') := by
  rw [inRequest_run_din h hp he, ho]
  rfl

/-- READ_PAGE runs its list to the response (40_operations.md R130). -/
theorem readPage_responds (h : s.Starts i) (ho : s.reqOp = 4) (hd : s.dies[s.reqCs.toNat]? = some d)
    (hread : s.Readable d) (hrow : row = s.cfg.rowOf s.reqBlock s.reqPage)
    (hl : l = Memory.readBytes d.image (row * s.cfg.fullPageSize) s.cfg.fullPageSize) :
    ∃ t, stepN 8 s = .next t ∧ State.Responded s t s.reqCs d.image
      [⟨.select s.reqCs, .unit⟩, ⟨.cmd s.cfg.cmds.readSetup, .unit⟩,
        ⟨.addr (s.cfg.fullAddress s.reqBlock s.reqPage), .unit⟩, ⟨.cmd s.cfg.cmds.readConfirm, .unit⟩,
        ⟨.waitRdy s.cfg.readyTimeout, .ready⟩, ⟨.din s.cfg.fullPageSize, .bytes l⟩, ⟨.deselect, .unit⟩]
      l s.idbuf s.statusReg := by
  have hn := valid_nodup h.inv.cfg
  have hc := (List.getElem?_eq_some_iff.mp hd).1
  have hlist : s.latchPhases = readPagePhases s.cfg s.reqCs s.reqBlock s.reqPage := by simp [State.latchPhases, ho]
  have hlen : l.length = s.cfg.fullPageSize := by rw [hl, Memory.readBytes_length]
  have haddr := decodePage_fullAddress h.inv.cfg (checks_block h.checked (by simp [ho]))
    (checks_page h.checked (by simp [ho]))
  rw [← hrow] at haddr
  refine completes_after (stepN_next (start_step h hd)) ?_
  refine completes_after (inRequest_advance h (by rw [hlist]; rfl)
    (inRequest_readSetup hc hn (Die.disturbed_eq hread.undisturbed)) (.inl rfl)) ?_
  refine completes_after (inRequest_advance h (by rw [hlist]; rfl)
    (inRequest_addr hc (l := s.cfg.fullAddress s.reqBlock s.reqPage) (Die.disturbed_eq hread.undisturbed))
    (.inl rfl)) ?_
  refine completes_after (inRequest_advance h (by rw [hlist]; rfl)
    (inRequest_readConfirm (D := { d with mode := .readSetup, abuf := s.cfg.fullAddress s.reqBlock s.reqPage }) hc hn
      (Die.disturbed_eq hread.undisturbed) rfl haddr) (.inl rfl)) ?_
  obtain ⟨D, n, ans, hwait, himage, hanswers⟩ := inRequest_wait_loaded (row := row) (bound := s.cfg.readyTimeout)
    (d := { d with mode := .readSetup, abuf := s.cfg.fullAddress s.reqBlock s.reqPage }) hc hread hl
  refine completes_after (inRequest_advance h (by rw [hlist]; rfl) hwait (.inr rfl)) ?_
  refine completes_after (inRequest_storesPage h ho (by rw [hlist]; rfl)
    (inRequest_din hc hanswers.undisturbed (hlen ▸ hanswers.bytes) hlen)) ?_
  have hkept : (D.afterDin s.cfg.fullPageSize).image = d.image := (afterDin_frame D _).2.1.trans himage
  rw [← hkept]
  exact inRequest_responds h hc (by rw [ho]; rfl)

end

/-- Settles O29: the request runs its list, and its DIN stores the bytes that the read confirm loaded. -/
theorem readPageReturnsThePage : Obligations.ReadPageReturnsThePage := by
  intro s cs block page h hdev row
  obtain ⟨ho, rfl, rfl, rfl⟩ := latch_read h.latch
  obtain ⟨d, hd, -⟩ := starts_die h
  have hread : s.Readable d := by
    refine hdev.imp_right fun ⟨hg, ha, d', hd', hb, hu⟩ => ⟨hg, ha, ?_⟩
    obtain rfl := Option.some.inj (hd.symm.trans hd')
    exact ⟨hb, hu⟩
  obtain ⟨t, ht, R⟩ := readPage_responds (row := row) h ho hd hread rfl rfl
  have hresp : t.latchResp = .page t.dbuf := by simp [State.latchResp, R.reqOp, ho]
  refine ⟨t, _, ht, ?_, R.dbuf, Memory.readBytes_length _ _ _, fun k hk => ?_, R.ctl, R.statusReg, R.wpAsserted,
    R.runFaults, R.trace, R.sameImages hd⟩
  · rw [R.resp, hresp, R.dbuf]
  · rw [State.imageByte, hd, List.getElem?_eq_getElem (by simpa using hk), Memory.readBytes_getElem]
    rfl

end Sys2Proof.Machine
end

section
/-! PROOFS. The status interpreter (41_status.md R151, R156) and the status byte it reads (20_memory.md R73). -/

namespace Sys2Proof.Machine

/-- The interpreter tests the bits of the mask and no others (41_status.md R151, R152). -/
theorem statusPass_iff (cfg : Config) (s : Byte) : statusPass cfg s = true ↔ s &&& cfg.statusFailMask = 0x00 :=
  decide_eq_true_iff

/-- Under the default mask the verdict is bit `FAIL` (41_status.md R151). -/
theorem statusPass_iff_of_defaultMask {cfg : Config} (hmask : cfg.statusFailMask = 0x01#8) (s : Byte) :
    statusPass cfg s = true ↔ s.getLsbD 0 = false := by
  rw [statusPass_iff, hmask, BitVec.and_one_eq_setWidth_ofBool_getLsbD]
  cases s.getLsbD 0 <;> decide

/-- Settles O9: the verdict is the masked bits', which under the default mask are bit `FAIL`; the four status bytes and the
table of R156 are closed. -/
theorem statusBytesAndTheirVerdict : Obligations.StatusBytesAndTheirVerdict :=
  ⟨statusPass_iff, fun _ s hmask => statusPass_iff_of_defaultMask hmask s, by decide⟩

end Sys2Proof.Machine
end

section
/-! PROOFS. Phases on the driver port: a wait that holds, CMD as a command cycle, and the confirm that starts a general
die's operation (42_phases.md R163, R167; 20_memory.md R59, R78). -/

namespace Sys2Proof.Machine

/-! ### A wait that holds -/

/-- Past the checks the latch holds a request (60_exceptions.md R193). -/
theorem latched_of_checked {s : State} (h : s.latchCheck = none) : ∃ i, s.latched = .ok i := by
  cases hl : s.latched with
  | ok i => exact ⟨i, rfl⟩
  | error e => simp [latched_error hl] at h

/-- A step of a legal busy controller past its first phase performs the phase its list has at `phase_pc`. -/
theorem step_performs {s : State} {p : Phase} (hi : s.Inv) (hr : s.rst = false) (hb : s.ctl = .busy)
    (h0 : s.phasePc ≠ 0) (hp : s.latchPhases[s.phasePc.toNat]? = some p) :
    step s = settle (opStore s.reqOp) (opPath s.reqOp) (perform p s) := by
  have hchk := hi.busyChecked hb h0
  obtain ⟨i, hl⟩ := latched_of_checked hchk
  obtain ⟨hrun, hexec⟩ := runRequest_latched hl
  rw [step_busy hi.cfg hr hi.bench hb, hrun, hexec]
  simp only [afterChecks, hchk, ite_self, listStep, hp]

/-- The indices of the three ready waits (40_operations.md R124, R127, R130). -/
theorem latchPhases_wait {s : State} (hn : s.cfg.commandList.Nodup) (h : (s.reqOp = 2 ∧ s.phasePc.toNat = 5) ∨
      (s.reqOp = 3 ∧ s.phasePc.toNat = 6) ∨ (s.reqOp = 4 ∧ s.phasePc.toNat = 4)) :
    s.latchPhases[s.phasePc.toNat]? = some (.waitRdy s.cfg.readyTimeout) := by
  have hlt : s.phasePc.toNat < s.latchPhases.length := by
    rw [latchPhases_length]
    rcases h with ⟨ho, hk⟩ | ⟨ho, hk⟩ | ⟨ho, hk⟩ <;> rw [ho, hk] <;> decide
  have hget := List.getElem?_eq_getElem hlt
  rw [hget, (latchPhases_at hn hget).wait h]

/-- Under INF a busy general die that is answered "still busy" keeps the wait on the driver port (42_phases.md R167). -/
theorem performWaitRdy_hold {s u : State} {c : BitVec 4} {d : Die} (hg : s.cfg.device = .general) (hs : s.sel = some c)
    (hd : s.dies[c.toNat]? = some d) (hb : d.busy = true) (ha : s.answerWait = some (.busy, u)) :
    perform (.waitRdy .inf) s = .hold u := by
  simp [perform, performWaitRdy, hg, waitGeneral, hs, hd, hb, ha, finishWait]

theorem answerWait_freeBusy {s : State} (h : s.answers = []) (hf : Config.freeReady s.draws = false) :
    s.answerWait = some (.busy, s.drew 1) := by
  simp [State.answerWait, h, hf]

/-- Settles O32: each of the two answers is "still busy", and the controller leaves a phase that holds where it is. -/
theorem infiniteWaitHolds : Obligations.InfiniteWaitHolds := by
  intro s d hi hr hb hg hinf hd hbusy hk
  have hwait : (s.reqOp = 2 ∧ s.phasePc.toNat = 5) ∨ (s.reqOp = 3 ∧ s.phasePc.toNat = 6) ∨
      (s.reqOp = 4 ∧ s.phasePc.toNat = 4) := by
    rcases hk with ⟨ho, hpc⟩ | ⟨ho, hpc⟩ | ⟨ho, hpc⟩ <;> simp [ho, hpc]
  have hp := latchPhases_wait (valid_nodup hi.cfg) hwait
  have h0 : s.phasePc.toNat ≠ 0 := by omega
  have hsel := hi.busyDie hb ((latchPhases_at (valid_nodup hi.cfg) hp).selected h0)
  have held : ∀ u, s.answerWait = some (.busy, u) → step s = .next u := fun u ha => by
    rw [step_performs hi hr hb (pc_ne_zero.mpr h0) hp, hinf, performWaitRdy_hold hg hsel hd hbusy ha]
    rfl
  exact ⟨fun rest ha => held _ (answerWait_timeout ha), fun ha hf => held _ (answerWait_freeBusy ha hf)⟩

/-! ### The confirm on a healthy general die -/

/-- A healthy general die starts its operation: it is busy in mode IDLE, its array effect in progress (20_memory.md R78;
log 15). -/
theorem startOperation_operates (s : State) (c : BitVec 4) {d : Die} (off : Nat) (bytes : List Byte)
    (hu : d.unknown = false) : ∃ d', (s.startOperation c d off bytes).dies = s.dies.set c.toNat d' ∧
      d'.mode = .idle ∧ Die.Operates d d' off bytes :=
  ⟨_, rfl, rfl, rfl, hu, by simp [hu], _, freeBytes_length _ _, rfl⟩

/-- An operation in progress has changed no byte outside those it stores. -/
theorem Die.Operates.read_outside {d D : Die} {off : Nat} {bytes : List Byte} (h : Die.Operates d D off bytes)
    (hw : Memory.wf d.image = true) {a : Nat} (ha : a < off ∨ off + bytes.length ≤ a) :
    Memory.read D.image a = Memory.read d.image a := by
  obtain ⟨l, hl, hi⟩ := h.image
  rw [hi, Memory.read_writeBytes_outside hw (hl ▸ ha)]

/-- Settles O50: each confirm is `State.startOperation` of the bytes it will store. -/
theorem generalConfirmStartsTheOperation : Obligations.GeneralConfirmStartsTheOperation := by
  intro s c d hg hs hd hw hp hb hu starts
  have hready := Die.disturbed_ready (cfg := s.cfg) hb
  refine ⟨fun col row hm ha => ?_, fun block hm ha => ?_⟩
  · have he := execProgramConfirm_general hs hd hg hm ha
    rw [hready] at he
    obtain ⟨d', hdies, hmode, ho⟩ := startOperation_operates s c (row * s.cfg.fullPageSize) (d.programmed s.cfg row) hu
    have hlen := programmed_length hp row
    refine ⟨_, he, d', hdies, ho.busy, hmode, ⟨_, ho.pend, rfl, hlen, fun k hk => ?_⟩,
      fun a hout => ho.read_outside hw (hlen.symm ▸ hout)⟩
    have hlt : k < (d.programmed s.cfg row).length := hlen.symm ▸ hk
    rw [List.getElem?_eq_getElem hlt, programmed_get hp row k hk hlt]
  · have he := execEraseConfirm_general hs hd hg hm ha
    rw [hready] at he
    obtain ⟨d', hdies, hmode, ho⟩ := startOperation_operates s c (block * s.cfg.blockSize) (fill s.cfg.blockSize 0xFF) hu
    have hlen := fill_length s.cfg.blockSize 0xFF
    exact ⟨_, he, d', hdies, ho.busy, hmode, ⟨_, ho.pend, rfl, hlen, fun k hk => List.getElem?_replicate_of_lt hk⟩,
      fun a hout => ho.read_outside hw (hlen.symm ▸ hout)⟩

/-! ### CMD -/

/-- One of the eight command bytes is its command cycle (30_encoding.md R100). -/
theorem commandByteCycle_commandByte {s : State} (hn : s.cfg.commandList.Nodup) (k : NandCmd) :
    commandByteCycle (s.cfg.commandByte k) s = exec (Instr.ofNandCmd k) s := by
  rw [commandByteCycle_eq, nandCmdOf_commandByte hn]

/-- Any byte completes its cycle on a selected die that is there, and with none selected (20_memory.md R60). -/
theorem commandByteCycle_completes {s : State} (h : ∀ c, s.sel = some c → c.toNat < s.dies.length) (b : Byte) :
    ∃ t, commandByteCycle b s = .next t := by
  cases hc : commandByteCycle b s with
  | next t => exact ⟨t, rfl⟩
  | fault f =>
    obtain ⟨-, c, hs, hd⟩ := commandByteCycle_fault hc
    exact absurd (h c hs) (List.getElem?_eq_none_iff.mp hd).not_gt
  | refused r => exact absurd hc commandByteCycle_not_refused

/-- Settles O38: CMD is the cycle of its byte, logged; a cycle by itself leaves the trace as it is. -/
theorem cmdIsTheCommandCycleOfItsByte : Obligations.CmdIsTheCommandCycleOfItsByte := by
  refine fun s => ⟨fun k u hn h => outcome_ofEffect ((commandByteCycle_commandByte hn k).trans h), fun h b => ?_⟩
  obtain ⟨t, ht⟩ := commandByteCycle_completes h b
  obtain ⟨-, htrace, -⟩ := (commandByteCycle_effect ht).samePorts
  exact ⟨_, outcome_ofEffect ht, by simp [htrace]⟩

end Sys2Proof.Machine
end

section
/-! PROOFS. The checks before the first phase (60_exceptions.md R193) and the faults of the run (R198). -/

namespace Sys2Proof.Machine

/-! ### The checks -/

/-- A field of the request is outside the device (60_exceptions.md R193, `oor`). -/
abbrev State.LatchOutOfRange (s : State) : Prop :=
  s.cfg.numCs ≤ s.reqCs.toNat ∨
    ((s.reqOp = 2 ∨ s.reqOp = 3 ∨ s.reqOp = 4) ∧ s.cfg.blocksPerCs ≤ s.reqBlock.toNat) ∨
    ((s.reqOp = 3 ∨ s.reqOp = 4) ∧ s.cfg.pagesPerBlock ≤ s.reqPage.toNat)

/-- The latch holds a reserved operation, or a reserved field that is not zero (60_exceptions.md R193). -/
abbrev State.LatchReserved (s : State) : Prop :=
  ¬(s.reqOp = 1 ∨ s.reqOp = 2 ∨ s.reqOp = 3 ∨ s.reqOp = 4) ∨
    (s.reqOp = 1 ∧ (s.reqBlock ≠ 0 ∨ s.reqPage ≠ 0)) ∨ (s.reqOp = 2 ∧ s.reqPage ≠ 0)

theorem outOfRange_latch (s : State) :
    outOfRange s.cfg s.reqOp s.reqCs s.reqBlock s.reqPage = true ↔ s.LatchOutOfRange := by
  simp [outOfRange, State.LatchOutOfRange, or_assoc]

/-- The checks on the latch, with the two ways to be reserved taken together (60_exceptions.md R193). -/
theorem latchCheck_eq (s : State) : s.latchCheck =
    if s.LatchReserved then some (.raise .reservedRequest)
    else if s.LatchOutOfRange then
      if s.reqOp = 4 then some (.respond .absent) else some (.raise .outOfRangeAddress)
    else if s.reqOp = 3 ∧ s.reqLen ≠ s.cfg.fullPageSize then some (.raise .badLength)
    else none := by
  rw [State.latchCheck, requestCheck, ite_or, ite_or]
  by_cases hoor : s.LatchOutOfRange
  · simp only [outOfRange_latch, hoor, true_and, if_true]
  · simp only [outOfRange_latch, hoor, false_and, if_false]

/-- A check that applies ends the request before any phase (60_exceptions.md R193). -/
theorem runRequest_checked {s : State} {e : Ending} (h0 : s.phasePc = 0) (he : s.latchCheck = some e) :
    runRequest s = .next (s.finishCheck e) := by
  cases hl : s.latched with
  | error _ =>
    obtain rfl := Option.some.inj ((latched_error hl).symm.trans he)
    simp only [runRequest, hl, State.finishCheck]
  | ok i =>
    obtain ⟨hrun, hexec⟩ := runRequest_latched hl
    simp only [hrun, hexec, afterChecks, h0, he, if_true]

/-- The first phase of every list is SELECT (40_operations.md R121, R124, R127, R130). -/
theorem latchPhases_first {s : State} (ho : s.reqOp = 1 ∨ s.reqOp = 2 ∨ s.reqOp = 3 ∨ s.reqOp = 4) :
    s.latchPhases[0]? = some (.select s.reqCs) := by
  rcases ho with ho | ho | ho | ho <;> simp only [State.latchPhases, ho] <;> rfl

theorem perform_select {s : State} {c : BitVec 4} (h : c.toNat < s.cfg.numCs) : perform (.select c) s =
    .done .unit (State.logPhase { s with csSel := some c, sel := some c } (.select c) .unit) := by
  rw [perform, performSelect, if_pos h]
  rfl

/-- Past the checks a request selects its die (40_operations.md R120). -/
theorem runRequest_selects {s : State} (h0 : s.phasePc = 0) (hchk : s.latchCheck = none) : runRequest s = .next
    { s with csSel := some s.reqCs, sel := some s.reqCs, phasePc := 1, trace := s.trace ++ [⟨.select s.reqCs, .unit⟩] } := by
  obtain ⟨i, hl⟩ := latched_of_checked hchk
  obtain ⟨hrun, hexec⟩ := runRequest_latched hl
  have hfirst : s.latchPhases[(0 : BitVec 4).toNat]? = some (.select s.reqCs) := latchPhases_first (latch_ok_op hl)
  simp only [hrun, hexec, afterChecks, hchk, ite_self, listStep, hfirst, perform_select (checks_cs hchk), settle,
    State.bumpPc, State.logPhase, h0]
  rfl

/-- Settles O21: at index 0 a step runs the checks, and each clause is one branch of them. -/
theorem checksRunInOrderBeforeAnyPhase : Obligations.ChecksRunInOrderBeforeAnyPhase := by
  intro s hv hr hb hc h0 oor reserved badLength raised
  rw [step_busy hv hr hb hc]
  have order := latchCheck_eq s
  refine ⟨fun h => ?_, fun hres hoor h4 => ?_, fun hres hoor h4 => ?_, fun hres hoor hlen => ?_,
    fun hres hoor hlen => ?_⟩
  · exact runRequest_checked h0 (order.trans (if_pos h))
  · rw [if_neg hres, if_pos hoor] at order
    exact runRequest_checked h0 (order.trans (if_pos h4))
  · rw [if_neg hres, if_pos hoor] at order
    exact runRequest_checked h0 (order.trans (if_neg h4))
  · rw [if_neg hres, if_neg hoor] at order
    exact runRequest_checked h0 (order.trans (if_pos hlen))
  · rw [if_neg hres, if_neg hoor] at order
    exact runRequest_selects h0 (order.trans (if_neg hlen))

/-! ### The faults of the run -/

/-- A step records no fault and answers none anew, or answers a fault and records it (60_exceptions.md R198). -/
def State.RecordsFaults (s t : State) : Prop :=
  (t.runFaults = s.runFaults ∧ (t.resp = s.resp ∨ ∀ f, t.resp ≠ .fault f)) ∨
    ∃ f, t.resp = .fault f ∧ t.runFaults = s.runFaults ++ [f]

theorem State.RecordsFaults.of_same {s t : State} (hf : t.runFaults = s.runFaults) (hr : t.resp = s.resp) :
    State.RecordsFaults s t :=
  .inl ⟨hf, .inl hr⟩

theorem State.RecordsFaults.of_no_fault {s t : State} (hf : t.runFaults = s.runFaults) (hr : ∀ f, t.resp ≠ .fault f) :
    State.RecordsFaults s t :=
  .inl ⟨hf, .inr hr⟩

theorem raise_recordsFaults (s : State) (f : FaultCode) : State.RecordsFaults s (s.raise f) := .inr ⟨f, rfl, rfl⟩

theorem latchResp_not_fault (s : State) (f : FaultCode) : s.latchResp ≠ .fault f := by
  fun_cases State.latchResp s <;> exact fun h => nomatch h

theorem RequestMove.recordsFaults {check : Option Ending} {phases : List Phase}
    {store : List Byte → State → State} {finish : State → Resp} {s t : State}
    (h : RequestMove check phases store finish s t) (hs : StoresToBuffers store)
    (hcheck : ∀ r, check = some (.respond r) → r = .absent) (hfinish : ∀ f, finish s ≠ .fault f) :
    State.RecordsFaults s t := by
  cases h with
  | checked e he =>
    cases e with
    | respond r =>
      obtain rfl := hcheck r he
      exact .of_no_fault rfl fun f h => nomatch h
    | raise f => exact raise_recordsFaults s f
  | responded => exact .of_no_fault rfl hfinish
  | raised => exact raise_recordsFaults s _
  | held a n => exact .of_same rfl rfl
  | moved p r u k _ P => exact .of_same P.regs.runFaults P.regs.resp
  | stored n l u _ P =>
    obtain ⟨dbuf, idbuf, statusReg, he⟩ := hs l u
    rw [he]
    exact .of_same P.regs.runFaults P.regs.resp

theorem runRequest_recordsFaults {s t : State} (h : runRequest s = .next t) : State.RecordsFaults s t := by
  rcases runRequest_cases h with rfl | ⟨i, -, hm⟩
  · exact raise_recordsFaults s _
  · exact hm.recordsFaults (opStore_toBuffers _) (fun _ => requestCheck_respond) (latchResp_not_fault s)

theorem idleTurn_recordsFaults (s : State) : State.RecordsFaults s s.idleTurn := by
  rcases idleTurn_cases s with ⟨-, r, he⟩ | he | he <;> rw [he]
  · exact .of_same rfl rfl
  · exact .of_no_fault rfl fun f h => nomatch h
  · exact .of_same rfl rfl

/-- Every step, whatever its kind, records the fault it answers with. -/
theorem step_recordsFaults {s t : State} (h : step s = .next t) : State.RecordsFaults s t := by
  rcases step_cases s with ⟨-, he⟩ | ⟨-, -, he⟩ | ⟨-, -, item, rest, -, he⟩ | ⟨-, -, -, -, he⟩ | ⟨-, -, -, -, he⟩ <;>
    rw [he] at h
  · cases h
  · cases h
    exact .of_no_fault rfl fun f h => nomatch h
  · have R := runBench_sameRegisters h
    exact .of_same R.runFaults R.resp
  · exact runRequest_recordsFaults h
  · cases h
    exact idleTurn_recordsFaults s

/-- Settles O60: a fault response where there was none is one the step has recorded. -/
theorem faultsOfTheRunAreNeverCleared : Obligations.FaultsOfTheRunAreNeverCleared := by
  intro s t h
  rcases step_recordsFaults h with ⟨hsame, hresp⟩ | ⟨f, hfault, hadded⟩
  · refine ⟨.inl hsame, fun f hnone hfault => ?_⟩
    rcases hresp with hresp | hresp
    · rw [hresp, hnone] at hfault
      cases hfault
    · exact absurd hfault (hresp f)
  · refine ⟨.inr ⟨f, hadded, hfault⟩, fun g _ hg => ?_⟩
    obtain rfl := Resp.fault.inj (hfault.symm.trans hg)
    exact hadded

end Sys2Proof.Machine
end

section
/-! PROOFS. A wait that times out: the cleanup path and FAULT(DeviceTimeout) (60_exceptions.md R196, 20_memory.md R59,
70_reset_and_hazards.md R228). -/

namespace Sys2Proof.Machine

/-! ### The cleanup path -/

/-- The request in progress at `s` is still in progress in the legal state `u`, after the phases `l`, none of which has
stored bytes or ended it. -/
structure State.RunsOn (s u : State) (l : List TraceEntry) : Prop where
  inv : u.Inv
  rst : u.rst = false
  busy : u.ctl = .busy
  reqOp : u.reqOp = s.reqOp
  reqCs : u.reqCs = s.reqCs
  statusReg : u.statusReg = s.statusReg
  dbuf : u.dbuf = s.dbuf
  runFaults : u.runFaults = s.runFaults
  trace : u.trace = s.trace ++ l

/-- So it is with its die left unknown, as after a wait that timed out (70_reset_and_hazards.md R228). -/
structure State.CleansUp (s u : State) (l : List TraceEntry) : Prop extends State.RunsOn s u l where
  die : ∃ d, u.dies[s.reqCs.toNat]? = some d ∧ d.unknown = true

/-- The request in progress at `s` has ended in FAULT(DeviceTimeout) after the phases `l` (60_exceptions.md R196). -/
def State.TimedOut (s t : State) (l : List TraceEntry) : Prop :=
  t.resp = .fault .deviceTimeout ∧ t.ctl = .idle ∧ t.phasePc = 0 ∧ t.csSel = none ∧ t.wpAsserted = true ∧
  t.statusReg = s.statusReg ∧ t.dbuf = s.dbuf ∧ t.runFaults = s.runFaults ++ [.deviceTimeout] ∧
  t.trace = s.trace ++ l ∧ ∃ d', t.dies[s.reqCs.toNat]? = some d' ∧ d'.unknown = true

/-- No phase makes an unknown die known again (70_reset_and_hazards.md R228). -/
theorem Performed.unknown {p : Phase} {s t : State} {r : Completion} (P : Performed p s r t) {c : Nat}
    (h : ∃ d, s.dies[c]? = some d ∧ d.unknown = true) : ∃ d, t.dies[c]? = some d ∧ d.unknown = true := by
  obtain ⟨d, hd, hu⟩ := h
  rcases P.dies with hdies | ⟨c', d', e, -, hd', hdies, hchange⟩
  · exact ⟨d, hdies ▸ hd, hu⟩
  · by_cases hc : c'.toNat = c
    · subst hc
      obtain rfl := Option.some.inj (hd'.symm.trans hd)
      exact ⟨e, hdies ▸ List.getElem?_set_self (List.getElem?_eq_some_iff.mp hd).1, hchange.unknown hu⟩
    · exact ⟨d, by rw [hdies, List.getElem?_set_ne hc, hd], hu⟩

section

variable {s u v : State} {l : List TraceEntry} {p : Phase} {r : Completion} {k : BitVec 4}

/-- A step that performs a phase and moves `phase_pc`. -/
theorem State.RunsOn.performs (R : s.RunsOn u l) (P : Performed p u r v) (h : step u = .next (v.goto k)) :
    s.RunsOn (v.goto k) (l ++ [⟨p, r⟩]) where
  inv := everyStepKeepsTheInvariant u _ R.inv h
  rst := P.regs.rst.trans R.rst
  busy := P.regs.ctl.trans R.busy
  reqOp := P.regs.reqOp.trans R.reqOp
  reqCs := P.regs.reqCs.trans R.reqCs
  statusReg := P.regs.statusReg.trans R.statusReg
  dbuf := P.regs.dbuf.trans R.dbuf
  runFaults := P.regs.runFaults.trans R.runFaults
  trace := by simp [P.trace, R.trace]

/-- The cleanup indices lie past every phase list (10_state.md R22). -/
theorem phaseCount_lt (op : BitVec 4) : phaseCount op < 12 := by
  revert op
  decide

/-- From index 12 on a legal busy controller is on the cleanup path of its request (60_exceptions.md R196). -/
theorem step_cleansUp (hi : u.Inv) (hr : u.rst = false) (hb : u.ctl = .busy) (hk : 12 ≤ u.phasePc.toNat) :
    step u = cleanupStep (opPath u.reqOp) u := by
  have hpast : phaseCount u.reqOp < u.phasePc.toNat := (phaseCount_lt _).trans_le hk
  have hchk := hi.busyChecked hb (pc_ne_zero.mpr (by omega))
  obtain ⟨i, hl⟩ := latched_of_checked hchk
  obtain ⟨hrun, hexec⟩ := runRequest_latched hl
  have hnone : u.latchPhases[u.phasePc.toNat]? = none := List.getElem?_eq_none (latchPhases_length ▸ hpast.le)
  rw [step_busy hi.cfg hr hi.bench hb, hrun, hexec]
  simp only [afterChecks, hchk, ite_self, listStep, hnone, latchPhases_length, if_neg hpast.ne']

/-- A phase of the cleanup path is performed with the die left unknown. -/
theorem State.CleansUp.performs (C : s.CleansUp u l) (hk : 12 ≤ u.phasePc.toNat)
    (hclean : cleanupStep (opPath u.reqOp) u = settle storeNothing (opPath u.reqOp) (perform p u))
    (hp : perform p u = .done .unit v) :
    step u = .next v.bumpPc ∧ s.CleansUp v.bumpPc (l ++ [⟨p, .unit⟩]) ∧ v.bumpPc.phasePc = u.phasePc + 1 := by
  have P := perform_done hp
  have hstep : step u = .next v.bumpPc := by
    rw [step_cleansUp C.inv C.rst C.busy hk, hclean, hp]
    rfl
  exact ⟨hstep, ⟨C.toRunsOn.performs P hstep, P.unknown C.die⟩, congrArg (· + 1) P.regs.phasePc⟩

/-- `CLEANUP_WP` asserts write protection first (60_exceptions.md R196). -/
theorem State.CleansUp.protects (C : s.CleansUp u l) (ho : s.reqOp = 2 ∨ s.reqOp = 3) (hk : u.phasePc = 12) :
    ∃ v, step u = .next v ∧ s.CleansUp v (l ++ [⟨.setWp true, .unit⟩]) ∧ v.phasePc = 13 := by
  rw [← C.reqOp] at ho
  have hclean : cleanupStep (opPath u.reqOp) u = settle storeNothing (opPath u.reqOp) (perform (.setWp true) u) := by
    rcases ho with ho | ho <;> simp only [cleanupStep, opPath, ho, hk] <;> rfl
  obtain ⟨hstep, hnext, hpc⟩ := C.performs (hk ▸ by decide) hclean rfl
  exact ⟨_, hstep, hnext, hpc.trans (hk ▸ rfl)⟩

/-- The end of both cleanup paths deselects the die (60_exceptions.md R196). -/
theorem State.CleansUp.deselects (C : s.CleansUp u l) (ho : s.reqOp = 2 ∨ s.reqOp = 3 ∨ s.reqOp = 4)
    (hk : u.phasePc = 13) :
    ∃ v, step u = .next v ∧ s.CleansUp v (l ++ [⟨.deselect, .unit⟩]) ∧ v.phasePc = 14 := by
  obtain ⟨d, hd, -⟩ := C.die
  have hsel : u.sel = some s.reqCs := C.reqCs ▸ C.inv.busyDie C.busy (by rw [hk]; exact Bool.or_true _)
  obtain ⟨v, hv⟩ : ∃ v, perform .deselect u = .done .unit v :=
    ⟨_, by rw [perform, performDeselect, onSelected_some (s := { u with csSel := none }) hsel hd]; rfl⟩
  rw [← C.reqOp] at ho
  have hclean : cleanupStep (opPath u.reqOp) u = settle storeNothing (opPath u.reqOp) (perform .deselect u) := by
    rcases ho with ho | ho | ho <;> simp only [cleanupStep, opPath, ho, hk] <;> rfl
  obtain ⟨hstep, hnext, hpc⟩ := C.performs (hk ▸ by decide) hclean hv
  exact ⟨_, hstep, hnext, hpc.trans (hk ▸ rfl)⟩

/-- After the cleanup path the fault is raised, with the outputs at their idle values (60_exceptions.md R196). -/
theorem State.CleansUp.raises (C : s.CleansUp u l) (ho : s.reqOp = 2 ∨ s.reqOp = 3 ∨ s.reqOp = 4)
    (hk : u.phasePc = 14) : step u = .next (u.raise .deviceTimeout) ∧ s.TimedOut (u.raise .deviceTimeout) l := by
  rw [← C.reqOp] at ho
  have hstep : step u = .next (u.raise .deviceTimeout) := by
    rw [step_cleansUp C.inv C.rst C.busy (hk ▸ by decide)]
    rcases ho with ho | ho | ho <;> simp only [cleanupStep, opPath, ho, hk] <;> rfl
  obtain ⟨-, hcs, hwp⟩ := (everyStepKeepsTheInvariant u _ C.inv hstep).idle rfl
  exact ⟨hstep, rfl, rfl, rfl, hcs, hwp, C.statusReg, C.dbuf, congrArg (· ++ _) C.runFaults, C.trace, C.die⟩

/-- Both cleanup paths end alike (60_exceptions.md R196). -/
theorem State.CleansUp.ends (C : s.CleansUp u l) (ho : s.reqOp = 2 ∨ s.reqOp = 3 ∨ s.reqOp = 4) (hk : u.phasePc = 13) :
    ∃ t, stepN 2 u = .next t ∧ s.TimedOut t (l ++ [⟨.deselect, .unit⟩]) := by
  obtain ⟨v, hdesel, D, hpc⟩ := C.deselects ho hk
  obtain ⟨hraise, T⟩ := D.raises ho hpc
  exact ⟨_, (stepN_next (n := 1) hdesel).trans (stepN_next (n := 0) hraise), T⟩

end

/-! ### The wait that times out -/

/-- A bounded wait on a busy general die that stays busy times out and leaves the die unknown (42_phases.md R167,
70_reset_and_hazards.md R228). -/
theorem performWaitRdy_timeout {s : State} {c : BitVec 4} {d : Die} (n : Nat) (hg : s.cfg.device = .general)
    (hs : s.sel = some c) (hd : s.dies[c.toNat]? = some d) (hb : d.busy = true) (ha : s.WaitAnswersBusy) :
    ∃ u, perform (.waitRdy (.polls n)) s = .done .timeout u ∧ u.dies = s.dies.set c.toNat d.timedOut := by
  obtain ⟨rest, draws, hans⟩ := ha.answerWait
  refine ⟨State.logPhase (State.setDie { s with answers := rest, draws := draws } c d.timedOut) (.waitRdy (.polls n))
    .timeout, ?_, rfl⟩
  simp [perform, performWaitRdy, hg, waitGeneral, hs, hd, hb, hans, finishWait]

/-- It takes the request to the entry of its cleanup path (60_exceptions.md R196). -/
theorem wait_cleansUp {s : State} {n : Nat} {d : Die} (hi : s.Inv) (hr : s.rst = false) (hb : s.ctl = .busy)
    (hg : s.cfg.device = .general) (hbound : s.cfg.readyTimeout = .polls n) (ha : s.WaitAnswersBusy)
    (hd : s.dies[s.reqCs.toNat]? = some d) (hbusy : d.busy = true)
    (hk : (s.reqOp = 2 ∧ s.phasePc.toNat = 5) ∨ (s.reqOp = 3 ∧ s.phasePc.toNat = 6) ∨
      (s.reqOp = 4 ∧ s.phasePc.toNat = 4)) :
    ∃ u, step s = .next u ∧ s.CleansUp u [⟨.waitRdy (.polls n), .timeout⟩] ∧
      u.phasePc = (opPath s.reqOp).entry := by
  have hp := latchPhases_wait (valid_nodup hi.cfg) hk
  have h0 : s.phasePc.toNat ≠ 0 := by omega
  have hsel := hi.busyDie hb ((latchPhases_at (valid_nodup hi.cfg) hp).selected h0)
  obtain ⟨u, hu, hdies⟩ := performWaitRdy_timeout n hg hsel hd hbusy ha
  have hstep : step s = .next (u.goto (opPath s.reqOp).entry) := by
    rw [step_performs hi hr hb (pc_ne_zero.mpr h0) hp, hbound, hu]
    rfl
  have R : s.RunsOn s [] := ⟨hi, hr, hb, rfl, rfl, rfl, rfl, rfl, (List.append_nil _).symm⟩
  have hset : u.dies[s.reqCs.toNat]? = some d.timedOut :=
    hdies ▸ List.getElem?_set_self (List.getElem?_eq_some_iff.mp hd).1
  exact ⟨_, hstep, ⟨R.performs (perform_done hu) hstep, _, hset, rfl⟩, rfl⟩

/-- Settles O31: the wait, the phases of the cleanup path one by one, the fault. -/
theorem timeoutRunsTheCleanupPath : Obligations.TimeoutRunsTheCleanupPath := by
  intro s n d hi hr hb hg hbound ha hd hbusy ended
  have waits := wait_cleansUp hi hr hb hg hbound ha hd hbusy
  refine ⟨fun h => ?_, fun ⟨ho, hpc⟩ => ?_⟩
  · have hentry : (opPath s.reqOp).entry = 12 := by rcases h with ⟨ho, -⟩ | ⟨ho, -⟩ <;> rw [ho] <;> rfl
    have hop := h.imp And.left And.left
    obtain ⟨u, hwait, C, hk⟩ := waits (by rcases h with ⟨ho, hpc⟩ | ⟨ho, hpc⟩ <;> simp [ho, hpc])
    obtain ⟨v, hprotect, D, hk'⟩ := C.protects hop (hk.trans hentry)
    exact completes_after (stepN_next hwait) (completes_after (stepN_next hprotect)
      (D.ends (hop.imp_right .inl) hk'))
  · obtain ⟨u, hwait, C, hk⟩ := waits (by simp [ho, hpc])
    exact completes_after (stepN_next hwait) (C.ends (by simp [ho]) (hk.trans (by rw [ho]; rfl)))

end Sys2Proof.Machine
end

section
/-! PROOFS. Reset (70_reset_and_hazards.md R220 to R224, R228): what it leaves at power-on, which is a legal state,
and at any later step. -/

namespace Sys2Proof.Machine

/-! ### Power-on -/

/-- The dice at power-on, one per chip select (20_memory.md R61). -/
theorem powerOn_die {cfg : Config} {c : Nat} {d : Die} (h : (State.powerOn cfg).dies[c]? = some d) :
    d = Die.powerOn cfg c := by
  rw [State.powerOn, List.getElem?_map] at h
  obtain ⟨c', hc', rfl⟩ := Option.map_eq_some_iff.mp h
  obtain ⟨-, rfl⟩ := List.getElem?_eq_some_iff.mp hc'
  rw [List.getElem_range]

theorem powerOn_dies_length (cfg : Config) : (State.powerOn cfg).dies.length = cfg.numCs := by
  simp [State.powerOn]

/-- Settles O10: the registers are those of `State.powerOn`, and each die is `Die.powerOn`. -/
theorem powerOnState : Obligations.PowerOnState := by
  refine fun cfg => ⟨rfl, rfl, rfl, rfl, rfl, rfl, rfl, rfl, rfl, powerOn_dies_length cfg, fun c d hd => ?_⟩
  obtain rfl := powerOn_die hd
  exact ⟨rfl, rfl, rfl, rfl, rfl, rfl, rfl⟩

/-- The initial images of a legal configuration are canonical and inside their address space (00_scope.md R10). -/
theorem valid_image0 {cfg : Config} (hv : cfg.valid = true) (c : Nat) :
    Memory.wf (cfg.image0.getD c []) = true ∧ cfg.imageFits (cfg.image0.getD c []) = true := by
  have hall : cfg.image0.all (fun m => Memory.wf m && cfg.imageFits m) = true :=
    limit_of_valid hv (by simp [Config.limits])
  rw [List.getD_eq_getElem?_getD]
  cases hm : cfg.image0[c]? with
  | none => exact ⟨rfl, rfl⟩
  | some m => exact Bool.and_eq_true_iff.mp (List.all_eq_true.mp hall m (List.mem_of_getElem? hm))

theorem powerOn_dieWf {cfg : Config} (hv : cfg.valid = true) (c : Nat) : Die.Wf cfg (Die.powerOn cfg c) where
  canonical := (valid_image0 hv c).1
  inside := (valid_image0 hv c).2
  pbuf := fill_length _ _
  preg := fill_length _ _
  pend := fun _ h => nomatch h

/-- A legal configuration powers on in a legal state. -/
theorem powerOn_inv {cfg : Config} (hv : cfg.valid = true) : (State.powerOn cfg).Inv where
  cfg := hv
  bench := rfl
  dies := powerOn_dies_length cfg
  diesWf := by
    intro d hd
    obtain ⟨c, hd⟩ := List.mem_iff_getElem?.mp hd
    obtain rfl := powerOn_die hd
    exact powerOn_dieWf hv c
  dbuf := fill_length _ _
  idbuf := fill_length _ _
  resp := trivial
  wpLine := rfl
  selLine := rfl
  sel := fun _ h => nomatch h
  idle := fun _ => ⟨rfl, rfl, rfl⟩
  busyResp := fun h => nomatch h
  busyPc := fun h => nomatch h
  busySel := fun h => nomatch h
  busyWp := fun h => nomatch h
  busyChecked := fun h => nomatch h
  busyDie := fun h => nomatch h
  busyLatch := fun h => nomatch h
  pend := fun c d hd hp => absurd (by rw [powerOn_die hd]; rfl) hp

/-- Settles O11: power-on is legal for every legal configuration, and TCFG is one. -/
theorem invariantHoldsAtPowerOn : Obligations.InvariantHoldsAtPowerOn :=
  ⟨fun _ hv => powerOn_inv hv, powerOn_inv (by decide)⟩

/-! ### Reset at any step -/

theorem step_reset {s : State} (hv : s.cfg.valid = true) (hr : s.rst = true) : step s = .next s.applyReset := by
  simp [step, hv, hr]

/-- A step with the reset input asserted is the reset. -/
theorem reset_of_step {s t : State} (hr : s.rst = true) (h : step s = .next t) : t = s.applyReset := by
  rcases step_cases s with ⟨-, he⟩ | ⟨-, -, he⟩ | ⟨-, hr', -⟩ | ⟨-, hr', -⟩ | ⟨-, hr', -⟩
  · rw [he] at h
    cases h
  · exact Host.Outcome.next.inj (h.symm.trans he)
  all_goals simp [hr] at hr'

/-- Past its confirm command means the indices after it (70_reset_and_hazards.md R228). -/
theorem pastConfirm_iff (s : State) : s.pastConfirm = true ↔ s.ctl = .busy ∧
    ((s.reqOp = 2 ∧ 5 ≤ s.phasePc.toNat) ∨ (s.reqOp = 3 ∧ 6 ≤ s.phasePc.toNat) ∨
      (s.reqOp = 4 ∧ 4 ≤ s.phasePc.toNat)) := by
  have hop : ∀ k : BitVec 4, s.reqOp = k ↔ s.reqOp.toNat = k.toNat := fun k => BitVec.toNat_inj.symm
  simp only [State.pastConfirm, Bool.and_eq_true, decide_eq_true_eq, hop]
  refine and_congr_right fun _ => ?_
  split
  · next h => simp [h]
  · next h => simp [h]
  · next h => simp [h]
  · next h2 h3 h4 =>
    refine iff_of_false Bool.false_ne_true ?_
    rintro (⟨h, -⟩ | ⟨h, -⟩ | ⟨h, -⟩)
    exacts [h2 h, h3 h, h4 h]

theorem abandonDie_kept {s : State} (h : ¬(s.cfg.device = .general ∧ s.pastConfirm = true)) : s.abandonDie = s.dies :=
  if_neg h

/-- Every die is there after a reset: as it was, or unknown (70_reset_and_hazards.md R222, R228). -/
theorem abandonDie_of_die {s : State} {c : Nat} {d : Die} (h : s.dies[c]? = some d) :
    ∃ d', s.abandonDie[c]? = some d' ∧ (d' = { d with unknown := true, pend := none, latched := none } ∨
      (d' = d ∧ ¬(s.cfg.device = .general ∧ s.pastConfirm = true ∧ s.reqCs.toNat = c))) := by
  have hlt : c < s.abandonDie.length := abandonDie_length s ▸ (List.getElem?_eq_some_iff.mp h).1
  have hget := List.getElem?_eq_getElem hlt
  obtain ⟨d0, hd0, hcases⟩ := abandonDie_get hget
  obtain rfl := Option.some.inj (h.symm.trans hd0)
  exact ⟨_, hget, hcases⟩

/-- Settles O22: the step is `State.applyReset`, which leaves each die as it was or unknown. -/
theorem resetAtAnyStep : Obligations.ResetAtAnyStep := by
  intro s hv hr
  refine ⟨s.applyReset, step_reset hv hr, rfl, rfl, rfl, rfl, rfl, rfl, rfl, rfl, rfl, applyReset_sameImages s,
    fun hnot => abandonDie_kept fun ⟨hg, hpast⟩ => hnot ⟨hg, (pastConfirm_iff s).mp hpast⟩,
    fun c => ⟨fun hc => abandonDie_other s hc, fun d hd => ?_⟩⟩
  obtain ⟨d', hd', rfl | ⟨rfl, -⟩⟩ := abandonDie_of_die hd
  · exact ⟨_, hd', rfl⟩
  · exact ⟨_, hd', rfl⟩

/-- Settles O23: past the confirm command `State.abandonDie` leaves the request's die unknown and touches no other. -/
theorem resetPastTheConfirmLeavesTheDieUnknown : Obligations.ResetPastTheConfirmLeavesTheDieUnknown := by
  intro s t d hg hr hb hpast hd h
  obtain rfl := reset_of_step hr h
  refine ⟨?_, fun c hc => abandonDie_other s hc⟩
  obtain ⟨d', hd', rfl | ⟨-, hn⟩⟩ := abandonDie_of_die hd
  · exact ⟨_, hd', rfl, rfl⟩
  · exact absurd ⟨hg, (pastConfirm_iff s).mpr ⟨hb, hpast⟩, rfl⟩ hn

end Sys2Proof.Machine
end

section
/-! PROOFS. The write-protect window (70_reset_and_hazards.md R229). -/

namespace Sys2Proof.Machine

/-- The indices at which write protection is released, operation by operation (10_state.md R29). -/
theorem releasedAt_iff (op : BitVec 4) (k : Nat) : releasedAt op k = true ↔
    (op = 2 ∧ (2 ≤ k ∧ k ≤ 8 ∨ k = 12)) ∨ (op = 3 ∧ (2 ≤ k ∧ k ≤ 9 ∨ k = 12)) := by
  have hop : ∀ x : BitVec 4, op = x ↔ op.toNat = x.toNat := fun x => BitVec.toNat_inj.symm
  simp only [hop]
  unfold releasedAt
  split
  · next h => simp [h]
  · next h => simp [h]
  · next h2 h3 =>
    refine iff_of_false Bool.false_ne_true ?_
    rintro (⟨h, -⟩ | ⟨h, -⟩)
    exacts [h2 h, h3 h]

/-- Within a phase list the window opens at index 1, in ERASE_BLOCK and PROGRAM_PAGE alone. -/
theorem releasedAt_opens {op : BitVec 4} {k : Nat} (hk : k ≤ 10) (h : releasedAt op k = false)
    (h' : releasedAt op (k + 1) = true) : k = 1 ∧ (op = 2 ∨ op = 3) := by
  rw [← Bool.not_eq_true, releasedAt_iff] at h
  rw [releasedAt_iff] at h'
  rcases h' with ⟨ho, hk'⟩ | ⟨ho, hk'⟩
  · exact ⟨by by_contra; exact h (.inl ⟨ho, by omega⟩), .inl ho⟩
  · exact ⟨by by_contra; exact h (.inr ⟨ho, by omega⟩), .inr ho⟩

/-- In a legal state the two ends of the write-protect line agree (10_state.md R29, 60_exceptions.md R200). -/
theorem released_iff {s : State} (hi : s.Inv) : s.wpAsserted = false ∨ s.wp = false ↔ s.wpAsserted = false := by
  rw [hi.wpLine, or_self]

/-- A legal state has write protection released only within the window. -/
theorem released_window {s : State} (hi : s.Inv) (h : s.wpAsserted = false) :
    s.ctl = .busy ∧ releasedAt s.reqOp s.phasePc.toNat = true := by
  cases hc : s.ctl with
  | idle =>
    obtain ⟨-, -, hwp⟩ := hi.idle hc
    cases hwp.symm.trans h
  | busy => exact ⟨rfl, by simpa [h] using (hi.busyWp hc).symm⟩

/-- A step of a request releases write protection only by a SET_WP 0 of its list. -/
theorem RequestMove.releases {check : Option Ending} {phases : List Phase} {store : List Byte → State → State}
    {finish : State → Resp} {s t : State} (h : RequestMove check phases store finish s t) (hs : StoresToBuffers store)
    (hset : s.wpAsserted = true) (hrel : t.wpAsserted = false) :
    phases[s.phasePc.toNat]? = some (.setWp false) := by
  cases h with
  | checked e => cases e <;> cases hset.symm.trans hrel
  | responded => cases hset.symm.trans hrel
  | raised => cases hset.symm.trans hrel
  | held => cases hset.symm.trans hrel
  | moved p r u k hp P =>
    have hnext : p.nextWp true = false := hset ▸ P.wpAsserted.symm.trans hrel
    cases p <;> simp only [Phase.nextWp, reduceCtorEq] at hnext
    subst hnext
    simpa using hp
  | stored n l u _ P =>
    obtain ⟨dbuf, idbuf, statusReg, he⟩ := hs l u
    rw [State.bumpPc, he] at hrel
    cases (hset.symm.trans P.wpAsserted.symm).trans hrel

/-- An idle controller's turn moves no line. -/
theorem idleTurn_wpAsserted (s : State) : s.idleTurn.wpAsserted = s.wpAsserted := by
  rcases idleTurn_cases s with ⟨-, r, he⟩ | he | he <;> rw [he] <;> rfl

/-- Of all steps only the SET_WP 0 at index 1 of ERASE_BLOCK and PROGRAM_PAGE opens the window. -/
theorem step_releases {s t : State} (hi : s.Inv) (h : step s = .next t) (hset : s.wpAsserted = true)
    (hrel : t.wpAsserted = false) : s.ctl = .busy ∧ s.phasePc = 1 ∧ (s.reqOp = 2 ∨ s.reqOp = 3) := by
  have hr : s.rst = false := by
    by_contra hr
    rw [reset_of_step (by simpa using hr) h] at hrel
    cases hrel
  cases hc : s.ctl with
  | idle =>
    rw [idleTurn_of_step hr hi.bench hc h, idleTurn_wpAsserted] at hrel
    cases hset.symm.trans hrel
  | busy =>
    rcases runRequest_cases (runRequest_of_step hr hi.bench hc h).2 with rfl | ⟨i, -, hm⟩
    · cases hset.symm.trans hrel
    · have A := latchPhases_at (valid_nodup hi.cfg) (hm.releases (opStore_toBuffers _) hset hrel)
      have hclosed : releasedAt s.reqOp s.phasePc.toNat = false := by simpa [hset] using hi.busyWp hc
      obtain ⟨hk, hop⟩ := releasedAt_opens A.bound hclosed (by simpa [Phase.nextWp] using A.wp)
      exact ⟨rfl, BitVec.eq_of_toNat_eq hk, hop⟩

/-- Settles O58: the window is that of the invariant, and only a SET_WP 0 opens it. -/
theorem writeProtectWindow : Obligations.WriteProtectWindow := by
  intro s t hi h
  simp only [released_iff hi, released_iff (everyStepKeepsTheInvariant s t hi h)]
  refine ⟨fun hrel => ?_, fun hset hrel => step_releases hi h (by simpa using hset) hrel, fun hr => ?_⟩
  · obtain ⟨hc, hwindow⟩ := released_window hi hrel
    exact ⟨hc, (releasedAt_iff _ _).mp hwindow⟩
  · rw [reset_of_step hr h]
    simp

end Sys2Proof.Machine
end

section
/-! PROOFS. DIN of a die of which nothing is known (70_reset_and_hazards.md R228, 42_phases.md R166). -/

namespace Sys2Proof.Machine

/-! ### The answer to a DIN -/

theorem answerBytes_free {s : State} (n : Nat) (h : s.answers = []) :
    s.answerBytes n = some (freeBytes s.draws n, s.drew n) := by
  simp [State.answerBytes, h]

theorem answerBytes_supplied {s : State} {l : List Byte} {rest : List Answer} (h : s.answers = .bytes l :: rest) :
    s.answerBytes l.length = some (l, { s with answers := rest }) := by
  simp [State.answerBytes, h]

/-- An answer of another length breaks the driver port contract (42_phases.md R166). -/
theorem answerBytes_wrongLength {s : State} {n : Nat} {l : List Byte} {rest : List Answer}
    (h : s.answers = .bytes l :: rest) (hl : l.length ≠ n) : s.answerBytes n = none := by
  simp [State.answerBytes, h, hl]

/-! ### An unknown die -/

/-- Disturbing an unknown die leaves it unknown. -/
theorem disturbed_unknown {cfg : Config} {d : Die} (h : d.unknown = true) : (d.disturbed cfg).unknown = true := by
  unfold Die.disturbed
  split
  · rfl
  · exact h

/-- No law fixes the bytes of an unknown die: they are the answer of the device (70_reset_and_hazards.md R228). -/
theorem dieBytes_unknown {s : State} {d : Die} (n : Nat) (hg : s.cfg.device = .general) (hu : d.unknown = true) :
    s.dieBytes d n = s.answerBytes n := by
  simp [State.dieBytes, hg, Die.lawBytes, hu]

section

variable {s u : State} {c : BitVec 4} {d : Die} {n : Nat} {l : List Byte} (hg : s.cfg.device = .general)
  (hs : s.sel = some c) (hd : s.dies[c.toNat]? = some d) (hu : d.unknown = true)

include hg hs hd hu

theorem execDin_unknown (ha : s.answerBytes n = some (l, u)) : exec (.din n) s =
    .next ((u.setDie c ((d.disturbed s.cfg).afterDin n)).logPhase (.din n) (.bytes l)) := by
  simp [exec, execDin, performDin, hs, hd, dieBytes_unknown n hg (disturbed_unknown hu), ha, PhaseResult.outcome]

theorem execDin_unknown_refused (ha : s.answerBytes n = none) : exec (.din n) s = .refused .driverContract := by
  simp [exec, execDin, performDin, hs, hd, dieBytes_unknown n hg (disturbed_unknown hu), ha, PhaseResult.outcome]

end

/-- Settles O43: the bytes are the device's answer, free or supplied. -/
theorem dinOfAnUnknownDieIsADraw : Obligations.DinOfAnUnknownDieIsADraw := by
  intro s c d n hg hs hd hu
  refine ⟨fun ha => ?_, fun l rest ha hl => ?_, fun l rest ha hl => ?_⟩
  · exact ⟨_, execDin_unknown hg hs hd hu (answerBytes_free n ha), rfl⟩
  · subst hl
    exact ⟨_, execDin_unknown hg hs hd hu (answerBytes_supplied ha), rfl, rfl⟩
  · exact execDin_unknown_refused hg hs hd hu (answerBytes_wrongLength ha hl)

end Sys2Proof.Machine
end

section
/-! PROOFS. A program followed by a read (70_reset_and_hazards.md R227): the host's requests are served one after the
other, from the idle controller to the idle controller. -/

namespace Sys2Proof.Machine

/-! ### A request in progress on the reference device -/

/-- A request past its checks is in progress on the reference device, in a legal state and with no reset. -/
structure State.Progresses (s : State) : Prop where
  inv : s.Inv
  rst : s.rst = false
  busy : s.ctl = .busy
  checked : s.latchCheck = none
  reference : s.cfg.device = .reference

theorem State.SamePorts.trans {s t u : State} (h : State.SamePorts s t) (h' : State.SamePorts t u) :
    State.SamePorts s u where
  cfg := h'.cfg.trans h.cfg
  reqOp := h'.reqOp.trans h.reqOp
  reqCs := h'.reqCs.trans h.reqCs
  reqBlock := h'.reqBlock.trans h.reqBlock
  reqPage := h'.reqPage.trans h.reqPage
  reqLen := h'.reqLen.trans h.reqLen
  requests := h'.requests.trans h.requests
  hostTakes := h'.hostTakes.trans h.hostTakes
  rst := h'.rst.trans h.rst
  bench := h'.bench.trans h.bench
  delivered := h'.delivered.trans h.delivered

theorem State.SamePorts.latchCheck_eq {s t : State} (h : State.SamePorts s t) : t.latchCheck = s.latchCheck := by
  simp only [State.latchCheck, h.cfg, h.reqOp, h.reqCs, h.reqBlock, h.reqPage, h.reqLen]

/-- A step of a busy controller leaves the latch and the ports as they are. -/
theorem step_samePorts {s t : State} (hi : s.Inv) (hr : s.rst = false) (hc : s.ctl = .busy) (h : step s = .next t) :
    State.SamePorts s t := by
  rcases runRequest_cases (runRequest_of_step hr hi.bench hc h).2 with rfl | ⟨i, -, hm⟩
  · exact { State.SamePorts.rfl' s with }
  · exact hm.samePorts (opStore_toBuffers _)

/-- A step of such a request performs its next phase, or responds after the last (40_operations.md R120). -/
theorem State.Progresses.advances {s : State} (R : s.Progresses) (hpc : s.phasePc.toNat ≤ phaseCount s.reqOp) :
    ∃ u, step s = .next u ∧ u.Inv ∧ State.SamePorts s u ∧
      (s.phasePc.toNat < phaseCount s.reqOp → u.Progresses ∧ u.phasePc.toNat = s.phasePc.toNat + 1) ∧
      (s.phasePc.toNat = phaseCount s.reqOp → u.ctl = .idle ∧ u.resp ≠ .none) := by
  obtain ⟨i, hl⟩ := latched_of_checked R.checked
  obtain ⟨u, hu, hphase⟩ := everyRequestStepPerformsItsPhase s i R.inv R.busy hl R.checked R.reference
    (by rwa [phasesOf_latched hl, latchPhases_length])
  rw [phasesOf_latched hl] at hphase
  have hstep : step s = .next u := by
    rw [step_busy R.inv.cfg R.rst R.inv.bench R.busy, (runRequest_latched hl).1, hu]
  have hinv := everyStepKeepsTheInvariant s u R.inv hstep
  have hports := step_samePorts R.inv R.rst R.busy hstep
  refine ⟨u, hstep, hinv, hports, fun hlt => ?_, fun hend => ?_⟩
  · have hp := List.getElem?_eq_getElem (latchPhases_length (s := s) ▸ hlt)
    rw [hp] at hphase
    obtain ⟨r, -, hnext, hbusy⟩ := hphase
    exact ⟨⟨hinv, hports.rst.trans R.rst, hbusy, hports.latchCheck_eq.trans R.checked, hports.cfg ▸ R.reference⟩,
      by rw [hnext, toNat_succ (latchPhases_at (valid_nodup R.inv.cfg) hp).bound]⟩
  · rw [List.getElem?_eq_none (by rw [latchPhases_length, hend])] at hphase
    exact hphase.2

/-- Such a request with `m` phases left responds after `m + 1` steps. -/
theorem State.Progresses.responds {m : Nat} {s : State} (R : s.Progresses)
    (hm : s.phasePc.toNat + m = phaseCount s.reqOp) :
    ∃ t, stepN (m + 1) s = .next t ∧ t.Inv ∧ State.SamePorts s t ∧ t.ctl = .idle ∧ t.resp ≠ .none := by
  induction m generalizing s with
  | zero =>
    obtain ⟨t, hstep, hinv, hports, -, hend⟩ := R.advances hm.le
    exact ⟨t, stepN_next (n := 0) hstep, hinv, hports, hend hm⟩
  | succ m ih =>
    obtain ⟨u, hstep, -, hports, hnext, -⟩ := R.advances (by omega)
    obtain ⟨hu, hpc⟩ := hnext (by omega)
    obtain ⟨t, hrun, hinv, hports', hend⟩ := ih hu (by rw [hpc, hports.reqOp]; omega)
    exact ⟨t, (stepN_next hstep).trans hrun, hinv, hports.trans hports', hend⟩

theorem State.Starts.progresses {s : State} {i : Instr} (h : s.Starts i) (hdev : s.cfg.device = .reference) :
    s.Progresses :=
  ⟨h.inv, h.rst, h.busy, h.checked, hdev⟩

/-! ### One request served -/

/-- The controller is idle in a legal state, with no response waiting and a host that takes the next one
(10_state.md R32, R34). -/
structure State.Awaits (s : State) : Prop where
  inv : s.Inv
  rst : s.rst = false
  idle : s.ctl = .idle
  resp : s.resp = .none
  hostTakes : s.hostTakes = true

theorem stepN_trans {m n : Nat} {s t : State} (h : stepN m s = .next t) : stepN (m + n) s = stepN n t := by
  induction m generalizing s with
  | zero =>
    cases h
    rw [Nat.zero_add]
  | succ m ih =>
    rw [stepN] at h
    split at h
    · next u hu => rw [Nat.add_right_comm, stepN_next hu, ih h]
    · cases h
    · cases h

section

variable {s t : State} {i : Instr} {r : Request} {rest : List Request} {n : Nat} (A : s.Awaits)

include A

/-- An acceptance starts the request of its word, where the checks on it pass (10_state.md R33). -/
theorem State.Awaits.starts (hw : decodeRequest r.word = .ok i) (hchk : (s.accept r).latchCheck = none) :
    (s.accept r).Starts i where
  inv := accept_inv A.inv A.idle A.resp r
  rst := A.rst
  busy := rfl
  pc := rfl
  latch := (latched_eq _).trans hw
  checked := hchk

/-- A request of the reference device is accepted, runs to its response, and the host consumes that (10_state.md R32 to
R34). -/
theorem State.Awaits.serves (hq : s.requests = r :: rest) (hS : (s.accept r).Starts i)
    (hdev : s.cfg.device = .reference) (hn : phaseCount (wordOp r.word) = n)
    (ht : stepN (n + 1) (s.accept r) = .next t) :
    stepN (n + 3) s = .next t.consume ∧ t.consume.Awaits ∧ t.cfg = s.cfg ∧ t.requests = rest ∧
      t.delivered = s.delivered := by
  obtain ⟨t', ht', hinv, hports, hidle, hresp⟩ := (hS.progresses hdev).responds ((Nat.zero_add n).trans hn.symm)
  obtain rfl := Host.Outcome.next.inj (ht.symm.trans ht')
  have hrst : t.rst = false := hports.rst.trans A.rst
  have htakes : t.hostTakes = true := hports.hostTakes.trans A.hostTakes
  have haccept : step s = .next (s.accept r) := by
    rw [step_idle A.inv.cfg A.rst A.inv.bench A.idle, idleTurn_accept A.resp hq]
  have hconsume : step t = .next t.consume := by
    rw [step_idle hinv.cfg hrst hinv.bench hidle, idleTurn_consume hresp htakes]
  refine ⟨?_, ⟨consume_inv hinv, hrst, hidle, rfl, htakes⟩, hports.cfg, ?_, hports.delivered⟩
  · calc stepN (n + 3) s = stepN (n + 1 + 1) (s.accept r) := stepN_next haccept
      _ = stepN 1 t := stepN_trans ht
      _ = .next t.consume := stepN_next (n := 0) hconsume
  · rw [hports.requests, State.accept_requests, hq, List.tail_cons]

end

/-! ### The two requests -/

/-- A program or read of a page there is, with a payload of a page, passes the checks (60_exceptions.md R193). -/
theorem latchCheck_page {s : State} (ho : s.reqOp = 3 ∨ s.reqOp = 4) (hcs : s.reqCs.toNat < s.cfg.numCs)
    (hblock : s.reqBlock.toNat < s.cfg.blocksPerCs) (hpage : s.reqPage.toNat < s.cfg.pagesPerBlock)
    (hlen : s.reqOp = 3 → s.reqLen = s.cfg.fullPageSize) : s.latchCheck = none := by
  have hrange : ¬s.LatchOutOfRange := by
    unfold State.LatchOutOfRange
    omega
  have hreserved : ¬s.LatchReserved := by
    rcases ho with ho | ho <;> simp [State.LatchReserved, ho]
  rw [latchCheck_eq, if_neg hreserved, if_neg hrange, if_neg fun ⟨h, hne⟩ => hne (hlen h)]

section

variable {s : State} {cs : BitVec 4} {block : BitVec 16} {page : BitVec 8} {data : List Byte} {rest : List Request}
  (A : s.Awaits) (hdev : s.cfg.device = .reference) (hcs : cs.toNat < s.cfg.numCs)
  (hblock : block.toNat < s.cfg.blocksPerCs) (hpage : page.toNat < s.cfg.pagesPerBlock)

include A hdev hcs hblock hpage

/-- A PROGRAM_PAGE served: its page's bytes are ANDed with the payload (40_operations.md R127, R128). -/
theorem State.Awaits.programs (hlen : data.length = s.cfg.fullPageSize)
    (hinj : s.cfg.injected cs block.toNat .program = false)
    (hq : s.requests = ⟨packWord 3 cs block page, data⟩ :: rest) :
    ∃ t, stepN 14 s = .next t ∧ t.Awaits ∧ t.cfg = s.cfg ∧ t.requests = rest ∧
      t.delivered = s.delivered ++ [.ok (statusPass s.cfg 0xE0)] ∧
      ∀ k b, data[k]? = some b → t.imageByte cs.toNat (s.cfg.rowOf block page * s.cfg.fullPageSize + k) =
        (s.imageByte cs.toNat (s.cfg.rowOf block page * s.cfg.fullPageSize + k)).map (fun old => old &&& b) := by
  have S := A.starts (r := ⟨packWord 3 cs block page, data⟩) (decodeRequest_packWord _ _ _ _)
    (latchCheck_page (by simp) (by simpa) (by simpa) (by simpa) fun _ => hlen)
  obtain ⟨t, ht, hresp, -, -, -, -, -, -, hand, -⟩ := programPageAndsThePayload _ cs block page S hdev
  obtain ⟨hserved, B, hcfg, hrest, hdelivered⟩ := A.serves hq S hdev (n := 11) (by simp [phaseCount]) ht
  refine ⟨t.consume, hserved, B, hcfg, hrest, ?_, fun k b hb => ?_⟩
  · simp [hdelivered, hresp, hinj]
  · have hbyte := hand k b (by simpa [hlen] using hb)
    simp only [State.accept_cfg, hinj, Bool.false_eq_true, if_false] at hbyte
    exact hbyte

/-- A READ_PAGE served: the response carries its page's bytes (40_operations.md R130). -/
theorem State.Awaits.reads (hq : s.requests = ⟨packWord 4 cs block page, []⟩ :: rest) :
    ∃ t l, stepN 10 s = .next t ∧ t.requests = rest ∧ t.resp = .none ∧ t.delivered = s.delivered ++ [.page l] ∧
      l.length = s.cfg.fullPageSize ∧ ∀ k, k < s.cfg.fullPageSize →
        s.imageByte cs.toNat (s.cfg.rowOf block page * s.cfg.fullPageSize + k) = l[k]? := by
  have S := A.starts (r := ⟨packWord 4 cs block page, []⟩) (decodeRequest_packWord _ _ _ _)
    (latchCheck_page (by simp) (by simpa) (by simpa) (by simpa) (by simp))
  obtain ⟨t, l, ht, hresp, -, hlen, hread, -⟩ := readPageReturnsThePage _ cs block page S (.inl hdev)
  obtain ⟨hserved, B, -, hrest, hdelivered⟩ := A.serves hq S hdev (n := 7) (by simp [phaseCount]) ht
  exact ⟨t.consume, l, hserved, hrest, rfl, by simp [hdelivered, hresp], hlen, hread⟩

end

/-- Settles O30: the two requests are served one after the other, and a page of 0xFF ANDed with the payload is the
payload. -/
theorem programThenReadReturnsTheData : Obligations.ProgramThenReadReturnsTheData := by
  intro s cs block page data rest hi hr hc hresp htakes hdev hcs hblock hpage hlen hinj herased hq
  have A : s.Awaits := ⟨hi, hr, hc, hresp, htakes⟩
  obtain ⟨t, ht, B, hcfg, hq', hdelivered, hand⟩ := A.programs hdev hcs hblock hpage hlen hinj hq
  rw [← hcfg] at hdev hcs hblock hpage
  obtain ⟨u, l, hu, hrest, hnone, hdelivered', hl, hread⟩ := B.reads hdev hcs hblock hpage hq'
  rw [hcfg] at hl hread
  have hpayload : l = data := by
    refine List.ext_getElem (hl.trans hlen.symm) fun k hk hk' => ?_
    have hbyte := hand k _ (List.getElem?_eq_getElem hk')
    rw [hread k (hl ▸ hk), Config.rowOf, herased k (hl ▸ hk), List.getElem?_eq_getElem hk] at hbyte
    exact (Option.some.inj hbyte).trans (BitVec.allOnes_and (x := data[k]))
  refine ⟨u, (stepN_trans ht).trans hu, hrest, hnone, ?_⟩
  rw [hdelivered', hdelivered, hpayload, List.append_assoc, List.cons_append, List.nil_append]

end Sys2Proof.Machine
end

section
/-! PROOFS. SELECT of a chip select outside the configuration (42_phases.md R160). -/

namespace Sys2Proof.Machine

/-- Settles O37: the guard of SELECT is `c < NUM_CS`. -/
theorem selectOfAnAbsentDieFaults : Obligations.SelectOfAnAbsentDieFaults := by
  intro s c hc
  rw [exec, execSelect, performSelect, if_neg hc.not_gt]
  rfl

end Sys2Proof.Machine
end

section
/-! PROOFS. An unknown die stays unknown (70_reset_and_hazards.md R228): outside reset a step touches the dice only by
performing a phase. -/

namespace Sys2Proof.Machine

/-- The die of a chip select is there and unknown (70_reset_and_hazards.md R228). -/
def State.DieUnknown (s : State) (c : Nat) : Prop := ∃ d, s.dies[c]? = some d ∧ d.unknown = true

theorem State.DieUnknown.of_dies_eq {s t : State} {c : Nat} (hu : s.DieUnknown c) (h : t.dies = s.dies) :
    t.DieUnknown c := by
  rwa [State.DieUnknown, h]

/-- Reset leaves each die as it was, or unknown (70_reset_and_hazards.md R222, R228). -/
theorem applyReset_dieUnknown {s : State} {c : Nat} (hu : s.DieUnknown c) : s.applyReset.DieUnknown c := by
  obtain ⟨d, hd, hu⟩ := hu
  obtain ⟨d', hd', rfl | ⟨rfl, -⟩⟩ := abandonDie_of_die hd
  · exact ⟨_, hd', rfl⟩
  · exact ⟨_, hd', hu⟩

/-- A command byte driven at the device is its command cycle, or that of a byte that is none of the eight. -/
theorem runBench_command (b : Byte) (s : State) : runBench (.command b) s = commandByteCycle b s := by
  rw [commandByteCycle_eq]
  simp only [runBench, decodeCommand]
  cases nandCmdOf s.cfg b <;> rfl

/-- A command byte driven at the device changes the dice as CMD with that byte does (42_phases.md R163). -/
theorem commandByteCycle_performed {b : Byte} {s t : State} (h : commandByteCycle b s = .next t) :
    Performed (.cmd b) s .unit (t.logPhase (.cmd b) .unit) :=
  perform_done (by rw [perform, performCmd, h]; rfl)

theorem runBench_dieUnknown {item : BenchItem} {s t : State} {c : Nat} (h : runBench item s = .next t)
    (hu : s.DieUnknown c) : t.DieUnknown c := by
  cases item with
  | command b =>
    rw [runBench_command] at h
    exact (commandByteCycle_performed h).unknown hu
  | phase r =>
    simp only [runBench] at h
    split at h
    · next i hi =>
      obtain ⟨p, rfl⟩ := decodePhase_ok hi
      rcases exec_ofPhase_cases h with ⟨_, P⟩ | ⟨-, -, a, n, rfl⟩
      · exact P.unknown hu
      · exact hu
    · cases h

theorem runRequest_dieUnknown {s t : State} {c : Nat} (h : runRequest s = .next t) (hu : s.DieUnknown c) :
    t.DieUnknown c := by
  rcases runRequest_cases h with rfl | ⟨i, -, hm⟩
  · exact hu
  · rcases hm.dies (opStore_toBuffers _) with hdies | ⟨_, _, _, -, P, hdies⟩
    · exact hu.of_dies_eq hdies
    · exact State.DieUnknown.of_dies_eq (P.unknown hu) hdies

theorem idleTurn_dies (s : State) : s.idleTurn.dies = s.dies := by
  rcases idleTurn_cases s with ⟨-, r, he⟩ | he | he <;> rw [he] <;> rfl

/-- Settles O35, by the kinds of step. -/
theorem unknownDieStaysUnknown : Obligations.UnknownDieStaysUnknown := by
  intro s t c d h hd hunknown
  have hu : s.DieUnknown c := ⟨d, hd, hunknown⟩
  change t.DieUnknown c
  rcases step_cases s with ⟨-, he⟩ | ⟨-, -, he⟩ | ⟨-, -, item, rest, -, he⟩ | ⟨-, -, -, -, he⟩ | ⟨-, -, -, -, he⟩ <;>
    rw [he] at h
  · cases h
  · cases h
    exact applyReset_dieUnknown hu
  · exact runBench_dieUnknown h hu
  · exact runRequest_dieUnknown h hu
  · cases h
    exact hu.of_dies_eq (idleTurn_dies s)

end Sys2Proof.Machine
end
